-- ==== Sys2Proof/Word.lean ====
section
/-! DEFINITION. The word types of the block: bytes (symbols), bus words, wide arithmetic-coder registers. -/
namespace Sys2Proof

/-- One byte; a symbol is one byte, `SYM_W = 8` (R5, R13). -/
abbrev Byte := BitVec 8

/-- One bus word, `DATA_W = 32` (R5, R64); a command word is one of these (R90). -/
abbrev Word := BitVec 32

/-- One wide arithmetic-coder register: `ARC_WORDS = 65` words of 32 bits, 2080 bits (R5, R41). -/
abbrev Wide := BitVec 2080

end Sys2Proof
end

