-- ==== Sys2Proof/Syntax.lean ====
section
/-! DEFINITION. The 13 commands (R93), one constructor per row of the opcode table. Commands carry no operand (R96). -/
namespace Sys2Proof

/-- A command of the block, in the opcode order of R93. -/
inductive Instr where
  | nop
  | sreset
  | rleEnc
  | hufFreq
  | hufBuild
  | hufCodes
  | hufEnc
  | hufAll
  | arcInit
  | arcStep
  | arcRun
  | arcFinal
  | arcAll
  deriving DecidableEq, Repr

end Sys2Proof
end

