-- ==== Sys2Proof/WellFormed.lean ====
section
/-! DEFINITION. Well-formedness. A command has no operand, so every command is well formed (R96); what can be ill formed is
the 32-bit word that stands for one (R90, R92, R94). -/
namespace Sys2Proof

/-- The assigned opcode bytes of R93, in its order. -/
def assignedOpcodes : List Byte :=
  [0x00, 0x01, 0x10, 0x20, 0x21, 0x22, 0x23, 0x2F, 0x30, 0x31, 0x32, 0x33, 0x3F]

/-- The field `OPC` of a command word, bits [7:0] (R90). -/
def opcField (w : Word) : Byte := w.extractLsb' 0 8

/-- The field `RSV` of a command word, bits [31:8] (R90). -/
def rsvField (w : Word) : BitVec 24 := w.extractLsb' 8 24

/-- The check "reserved bits are zero" (R92). -/
def rsvZero (w : Word) : Bool := rsvField w == 0

/-- The check "the opcode is assigned" (R94). -/
def opcAssigned (w : Word) : Bool := assignedOpcodes.contains (opcField w)

/-- A word is a legal command word when both checks pass (R92, R94). -/
def wordWellFormed (w : Word) : Bool := rsvZero w && opcAssigned w

/-- Every command is well formed: no command has an immediate or a register field (R96). -/
def Instr.wellFormed : Instr → Bool
  | .nop | .sreset | .rleEnc | .hufFreq | .hufBuild | .hufCodes | .hufEnc | .hufAll
  | .arcInit | .arcStep | .arcRun | .arcFinal | .arcAll => true

end Sys2Proof
end

