-- ==== Sys2Proof/Decode.lean ====
section
/-! DEFINITION. Decoding of a command word, total on every 32-bit word (R91), and the encoder. -/
namespace Sys2Proof

/-- Why a word is no command: its reserved bits are not zero (R92), or its opcode is unassigned (R94). Both complete
with `E_ILLEGAL` (R114). -/
inductive IllegalWord where
  | reservedBits
  | unassignedOpcode
  deriving DecidableEq, Repr

/-- The opcode map of R93: opcode byte and command. -/
def opcodeMap : List (Byte × Instr) :=
  [(0x00, .nop), (0x01, .sreset), (0x10, .rleEnc),
   (0x20, .hufFreq), (0x21, .hufBuild), (0x22, .hufCodes), (0x23, .hufEnc), (0x2F, .hufAll),
   (0x30, .arcInit), (0x31, .arcStep), (0x32, .arcRun), (0x33, .arcFinal), (0x3F, .arcAll)]

/-- The command a word stands for, or the name of what makes it illegal (R91, R92, R94). -/
def decode (w : Word) : Except IllegalWord Instr :=
  if rsvField w = 0 then
    match opcodeMap.lookup (opcField w) with
    | some i => .ok i
    | none => .error .unassignedOpcode
  else .error .reservedBits

/-- The word of a command: the column `match` of R93. -/
def encode : Instr → Word
  | .nop      => 0x00000000
  | .sreset   => 0x00000001
  | .rleEnc   => 0x00000010
  | .hufFreq  => 0x00000020
  | .hufBuild => 0x00000021
  | .hufCodes => 0x00000022
  | .hufEnc   => 0x00000023
  | .hufAll   => 0x0000002F
  | .arcInit  => 0x00000030
  | .arcStep  => 0x00000031
  | .arcRun   => 0x00000032
  | .arcFinal => 0x00000033
  | .arcAll   => 0x0000003F

/-- The command word that holds the low `nbits` bits of `w`, every other bit zero. A command is one 32-bit word
written in a single bus write (R90), so no byte order enters. -/
def tableWord (nbits w : Nat) : Word := BitVec.ofNat 32 (w % 2 ^ nbits)

/-- What the decoder reads from the low `nbits` bits of `w`, numbered as the opcode table numbers them. -/
def decodeTableWord (nbits w : Nat) : Option Instr :=
  match decode (tableWord nbits w) with
  | .ok i => some i
  | .error _ => none

end Sys2Proof
end

