-- ==== Sys2Proof/Config.lean ====
section
/-! DEFINITION. The parameters of the block (R5) and the free values: constants with no body, which stand for what the
spec leaves open (R68, R205, R214, R232, R240). -/
namespace Sys2Proof.Config

/-- `NSYM`: the number of distinct symbol values (R5). -/
abbrev nSym : Nat := 256
/-- `MAX_LEN`: the largest legal input length (R5). -/
abbrev maxLen : Nat := 256
/-- `LIT_CAP`: the largest RLE literal segment (R5). -/
abbrev litCap : Nat := 255
/-- `OUT_BYTES`: the size of `OUTBUF` in bytes (R5). -/
abbrev outBytes : Nat := 2048
/-- `HBUF_BITS`: the capacity of `HBUF` in bits (R5). -/
abbrev hbufBits : Nat := 2048
/-- The size of `HBUF` in bytes (R5, R42). -/
abbrev hbufBytes : Nat := 256
/-- `MAX_CODE_LEN`: the longest code the code table can hold (R5). -/
abbrev maxCodeLen : Nat := 32
/-- `NODE_MAX`: the largest Huffman node count (R5). -/
abbrev nodeMax : Nat := 511
/-- `ARC_WORDS`: 32-bit words in each wide register (R5). -/
abbrev arcWords : Nat := 65
/-- `ADDR_W`: the bus byte-address width (R5). -/
abbrev addrW : Nat := 15
/-- The constant that `ID` reads (R22). -/
abbrev idWord : Word := 0x54564431#32

/-- FREE VALUE (R232, U2 to U4): the byte that offset `off` holds after hardware reset number `epoch`, until it is
written. One draw per bit, under no law. Log entry 1. -/
opaque powerOnByte : (epoch : Nat) → (off : Nat) → Byte

/-- FREE VALUE (R68, U1): what the read of a result location while `BUSY = 1` returns, a fresh draw for each value of
the model's counter. Log entry 2. -/
opaque busyReadWord : (draw : Nat) → Word

/-- FREE VALUE (R240, U5, U7): `CMD_LATENCY` as the number of model steps by which the completion of the accepted command
word is postponed; any finite number. R240 lets it depend on the command and its operands, so it may depend on the word and
on everything in the state `accepted` at acceptance (the operands, and the counter of draws, which tells two acceptances
apart); nothing is assumed of how. `σ` is the type of states, which this file comes before. Log entry 3. -/
opaque cmdLatency : {σ : Type} → (cmd : Word) → (accepted : σ) → Nat

/-- FREE VALUE (R205, U18): the index of the host's program at which the host goes on after a branch whose read was
answered with a bus error, one draw for each value of the model's counter; any index, also one past the program's end,
where the host does nothing more. Log entry 6. -/
opaque hostAfterBusError : (draw : Nat) → Nat

/-- OPEN PARAMETER (R214, U6): `BLOCK_BASE`, the platform address of block offset 0. Log entry 15. -/
opaque blockBase : Nat

end Sys2Proof.Config
end

