-- ==== Sys2Proof/Machine/State.lean ====
section
/-! DEFINITION. The state of the block (10_state.md), of its host and of its reset input, as plain data; the reasons a
step can stop; the state right after reset (R231, R232). -/
namespace Sys2Proof.Machine

/-- Why an access or a step stops. -/
inductive Fault where
  /-- Raised by a bus access that is misaligned, wrongly sized or unmapped (R64, R65, R66). It is the RESPONSE of that
  access, recorded in `State.responses`: the block's state does not change and the machine goes on. Safe. -/
  | busError
  /-- Raised by a step whose host operation accesses the bus while `RST` is asserted; "the host must not access it"
  (R230). No command is pending then (R233), so no completion is held up. The machine stops. Safe (log entry 7). -/
  | accessInReset
  deriving DecidableEq, Repr

/-- Why an instruction has no meaning. -/
inductive Refusal where
  /-- Raised by `exec` for a command that has no meaning in the model yet; there is none. Safe. -/
  | notModelled (mnemonic : String)
  deriving DecidableEq, Repr

/-- The result codes of `STATUS.ERR` (R200). Codes 7..15 are never reported (U10) and have no constructor. -/
inductive ErrCode where
  | ok
  | eIllegal
  | eLen
  | eSeq
  | eAlphabet
  | eOverflow
  | eCodelen
  deriving DecidableEq, Repr

/-- The Huffman pipeline stage `HUF_STAGE` (R33). Values 5..7 never occur (U16). -/
inductive HufStage where
  | none
  | freq
  | tree
  | codes
  | enc
  deriving DecidableEq, Repr

/-- The arithmetic coder state `ARC_STATE` (R38). Value 3 never occurs (U16). -/
inductive ArcState where
  | idle
  | active
  | final
  deriving DecidableEq, Repr

/-- An element of the hidden `active` set with its merge key `(FREQ, index)` (R45, R143). -/
structure MergeKey where
  freq  : BitVec 16
  index : Nat
  deriving DecidableEq, Repr

/-- One block memory: the bytes written since reset, as (block offset, byte) cells in one canonical form
(`Memory.WellFormed`). An offset that is not listed has not been written since reset (R232). -/
abbrev Memory := List Host.Cell

/-- What one bus access answers: a value, a normal response to a write, or a fault of the access (R66, R69). -/
inductive Response where
  | data (v : Word)
  | ack
  | fault (f : Fault)
  deriving DecidableEq, Repr

/-- One operation of the outside world: a bus access marked with its size in bytes (R9, R64), the host branch `bnz`
with its target as an index into the host program (R98), or the level of the reset input `RST` from now on (R230; log
entry 19 says what the level it already has does). -/
inductive HostOp where
  | write (off size : Nat) (v : Word)
  | read (off size : Nat)
  | bnz (off : Nat) (mask : Word) (target : Nat)
  | rst (asserted : Bool)
  deriving DecidableEq, Repr

/-- The whole state. `ID` and `PARAM` are constants (R22, R23) and `IRQ` has no state of its own (R47). -/
structure State where
  /-- `CTRL.IE` (R24). -/
  ie : Bool
  /-- `STATUS.BUSY` (R26). -/
  busy : Bool
  /-- `STATUS.DONE` (R27). -/
  done : Bool
  /-- `STATUS.WOB` (R28). -/
  wob : Bool
  /-- `STATUS.ERR` (R29). -/
  err : ErrCode
  /-- `CMD`, and while `BUSY = 1` the pending command (R30, R45). -/
  cmd : Word
  /-- `IN_LEN` (R31). -/
  inLen : BitVec 16
  /-- `OUT_LEN` (R32). -/
  outLen : BitVec 16
  /-- `HUF_STAGE` (R33). -/
  hufStage : HufStage
  /-- `HUF_NLEAF` (R34). -/
  hufNLeaf : BitVec 9
  /-- `HUF_NNODE` (R35). -/
  hufNNode : BitVec 10
  /-- `HUF_ROOT` (R36). -/
  hufRoot : BitVec 9
  /-- `HUF_BITLEN` (R37). -/
  hufBitLen : BitVec 16
  /-- `ARC_STATE` (R38). -/
  arcState : ArcState
  /-- `ARC_N` (R39). -/
  arcN : BitVec 16
  /-- `ARC_POS` (R40). -/
  arcPos : BitVec 16
  /-- `ARC_LOW` (R41). -/
  arcLow : Wide
  /-- `ARC_HIGH` (R41). -/
  arcHigh : Wide
  /-- `ARC_SCALE` (R41). -/
  arcScale : Wide
  /-- `ARC_MID` (R41). -/
  arcMid : Wide
  /-- `INBUF` (R42). -/
  inbuf : Memory
  /-- `OUTBUF` (R42). -/
  outbuf : Memory
  /-- `HBUF` (R42). -/
  hbuf : Memory
  /-- `HUF_FREQ` (R43). -/
  hufFreq : Memory
  /-- `HUF_CODE` (R43). -/
  hufCode : Memory
  /-- `HUF_CLEN` (R43). -/
  hufClen : Memory
  /-- `HUF_NODE` (R44). -/
  hufNode : Memory
  /-- `ARC_FREQ` (R46). -/
  arcFreq : Memory
  /-- `ARC_CUM` (R46). -/
  arcCum : Memory
  /-- The hidden `active` set of `HUF_BUILD`, empty outside its completion (R45). -/
  active : List MergeKey
  /-- The level of the reset input `RST` (R230). -/
  inReset : Bool
  /-- MODEL'S OWN: steps left before the completion of the pending command (R240; log entry 3). -/
  latency : Nat
  /-- MODEL'S OWN: the counter that indexes the fresh draws of R68, R205 and R240 (log entries 2, 3, 6). -/
  draws : Nat
  /-- MODEL'S OWN: the counter of hardware resets, which indexes the draws of R232 (log entry 1). -/
  resets : Nat
  /-- MODEL'S OWN: the host program, an input (R98, R100; log entry 4). -/
  host : List HostOp
  /-- MODEL'S OWN: the index of the host's next operation (log entry 4). -/
  hostPc : Nat
  /-- MODEL'S OWN: the responses the host has received, oldest first (R100; log entry 4). -/
  responses : List Response
  deriving DecidableEq, Repr

/-- The machine right after reset: the registers as R231 gives them, no memory byte written (R232), `RST` released, no
host program. The values of the model's own fields are DESIGN CHOICES (log entries 1 to 4). -/
def State.reset : State where
  ie := false
  busy := false
  done := false
  wob := false
  err := .ok
  cmd := 0
  inLen := 0
  outLen := 0
  hufStage := .none
  hufNLeaf := 0
  hufNNode := 0
  hufRoot := 0
  hufBitLen := 0
  arcState := .idle
  arcN := 0
  arcPos := 0
  arcLow := 0
  arcHigh := 0
  arcScale := 0
  arcMid := 0
  inbuf := []
  outbuf := []
  hbuf := []
  hufFreq := []
  hufCode := []
  hufClen := []
  hufNode := []
  arcFreq := []
  arcCum := []
  active := []
  inReset := false
  latency := 0
  draws := 0
  resets := 0
  host := []
  hostPc := 0
  responses := []

end Sys2Proof.Machine
end

