-- ==== Sys2Proof/Machine/Layout.lean ====
section
/-! DEFINITION. The address map of the block space (R60 to R65) and which bits of each memory are stored (10_state.md,
section 4). -/
namespace Sys2Proof.Machine

/-- The registers of the register page (R61). -/
inductive Reg where
  | id | param | ctrl | status | cmd | inLen | outLen
  | hufStage | hufNLeaf | hufNNode | hufRoot | hufBitLen
  | arcState | arcN | arcPos
  deriving DecidableEq, Repr

/-- The nine block memories (R8, R42 to R46). -/
inductive Bank where
  | inbuf | outbuf | hbuf | hufFreq | hufCode | hufClen | hufNode | arcFreq | arcCum
  deriving DecidableEq, Repr

/-- The four wide registers (R41). -/
inductive WideReg where
  | low | high | scale | mid
  deriving DecidableEq, Repr

/-- What a mapped word offset holds: a register, a reserved register, a word of a block memory (with its offset), or
word `w` of a wide register's window (R61). -/
inductive Loc where
  | reg (r : Reg)
  | reserved
  | mem (b : Bank) (off : Nat)
  | wide (r : WideReg) (w : Nat)
  deriving DecidableEq, Repr

/-- The first offset of a block memory (R61). -/
def Bank.base : Bank → Nat
  | .inbuf => 0x1000
  | .outbuf => 0x1800
  | .hbuf => 0x2000
  | .hufFreq => 0x400
  | .hufCode => 0x800
  | .hufClen => 0xC00
  | .hufNode => 0x4000
  | .arcFreq => 0x5000
  | .arcCum => 0x5400

/-- The length of a block memory's window in bytes (R61). -/
def Bank.size : Bank → Nat
  | .inbuf => 0x100
  | .outbuf => 0x800
  | .hbuf => 0x100
  | .hufFreq => 0x400
  | .hufCode => 0x400
  | .hufClen => 0x400
  | .hufNode => 0x1000
  | .arcFreq => 0x400
  | .arcCum => 0x400

/-- The first offset of a wide register's window of 128 words (R41, R61). -/
def WideReg.base : WideReg → Nat
  | .low => 0x6000
  | .high => 0x6200
  | .scale => 0x6400
  | .mid => 0x6600

/-- The nine block memories, in the order of their windows. -/
def allBanks : List Bank :=
  [.hufFreq, .hufCode, .hufClen, .inbuf, .outbuf, .hbuf, .hufNode, .arcFreq, .arcCum]

/-- The block memory whose window holds the byte offset `a`. -/
def bankAt (a : Nat) : Option Bank :=
  allBanks.find? fun b => b.base ≤ a && a < b.base + b.size

/-- The bits of the byte at offset `a` of bank `b` that are stored; every other bit reads 0 (R42, R43, R44, R46). -/
def byteMask (b : Bank) (a : Nat) : Byte :=
  if b.base ≤ a ∧ a < b.base + b.size then
    match b with
    | .inbuf | .outbuf | .hbuf | .hufCode => 0xFF
    | .hufFreq | .arcFreq | .arcCum => if a % 4 < 2 then 0xFF else 0x00
    | .hufClen => if a % 4 = 0 then 0x3F else 0x00
    | .hufNode =>
      match a % 8 with
      | 3 => 0x80
      | 5 => 0x01
      | 7 => 0x01
      | _ => 0xFF
  else 0

/-- The registers of the register page in the order of their offsets 0x000, 0x004, ..., 0x038 (R61). -/
def regPage : List Reg :=
  [.id, .param, .ctrl, .status, .cmd, .inLen, .outLen, .hufStage, .hufNLeaf, .hufNNode, .hufRoot, .hufBitLen,
   .arcState, .arcN, .arcPos]

/-- The wide register whose window of 128 words holds the byte offset `a` (R41, R61). -/
def wideAt (a : Nat) : Option WideReg :=
  [WideReg.low, .high, .scale, .mid].find? fun r => r.base ≤ a && a < r.base + 0x200

/-- What the word at offset `off` holds, or `none` where the offset is unmapped (R61, R65). The argument is a multiple
of 4. -/
def locate (off : Nat) : Option Loc :=
  if off < 0x03C then (regPage[off / 4]?).map .reg
  else if off < 0x400 then some .reserved
  else
    match bankAt off with
    | some b => some (.mem b off)
    | none => (wideAt off).map fun r => .wide r ((off - r.base) / 4)

/-- The bus check of an access: 32 bits, word aligned, mapped; anything else is a bus error (R64, R65). -/
def checkAccess (off size : Nat) : Except Fault Loc :=
  if size = 4 ∧ off % 4 = 0 then
    match locate off with
    | some l => .ok l
    | none => .error .busError
  else .error .busError

/-- The result registers and result memories, whose reads while `BUSY = 1` are unspecified (R68). -/
def isResult : Loc → Bool
  | .reg .id | .reg .param | .reg .ctrl | .reg .status | .reg .cmd | .reg .inLen => false
  | .reg .outLen | .reg .hufStage | .reg .hufNLeaf | .reg .hufNNode | .reg .hufRoot | .reg .hufBitLen => true
  | .reg .arcState | .reg .arcN | .reg .arcPos => true
  | .reserved => false
  | .mem .inbuf _ => false
  | .mem .outbuf _ | .mem .hbuf _ | .mem .hufFreq _ | .mem .hufCode _ | .mem .hufClen _ => true
  | .mem .hufNode _ | .mem .arcFreq _ | .mem .arcCum _ => true
  | .wide _ _ => true

/-- The platform address of a block offset: the map is relative to `BLOCK_BASE` (R214). -/
def platformAddress (off : Nat) : Nat := Config.blockBase + off

/-- The block offset of a platform address, `none` below `BLOCK_BASE` (R214). -/
def blockOffset (addr : Nat) : Option Nat :=
  if Config.blockBase ≤ addr then some (addr - Config.blockBase) else none

end Sys2Proof.Machine
end

