-- ==== Sys2Proof/Machine/Ops.lean ====
section
/-! DEFINITION. The named operations over memories and registers: reading and writing bytes and words, command
acceptance (R110), the completion write (R111), compound execution (R118), the reset of registers and memories
(R113, R231 to R233). -/
namespace Sys2Proof.Machine

/-! ## Memories -/

/-- The byte written at offset `a` since reset, if any: the first cell listed for `a`. Written as the list's fold, which
the kernel evaluates fast; `Memory.find_nil` and `Memory.find_cons` are its equations. -/
def Memory.find (a : Nat) (m : Memory) : Option Byte :=
  List.rec none (fun c _ rest => bif Nat.beq c.1 a then some c.2 else rest) m

/-- Write one byte, keeping the offsets rising. -/
def Memory.write (a : Nat) (v : Byte) : Memory → Memory
  | [] => [(a, v)]
  | (k, w) :: t =>
    if a < k then (a, v) :: (k, w) :: t
    else if a = k then (a, v) :: t
    else (k, w) :: Memory.write a v t

/-- The cells of consecutive bytes from offset `a` on, with only the stored bits of each (10_state.md, section 4). -/
def storedCells (b : Bank) : Nat → List Byte → Memory
  | _, [] => []
  | a, v :: vs =>
    if byteMask b a = 0 then storedCells b (a + 1) vs
    else (a, v &&& byteMask b a) :: storedCells b (a + 1) vs

/-- Overwrite a bank from its first offset on with consecutive bytes; later offsets keep what they hold. -/
def Memory.overlay (b : Bank) (bytes : List Byte) (old : Memory) : Memory :=
  storedCells b b.base bytes ++ old.filter fun c => b.base + bytes.length ≤ c.1

/-- The canonical form of a bank: offsets strictly rising, each an offset of the bank that stores bits, no bit set
outside the stored ones. -/
def Memory.WellFormed (b : Bank) (m : Memory) : Bool :=
  decide (m.Pairwise fun c d => c.1 < d.1)
    && m.all fun c => byteMask b c.1 != 0 && c.2 &&& byteMask b c.1 == c.2

/-- The contents of a block memory. -/
def State.bank (s : State) : Bank → Memory
  | .inbuf => s.inbuf
  | .outbuf => s.outbuf
  | .hbuf => s.hbuf
  | .hufFreq => s.hufFreq
  | .hufCode => s.hufCode
  | .hufClen => s.hufClen
  | .hufNode => s.hufNode
  | .arcFreq => s.arcFreq
  | .arcCum => s.arcCum

/-- Replace the contents of a block memory. -/
def State.setBank (b : Bank) (m : Memory) (s : State) : State :=
  match b with
  | .inbuf => { s with inbuf := m }
  | .outbuf => { s with outbuf := m }
  | .hbuf => { s with hbuf := m }
  | .hufFreq => { s with hufFreq := m }
  | .hufCode => { s with hufCode := m }
  | .hufClen => { s with hufClen := m }
  | .hufNode => { s with hufNode := m }
  | .arcFreq => { s with arcFreq := m }
  | .arcCum => { s with arcCum := m }

/-- The byte at offset `a` of a bank: what was written there last, or the draw of the last hardware reset (R232); bits
that are not stored read 0 (10_state.md, section 4). -/
def State.bankByte (s : State) (b : Bank) (a : Nat) : Byte :=
  if byteMask b a = 0 then 0
  else (Memory.find a (s.bank b)).getD (Config.powerOnByte s.resets a) &&& byteMask b a

/-- The byte at block offset `a` of whichever block memory holds it; 0 where none does. -/
def State.byteAt (s : State) (a : Nat) : Byte :=
  match bankAt a with
  | some b => s.bankByte b a
  | none => 0

/-- The word of four bytes, the first in bits [7:0] (R63, R70). -/
def wordOfBytes (b0 b1 b2 b3 : Byte) : Word := b3 ++ b2 ++ b1 ++ b0

/-- The four bytes of a word, bits [7:0] first (R63, R70). -/
def wordBytes (w : Word) : List Byte :=
  [w.extractLsb' 0 8, w.extractLsb' 8 8, w.extractLsb' 16 8, w.extractLsb' 24 8]

/-- The word at offset `a` of a bank, little-endian (R63, R70). -/
def State.bankWord (s : State) (b : Bank) (a : Nat) : Word :=
  wordOfBytes (s.bankByte b a) (s.bankByte b (a + 1)) (s.bankByte b (a + 2)) (s.bankByte b (a + 3))

/-- Write consecutive bytes from a bank's first offset on. -/
def State.fill (b : Bank) (bytes : List Byte) (s : State) : State :=
  s.setBank b (Memory.overlay b bytes (s.bank b))

/-- Write all four bytes of one `INBUF` word (R63). -/
def State.writeInWord (off : Nat) (v : Word) (s : State) : State :=
  { s with
    inbuf := Memory.write (off + 3) (v.extractLsb' 24 8) (Memory.write (off + 2) (v.extractLsb' 16 8)
      (Memory.write (off + 1) (v.extractLsb' 8 8) (Memory.write off (v.extractLsb' 0 8) s.inbuf))) }

/-! ## Command acceptance and completion -/

/-- What `Execute` returns: the result code, and the state with the command's changes applied (R111). -/
structure Result where
  code : ErrCode
  state : State
  deriving DecidableEq, Repr

/-- Command acceptance while `BUSY = 0` (R110). It does not decode the word and changes no engine state. The completion
is postponed by a free, finite number of steps, which may depend on the word and on all of `s` (R240; log entry 3). The
counter of draws goes up, so that no two acceptances see the same state. -/
def State.accept (w : Word) (s : State) : State :=
  { s with
    cmd := w, busy := true, done := false, err := .ok,
    latency := Config.cmdLatency w s, draws := s.draws + 1 }

/-- The completion write (R111, R202): the ONE way a command reports its result or its error. -/
def complete (r : Result) : State :=
  { r.state with busy := false, done := true, err := r.code }

/-- An error of a primitive command: the code, with no other change (R203). -/
def fail (code : ErrCode) (s : State) : Result := ⟨code, s⟩

/-- Success: the new state with code `OK`. -/
def succeed (s : State) : Result := ⟨.ok, s⟩

/-- `ExecuteCompound` (R118): run the primitives in order; stop at the first code other than `OK`, keeping the effects
of the primitives before it. -/
def compound : List (State → Result) → State → Result
  | [], s => succeed s
  | p :: ps, s =>
    let r := p s
    if r.code = .ok then compound ps r.state else r

/-- The pending command: while `BUSY = 1`, the word accepted last, equal to `CMD` (R26, R45). -/
def State.pending (s : State) : Option Word := if s.busy then some s.cmd else none

/-! ## Reset -/

/-- What `SRESET` does to the engine registers (R113); memories, `CTRL`, `WOB` and `IN_LEN` are kept. -/
def State.clearEngines (s : State) : State :=
  { s with
    outLen := 0,
    hufStage := .none, hufNLeaf := 0, hufNNode := 0, hufRoot := 0, hufBitLen := 0,
    arcState := .idle, arcN := 0, arcPos := 0,
    arcLow := 0, arcHigh := 0, arcScale := 0, arcMid := 0 }

/-- Hardware reset of registers and memories (R231, R232): every register takes its reset value, every memory bit a
fresh draw. The reset input's level and the host are not the block's and stay. -/
def State.hardReset (s : State) : State :=
  { State.reset with
    inReset := s.inReset, draws := s.draws, resets := s.resets + 1,
    host := s.host, hostPc := s.hostPc, responses := s.responses }

/-- A change of the level of `RST` to `asserted` (R230, R233): asserting it abandons the pending command and resets the
registers (DEDUCED, log entry 8); releasing it leaves the state of R231 and R232; each draws the memories anew (DESIGN
CHOICE, log entry 13). -/
def State.changeRst (asserted : Bool) (s : State) : State :=
  { s.hardReset with inReset := asserted }

/-- The level of `RST` from now on. R230 and R233 speak of its assertion and its release, which change the level. DESIGN
CHOICE (log entry 19): the level it already has is no such event and changes nothing, neither `WOB` (R28) nor a pending
command. -/
def State.setRst (asserted : Bool) (s : State) : State :=
  if asserted = s.inReset then s else s.changeRst asserted

end Sys2Proof.Machine
end

