-- ==== Sys2Proof/Machine/Flags.lean ====
section
/-! DEFINITION. The status word, its write-1-to-clear bits and the interrupt line (R24 to R29, R47, R207, R208). -/
namespace Sys2Proof.Machine

/-- The number of a result code (R200). -/
def ErrCode.toNat : ErrCode → Nat
  | .ok => 0
  | .eIllegal => 1
  | .eLen => 2
  | .eSeq => 3
  | .eAlphabet => 4
  | .eOverflow => 5
  | .eCodelen => 6

/-- The number of a Huffman stage (R33). -/
def HufStage.toNat : HufStage → Nat
  | .none => 0
  | .freq => 1
  | .tree => 2
  | .codes => 3
  | .enc => 4

/-- The number of an arithmetic coder state (R38). -/
def ArcState.toNat : ArcState → Nat
  | .idle => 0
  | .active => 1
  | .final => 2

/-- The word `STATUS` reads: `BUSY` [0], `DONE` [1], `WOB` [2], `ERR` [7:4], other bits 0 (R25). -/
def State.statusWord (s : State) : Word :=
  (0 : BitVec 24) ++ BitVec.ofNat 4 s.err.toNat ++ (0 : BitVec 1)
    ++ BitVec.ofBool s.wob ++ BitVec.ofBool s.done ++ BitVec.ofBool s.busy

/-- The word `CTRL` reads: `IE` [0], other bits 0 (R24). -/
def State.ctrlWord (s : State) : Word := (0 : BitVec 31) ++ BitVec.ofBool s.ie

/-- The level of the `IRQ` output: `CTRL.IE AND STATUS.DONE` (R47, R207). -/
def State.irq (s : State) : Bool := s.ie && s.done

/-- A host write of `v` to `STATUS`: bit 1 clears `DONE`, bit 2 clears `WOB`, nothing else changes (R25). -/
def State.writeStatus (v : Word) (s : State) : State :=
  { s with done := s.done && !v.getLsbD 1, wob := s.wob && !v.getLsbD 2 }

/-- A host write of `v` to `CTRL`: only bit 0 is kept (R24). -/
def State.writeCtrl (v : Word) (s : State) : State := { s with ie := v.getLsbD 0 }

/-- A write ignored because `BUSY = 1` sets the sticky `WOB` (R28, R69, R206). -/
def State.setWob (s : State) : State := { s with wob := true }

/-- A host write of `v` to `CMD` (R30, R110). -/
def State.writeCmd (v : Word) (s : State) : State := if s.busy then s.setWob else s.accept v

/-- A host write of `v` to `IN_LEN`: bits [15:0] are stored as written (R31). -/
def State.writeInLen (v : Word) (s : State) : State :=
  if s.busy then s.setWob else { s with inLen := v.setWidth 16 }

/-- A host write of `v` to the `INBUF` word at `off` (R63, R69). -/
def State.writeInbuf (off : Nat) (v : Word) (s : State) : State :=
  if s.busy then s.setWob else s.writeInWord off v

end Sys2Proof.Machine
end

