-- ==== Sys2Proof/Machine/Operands.lean ====
section
/-! DEFINITION. The operands of the commands (R96): the input sequence and the entries of the tables, and the words and
bytes the tables are written with. -/
namespace Sys2Proof.Machine

/-- `n = IN_LEN` as a number (R10, R96). -/
def State.inputLength (s : State) : Nat := s.inLen.toNat

/-- `INBUF[i]` (R42). -/
def State.inByte (s : State) (i : Nat) : Byte := s.bankByte .inbuf (0x1000 + i)

/-- The input sequence `s[0], ..., s[n-1]` (R10, R13). -/
def State.input (s : State) : List Byte := (List.range s.inputLength).map s.inByte

/-- `OUTBUF[b]` (R42). -/
def State.outByte (s : State) (b : Nat) : Byte := s.bankByte .outbuf (0x1800 + b)

/-- `HBUF[b]` (R42). -/
def State.hbufByte (s : State) (b : Nat) : Byte := s.bankByte .hbuf (0x2000 + b)

/-- Bit `j` of the Huffman bitstring: bit `7 - (j mod 8)` of `HBUF[j div 8]` (R71). -/
def State.hbufBit (s : State) (j : Nat) : Bool := (s.hbufByte (j / 8)).getLsbD (7 - j % 8)

/-- `HUF_FREQ[c]` (R43). -/
def State.hufFreqAt (s : State) (c : Nat) : BitVec 16 := (s.bankWord .hufFreq (0x400 + 4 * c)).setWidth 16

/-- `HUF_CODE[c]` (R43). -/
def State.hufCodeAt (s : State) (c : Nat) : Word := s.bankWord .hufCode (0x800 + 4 * c)

/-- `HUF_CLEN[c]` (R43). -/
def State.hufClenAt (s : State) (c : Nat) : BitVec 6 := (s.bankWord .hufClen (0xC00 + 4 * c)).setWidth 6

/-- `ARC_FREQ[c]` (R46). -/
def State.arcFreqAt (s : State) (c : Nat) : BitVec 16 := (s.bankWord .arcFreq (0x5000 + 4 * c)).setWidth 16

/-- `ARC_CUM[c]` (R46). -/
def State.arcCumAt (s : State) (c : Nat) : BitVec 16 := (s.bankWord .arcCum (0x5400 + 4 * c)).setWidth 16

/-- One entry of `HUF_NODE` (R44). -/
structure Node where
  leaf  : Bool
  sym   : Byte
  freq  : BitVec 16
  left  : BitVec 9
  right : BitVec 9
  deriving DecidableEq, Repr

/-- Word 0 of a node entry: `FREQ` [15:0], `SYM` [23:16], `LEAF` [31] (R44). -/
def Node.word0 (n : Node) : Word := BitVec.ofBool n.leaf ++ (0 : BitVec 7) ++ n.sym ++ n.freq

/-- Word 1 of a node entry: `LEFT` [8:0], `RIGHT` [24:16] (R44). -/
def Node.word1 (n : Node) : Word := (0 : BitVec 7) ++ n.right ++ (0 : BitVec 7) ++ n.left

/-- The node entry that two words hold (R44). -/
def nodeOfWords (w0 w1 : Word) : Node where
  leaf := w0.getLsbD 31
  sym := w0.extractLsb' 16 8
  freq := w0.extractLsb' 0 16
  left := w1.extractLsb' 0 9
  right := w1.extractLsb' 16 9

/-- `HUF_NODE[i]` (R44, R73). -/
def State.hufNodeAt (s : State) (i : Nat) : Node :=
  nodeOfWords (s.bankWord .hufNode (0x4000 + 8 * i)) (s.bankWord .hufNode (0x4000 + 8 * i + 4))

/-- The eight bytes of a node entry (R44, R73). -/
def nodeBytes (n : Node) : List Byte := wordBytes n.word0 ++ wordBytes n.word1

/-- The bytes of a table of words, one word per entry (R61). -/
def tableBytes (ws : List Word) : List Byte := ws.flatMap wordBytes

/-- The bytes of a table of numbers, one word per entry (R61). -/
def numberBytes (ns : List Nat) : List Byte := tableBytes (ns.map fun n => BitVec.ofNat 32 n)

/-- `count(s, c)` for `c = 0 .. 255` (R10, R141, R172). -/
def symbolCounts (input : List Byte) : List Nat :=
  (List.range Config.nSym).map fun c => input.count (BitVec.ofNat 8 c)

/-- Pad a byte sequence with 0x00 to `n` bytes. -/
def padTo (n : Nat) (bytes : List Byte) : List Byte := bytes ++ List.replicate (n - bytes.length) 0

end Sys2Proof.Machine
end

