-- ==== Sys2Proof/Machine/Bus.lean ====
section
/-! DEFINITION. Bus accesses (20_memory.md) and the host that performs them (R15, R98 to R100), and the reset input. -/
namespace Sys2Proof.Machine

/-! ## Reads -/

/-- The word a register reads (R22 to R40); bits a register does not hold read 0. -/
def State.regWord (s : State) : Reg → Word
  | .id => Config.idWord
  | .param => BitVec.ofNat 8 Config.arcWords ++ BitVec.ofNat 8 Config.maxCodeLen ++ BitVec.ofNat 16 Config.maxLen
  | .ctrl => s.ctrlWord
  | .status => s.statusWord
  | .cmd => s.cmd
  | .inLen => s.inLen.setWidth 32
  | .outLen => s.outLen.setWidth 32
  | .hufStage => BitVec.ofNat 32 s.hufStage.toNat
  | .hufNLeaf => s.hufNLeaf.setWidth 32
  | .hufNNode => s.hufNNode.setWidth 32
  | .hufRoot => s.hufRoot.setWidth 32
  | .hufBitLen => s.hufBitLen.setWidth 32
  | .arcState => BitVec.ofNat 32 s.arcState.toNat
  | .arcN => s.arcN.setWidth 32
  | .arcPos => s.arcPos.setWidth 32

/-- The contents of a wide register (R41). -/
def State.wideReg (s : State) : WideReg → Wide
  | .low => s.arcLow
  | .high => s.arcHigh
  | .scale => s.arcScale
  | .mid => s.arcMid

/-- Word `w` of a wide register's window: bits [32w+31 : 32w], and 0 from word 65 on (R41, R72). -/
def wideWord (v : Wide) (w : Nat) : Word := if w < Config.arcWords then v.extractLsb' (32 * w) 32 else 0

/-- The current value of a location. -/
def State.locWord (s : State) : Loc → Word
  | .reg r => s.regWord r
  | .reserved => 0
  | .mem b off => s.bankWord b off
  | .wide r w => wideWord (s.wideReg r) w

/-- `BusRead` (R9, R64 to R66, R68): a value, or a fault of the access. While `BUSY = 1` a result location answers a fresh
draw (log entry 2); the counter of draws is the model's, so the read changes no state of the block (R75). -/
def busRead (off size : Nat) (s : State) : Response × State :=
  match checkAccess off size with
  | .error f => (.fault f, s)
  | .ok l =>
    if s.busy && isResult l then (.data (Config.busyReadWord s.draws), { s with draws := s.draws + 1 })
    else (.data (s.locWord l), s)

/-! ## Writes -/

/-- The effect of a host write to a register (R24, R25, R30, R31, R67). -/
def State.writeReg (v : Word) (s : State) : Reg → State
  | .ctrl => s.writeCtrl v
  | .status => s.writeStatus v
  | .cmd => s.writeCmd v
  | .inLen => s.writeInLen v
  | .id | .param | .outLen | .hufStage | .hufNLeaf | .hufNNode | .hufRoot | .hufBitLen => s
  | .arcState | .arcN | .arcPos => s

/-- The effect of a host write to a location: only `CTRL`, `STATUS`, `CMD`, `IN_LEN` and `INBUF` can be written; every
other location ignores it (R62, R67, R69). -/
def State.writeLoc (v : Word) (s : State) : Loc → State
  | .reg r => s.writeReg v r
  | .reserved => s
  | .mem .inbuf off => s.writeInbuf off v
  | .mem .outbuf _ | .mem .hbuf _ | .mem .hufFreq _ | .mem .hufCode _ | .mem .hufClen _ => s
  | .mem .hufNode _ | .mem .arcFreq _ | .mem .arcCum _ => s
  | .wide _ _ => s

/-- `BusWrite` (R9, R64 to R67, R69): a normal response, or a fault of the access with no change of state. -/
def busWrite (off size : Nat) (v : Word) (s : State) : Response × State :=
  match checkAccess off size with
  | .error f => (.fault f, s)
  | .ok l => (.ack, s.writeLoc v l)

/-! ## The host -/

/-- Record the response of an access and move the host to operation `pc`. -/
def State.answer (pc : Nat) (r : Response) (s : State) : State :=
  { s with responses := s.responses ++ [r], hostPc := pc }

/-- A branch whose read got no value: the host receives the answer and goes on at a free index of its program, and the
block does not change (R66, R205, U18; DESIGN CHOICE, log entry 6). -/
def State.branchUndecided (r : Response) (s : State) : State :=
  { s with draws := s.draws + 1 }.answer (Config.hostAfterBusError s.draws) r

/-- Perform one host operation (R98, R230). -/
def hostOp (op : HostOp) (s : State) : Host.Outcome State Fault Refusal :=
  match op with
  | .rst level => .next { s.setRst level with hostPc := s.hostPc + 1 }
  | .write off size v =>
    if s.inReset then .fault .accessInReset
    else
      let (r, t) := busWrite off size v s
      .next (t.answer (s.hostPc + 1) r)
  | .read off size =>
    if s.inReset then .fault .accessInReset
    else
      let (r, t) := busRead off size s
      .next (t.answer (s.hostPc + 1) r)
  | .bnz off mask target =>
    if s.inReset then .fault .accessInReset
    else
      let (r, t) := busRead off 4 s
      match r with
      | .data v => .next (t.answer (if v &&& mask = 0 then s.hostPc + 1 else target) r)
      | .ack => .next (s.branchUndecided r)
      | .fault _ => .next (s.branchUndecided r)

/-- The host's turn: its next operation, or none (the block stays idle, R217). -/
def hostTurn (s : State) : Host.Outcome State Fault Refusal :=
  match s.host[s.hostPc]? with
  | some op => hostOp op s
  | none => .next s

/-- One step nearer to the completion of the pending command (R240). -/
def State.tick (s : State) : State := { s with latency := s.latency - 1 }

/-- The completion step of the pending command is due: a command is pending, its latency has passed, and `RST` is not
asserted (R111, R230, R240). -/
def State.completionDue (s : State) : Bool := !s.inReset && s.busy && s.latency == 0

/-! ## Host notation (R98, R99) -/

/-- `wr OFF, VAL` (R98). -/
def hostWr (off : Nat) (v : Word) : HostOp := .write off 4 v
/-- `rd OFF` (R98). -/
def hostRd (off : Nat) : HostOp := .read off 4
/-- `cmd VAL`, or `cmd MNEM` with the command's word (R99). -/
def hostCmd (w : Word) : HostOp := hostWr 0x010 w
/-- `wait` at index `here` of the program: poll until `STATUS.BUSY = 0` (R99). -/
def hostWait (here : Nat) : HostOp := .bnz 0x00C 0x1 here
/-- `ack`: clear `DONE` and `WOB` (R99). -/
def hostAck : HostOp := hostWr 0x00C 0x6

/-- The words of a byte sequence, four bytes each, bytes past its end 0x00 (R99). -/
def loadWords : (n : Nat) → List Byte → List Word
  | 0, _ => []
  | n + 1, bytes =>
    wordOfBytes (bytes[0]?.getD 0) (bytes[1]?.getD 0) (bytes[2]?.getD 0) (bytes[3]?.getD 0)
      :: loadWords n (bytes.drop 4)

/-- `load "..."`: write the bytes to `INBUF` and their number to `IN_LEN` (R99). -/
def hostLoad (bytes : List Byte) : List HostOp :=
  ((loadWords ((bytes.length + 3) / 4) bytes).zipIdx.map fun p => hostWr (0x1000 + 4 * p.2) p.1)
    ++ [hostWr 0x014 (BitVec.ofNat 32 bytes.length)]

/-- `run VAL` at index `here` of the program: `cmd VAL`, then `wait` (R99). -/
def hostRun (here : Nat) (w : Word) : List HostOp := [hostCmd w, hostWait (here + 1)]

end Sys2Proof.Machine
end

