-- ==== Sys2Proof/Machine/Arith.lean ====
section
/-! DEFINITION. The arithmetic coder (43_arith.md). Quantities are computed as exact natural numbers and stored in the
2080-bit registers (R8, R11, R171). -/
namespace Sys2Proof.Machine

/-- A number as the contents of a wide register (R41, R171). -/
def wideOf (n : Nat) : Wide := BitVec.ofNat 2080 n

/-- The running sums before each element, starting from `acc` (R172, R173). -/
def prefixSums : (acc : Nat) → List Nat → List Nat
  | _, [] => []
  | acc, n :: ns => acc :: prefixSums (acc + n) ns

/-- `Execute(ARC_INIT)` (R172). -/
def runArcInit (s : State) : Result :=
  if Config.maxLen < s.inputLength then fail .eLen s
  else
    let counts := symbolCounts s.input
    succeed { (s.fill .arcFreq (numberBytes counts)).fill .arcCum (numberBytes (prefixSums 0 counts)) with
      arcN := s.inLen, arcPos := 0,
      arcLow := wideOf 0, arcHigh := wideOf 1, arcScale := wideOf 1, arcMid := wideOf 0,
      arcState := .active }

/-- `ARC_INIT` (R172). -/
def execArcInit (s : State) : Host.Outcome State Fault Refusal := .next (complete (runArcInit s))

/-- The state update of R174 for symbol `c`, without its checks: both bounds use the old `ARC_LOW` and `ARC_HIGH`. -/
def State.narrow (s : State) (c : Byte) : State :=
  let n := s.arcN.toNat
  let width := s.arcHigh.toNat - s.arcLow.toNat
  let base := s.arcLow.toNat * n
  let cum := (s.arcCumAt c.toNat).toNat
  let freq := (s.arcFreqAt c.toNat).toNat
  { s with
    arcLow := wideOf (base + width * cum),
    arcHigh := wideOf (base + width * (cum + freq)),
    arcScale := wideOf (s.arcScale.toNat * n),
    arcPos := s.arcPos + 1 }

/-- `Execute(ARC_STEP)` (R174). -/
def runArcStep (s : State) : Result :=
  if s.arcState = .idle then fail .eSeq s
  else if s.arcN.toNat ≤ s.arcPos.toNat then fail .eSeq s
  else
    let c := s.inByte s.arcPos.toNat
    if s.arcFreqAt c.toNat = 0 then fail .eAlphabet s
    else succeed (s.narrow c)

/-- `ARC_STEP` (R174). -/
def execArcStep (s : State) : Host.Outcome State Fault Refusal := .next (complete (runArcStep s))

/-- The symbols not narrowed yet: `INBUF[ARC_POS .. ARC_N - 1]` (R175). -/
def State.remaining (s : State) : List Byte :=
  (List.range' s.arcPos.toNat (s.arcN.toNat - s.arcPos.toNat)).map s.inByte

/-- `Execute(ARC_RUN)` (R175): every remaining symbol is checked before the first is narrowed. -/
def runArcRun (s : State) : Result :=
  if s.arcState = .idle then fail .eSeq s
  else if s.remaining.any fun c => s.arcFreqAt c.toNat == 0 then fail .eAlphabet s
  else succeed (s.remaining.foldl State.narrow s)

/-- `ARC_RUN` (R175). -/
def execArcRun (s : State) : Host.Outcome State Fault Refusal := .next (complete (runArcRun s))

/-- `Execute(ARC_FINAL)` (R176). -/
def runArcFinal (s : State) : Result :=
  if s.arcState = .idle ∨ s.arcPos ≠ s.arcN then fail .eSeq s
  else succeed { s with arcMid := wideOf (s.arcLow.toNat + s.arcHigh.toNat), arcState := .final }

/-- `ARC_FINAL` (R176). -/
def execArcFinal (s : State) : Host.Outcome State Fault Refusal := .next (complete (runArcFinal s))

/-- `Execute(ARC_ALL)` (R177). -/
def runArcAll (s : State) : Result := compound [runArcInit, runArcRun, runArcFinal] s

/-- `ARC_ALL`: the whole arithmetic encode (R177). -/
def execArcAll (s : State) : Host.Outcome State Fault Refusal := .next (complete (runArcAll s))

end Sys2Proof.Machine
end

