-- ==== Sys2Proof/Machine/Control.lean ====
section
/-! DEFINITION. `NOP`, `SRESET` and illegal command words (40_control.md). -/
namespace Sys2Proof.Machine

/-- `Execute(NOP)` (R112). -/
def runNop (s : State) : Result := succeed s

/-- `NOP`: the completion write only (R112). -/
def execNop (s : State) : Host.Outcome State Fault Refusal := .next (complete (runNop s))

/-- `Execute(SRESET)` (R113). -/
def runSreset (s : State) : Result := succeed s.clearEngines

/-- `SRESET`: soft reset of the engines (R113). -/
def execSreset (s : State) : Host.Outcome State Fault Refusal := .next (complete (runSreset s))

/-- `Execute` of a word that decodes to no command (R92, R94, R114). -/
def runIllegal (s : State) : Result := fail .eIllegal s

end Sys2Proof.Machine
end

