-- ==== Sys2Proof/Machine/Huffman.lean ====
section
/-! DEFINITION. The Huffman tree builder and prefix-code encoder (42_huffman.md). -/
namespace Sys2Proof.Machine

/-! ## `HUF_FREQ` -/

/-- `Execute(HUF_FREQ)` (R141). -/
def runHufFreq (s : State) : Result :=
  if Config.maxLen < s.inputLength then fail .eLen s
  else
    succeed { s.fill .hufFreq (numberBytes (symbolCounts s.input)) with
      hufStage := .freq, hufNLeaf := 0, hufNNode := 0, hufRoot := 0, hufBitLen := 0 }

/-- `HUF_FREQ` (R141). -/
def execHufFreq (s : State) : Host.Outcome State Fault Refusal := .next (complete (runHufFreq s))

/-! ## `HUF_BUILD` -/

/-- The leaf of symbol `c` with count `f` (R44, R145). -/
def leafNode (c : Nat) (f : BitVec 16) : Node := ⟨true, BitVec.ofNat 8 c, f, 0, 0⟩

/-- The leaves, in ascending order of symbol value, of the symbols with a non-zero count (R142, R145). -/
def leavesOf (freq : Nat → BitVec 16) : List Node :=
  (List.range Config.nSym).filterMap fun c => if 0 < (freq c).toNat then some (leafNode c (freq c)) else none

/-- The merge order: first by `FREQ`, then by node index (R143). -/
def MergeKey.before (a b : MergeKey) : Bool :=
  a.freq.toNat < b.freq.toNat || (a.freq.toNat == b.freq.toNat && a.index < b.index)

/-- The smaller of two keys. -/
def MergeKey.least (a b : MergeKey) : MergeKey := if b.before a then b else a

/-- Take the element with the smallest key out of the active set (R143). -/
def extractMin : List MergeKey → Option (MergeKey × List MergeKey)
  | [] => none
  | k :: ks =>
    let m := ks.foldl MergeKey.least k
    some (m, (k :: ks).erase m)

/-- The internal node over the first and the second node extracted: the first is `LEFT`, the second `RIGHT` (R144). -/
def parentNode (a b : MergeKey) : Node :=
  ⟨false, 0, a.freq + b.freq, BitVec.ofNat 9 a.index, BitVec.ofNat 9 b.index⟩

/-- The merge loop of R145 over the active set and the nodes made so far; it runs while two nodes are active, and
`fuel` at least their number is enough. The new node takes the next free index. -/
def mergeLoop : (fuel : Nat) → List MergeKey → List Node → List Node
  | 0, _, nodes => nodes
  | fuel + 1, act, nodes =>
    match extractMin act with
    | none => nodes
    | some (a, act1) =>
      match extractMin act1 with
      | none => nodes
      | some (b, act2) =>
        mergeLoop fuel (act2 ++ [⟨a.freq + b.freq, nodes.length⟩]) (nodes ++ [parentNode a b])

/-- The active set at the start: every leaf with its index (R145). -/
def seedKeys (leaves : List Node) : List MergeKey := leaves.zipIdx.map fun p => ⟨p.1.freq, p.2⟩

/-- The node table that `HUF_BUILD` makes from a frequency table: the leaves, then the internal nodes (R145). -/
def huffmanNodes (freq : Nat → BitVec 16) : List Node :=
  let leaves := leavesOf freq
  mergeLoop leaves.length (seedKeys leaves) leaves

/-- `Execute(HUF_BUILD)` (R145, R146). The `active` set is empty again at the end (R45). -/
def runHufBuild (s : State) : Result :=
  if s.hufStage.toNat < 1 then fail .eSeq s
  else
    let l := (leavesOf s.hufFreqAt).length
    let nodes := huffmanNodes s.hufFreqAt
    succeed { s.fill .hufNode (nodes.flatMap nodeBytes) with
      active := [],
      hufNLeaf := BitVec.ofNat 9 l,
      hufNNode := if l = 0 then 0 else BitVec.ofNat 10 (2 * l - 1),
      hufRoot := if l = 0 then 0 else BitVec.ofNat 9 (2 * l - 2),
      hufStage := .tree, hufBitLen := 0 }

/-- `HUF_BUILD` (R145). -/
def execHufBuild (s : State) : Host.Outcome State Fault Refusal := .next (complete (runHufBuild s))

/-! ## `HUF_CODES` -/

/-- `Assign(i, p)` of R147: the code of every leaf below node `i`, given the path `p` to it; left is 0 (`false`), right
is 1 (`true`). `fuel` bounds the depth (log entry 10). -/
def assignCodes (node : Nat → Node) : (fuel i : Nat) → List Bool → List (Byte × List Bool)
  | 0, _, _ => []
  | fuel + 1, i, p =>
    if (node i).leaf then [((node i).sym, p)]
    else
      assignCodes node fuel (node i).left.toNat (p ++ [false])
        ++ assignCodes node fuel (node i).right.toNat (p ++ [true])

/-- The assignments of R147 and R148: one distinct symbol gets the code `0`, more get their root-to-leaf paths. -/
def codeAssignments (leafCount root : Nat) (node : Nat → Node) : List (Byte × List Bool) :=
  if leafCount = 0 then []
  else if leafCount = 1 then [((node 0).sym, [false])]
  else assignCodes node (Config.nodeMax + 1) root []

/-- `code[c]`: the last code assigned to `c`, `none` if there is none (R147). -/
def codeFor (assigned : List (Byte × List Bool)) (c : Byte) : Option (List Bool) := assigned.reverse.lookup c

/-- A code right-aligned in a word: the first bit is the most significant (R43, R147). -/
def codeValue (code : List Bool) : Nat := code.foldl (fun acc b => 2 * acc + b.toNat) 0

/-- `code[c]` for `c = 0 .. 255`. -/
def codeTable (assigned : List (Byte × List Bool)) : List (Option (List Bool)) :=
  (List.range Config.nSym).map fun c => codeFor assigned (BitVec.ofNat 8 c)

/-- The code length that `HUF_CLEN` holds; 0 for no code (R43, R147). -/
def codeLength (code : Option (List Bool)) : Nat := (code.map List.length).getD 0

/-- The code value that `HUF_CODE` holds; 0 for no code (R43, R147). -/
def codeWord (code : Option (List Bool)) : Nat := (code.map codeValue).getD 0

/-- The code table that a state's node memory gives (R147). -/
def State.codesOfTree (s : State) : List (Option (List Bool)) :=
  codeTable (codeAssignments s.hufNLeaf.toNat s.hufRoot.toNat s.hufNodeAt)

/-- `Execute(HUF_CODES)` (R147, R148, R151). -/
def runHufCodes (s : State) : Result :=
  if s.hufStage.toNat < 2 then fail .eSeq s
  else
    let codes := s.codesOfTree
    if codes.any fun c => Config.maxCodeLen < codeLength c then fail .eCodelen s
    else
      succeed { (s.fill .hufClen (numberBytes (codes.map codeLength))).fill .hufCode
          (numberBytes (codes.map codeWord)) with
        hufStage := .codes, hufBitLen := 0 }

/-- `HUF_CODES` (R147). -/
def execHufCodes (s : State) : Host.Outcome State Fault Refusal := .next (complete (runHufCodes s))

/-! ## `HUF_ENC` -/

/-- `code(c)`: bits `HUF_CLEN[c] - 1` down to 0 of `HUF_CODE[c]`, in emission order (R149). -/
def State.codeBits (s : State) (c : Byte) : List Bool :=
  let l := (s.hufClenAt c.toNat).toNat
  (List.range l).map fun j => (s.hufCodeAt c.toNat).getLsbD (l - 1 - j)

/-- `T`: the sum of the code lengths of the input symbols (R149). -/
def State.encodedLength (s : State) : Nat := (s.input.map fun c => (s.hufClenAt c.toNat).toNat).sum

/-- The bitstring: the concatenated codes of the input symbols (R149). -/
def State.encodedBits (s : State) : List Bool := s.input.flatMap s.codeBits

/-- The byte whose bit 7 is the first of eight bits; bits past the end are 0 (R71, R149). -/
def packByte (bits : List Bool) : Byte :=
  BitVec.ofNat 8 (((List.range 8).map fun i => (bits[i]?.getD false).toNat).foldl (fun acc b => 2 * acc + b) 0)

/-- `n` bytes holding a bitstring, most significant bit first, with 0 bits after its end (R71, R149). -/
def packBits : (n : Nat) → List Bool → List Byte
  | 0, _ => []
  | n + 1, bits => packByte (bits.take 8) :: packBits n (bits.drop 8)

/-- `Execute(HUF_ENC)` (R149); the checks are made in the order of R204. -/
def runHufEnc (s : State) : Result :=
  if s.hufStage.toNat < 3 then fail .eSeq s
  else if Config.maxLen < s.inputLength then fail .eLen s
  else if s.input.any fun c => s.hufClenAt c.toNat == 0 then fail .eAlphabet s
  else if Config.hbufBits < s.encodedLength then fail .eOverflow s
  else
    succeed { s.fill .hbuf (packBits Config.hbufBytes s.encodedBits) with
      hufBitLen := BitVec.ofNat 16 s.encodedLength, hufStage := .enc }

/-- `HUF_ENC` (R149). -/
def execHufEnc (s : State) : Host.Outcome State Fault Refusal := .next (complete (runHufEnc s))

/-! ## `HUF_ALL` -/

/-- `Execute(HUF_ALL)` (R152). -/
def runHufAll (s : State) : Result := compound [runHufFreq, runHufBuild, runHufCodes, runHufEnc] s

/-- `HUF_ALL`: the whole Huffman encode (R152). -/
def execHufAll (s : State) : Host.Outcome State Fault Refusal := .next (complete (runHufAll s))

end Sys2Proof.Machine
end

