-- ==== Sys2Proof/Machine/Rle.lean ====
section
/-! DEFINITION. The run-length encoder (41_rle.md). -/
namespace Sys2Proof.Machine

/-- A token of the RLE output (R123). -/
inductive Token where
  | run (count : Nat) (sym : Byte)
  | literal (syms : List Byte)
  deriving DecidableEq, Repr

/-- The digits of `k` before `acc`, most significant first; `fuel` bounds their number. -/
def decDigits : (fuel k : Nat) → List Byte → List Byte
  | 0, _, acc => acc
  | fuel + 1, k, acc =>
    let acc := BitVec.ofNat 8 (0x30 + k % 10) :: acc
    if k / 10 = 0 then acc else decDigits fuel (k / 10) acc

/-- `dec(k)`: the shortest ASCII decimal spelling of `k` (R10). -/
def dec (k : Nat) : List Byte := decDigits (k + 1) k []

/-- The number of leading symbols of the sequence that equal `c`. -/
def leadingEqual (c : Byte) : List Byte → Nat
  | [] => 0
  | d :: t => if d = c then leadingEqual c t + 1 else 0

/-- The length of the literal segment at the head of the sequence, at most `cap` symbols: each symbol differs from its
successor, and the last symbol of the input counts as different (R122). -/
def literalLength : (cap : Nat) → List Byte → Nat
  | 0, _ => 0
  | _, [] => 0
  | _ + 1, [_] => 1
  | cap + 1, c :: d :: t => if c = d then 0 else literalLength cap (d :: t) + 1

/-- The tokens of a sequence, in input order (R121, R122, R125). Each token takes at least one symbol, so `fuel` equal
to the sequence's length is enough. -/
def rleTokens : (fuel : Nat) → List Byte → List Token
  | 0, _ => []
  | _, [] => []
  | fuel + 1, c :: t =>
    let r := leadingEqual c t + 1
    if 1 < r then .run r c :: rleTokens fuel ((c :: t).drop r)
    else
      let j := literalLength Config.litCap (c :: t)
      .literal ((c :: t).take j) :: rleTokens fuel ((c :: t).drop j)

/-- The bytes of a token: `<count>*<symbol>` or `-<length>(<symbols>)` (R123). -/
def spellToken : Token → List Byte
  | .run count sym => dec count ++ [0x2A, sym]
  | .literal syms => [0x2D] ++ dec syms.length ++ [0x28] ++ syms ++ [0x29]

/-- The tokens' bytes with `", "` between them (R124). -/
def joinTokens : List Token → List Byte
  | [] => []
  | [t] => spellToken t
  | t :: u :: ts => spellToken t ++ [0x2C, 0x20] ++ joinTokens (u :: ts)

/-- The encoded string of an input sequence (R125, R126). -/
def rleEncode (input : List Byte) : List Byte := joinTokens (rleTokens input.length input)

/-- `Execute(RLE_ENC)` (R125, R129). -/
def runRleEnc (s : State) : Result :=
  if Config.maxLen < s.inputLength then fail .eLen s
  else
    let out := rleEncode s.input
    succeed { s.fill .outbuf (padTo Config.outBytes out) with outLen := BitVec.ofNat 16 out.length }

/-- `RLE_ENC` (R125). -/
def execRleEnc (s : State) : Host.Outcome State Fault Refusal := .next (complete (runRleEnc s))

end Sys2Proof.Machine
end

