-- ==== Sys2Proof/Machine/Dispatch.lean ====
section
/-! DEFINITION. One arm per command: the command's execution and its completion write (R93, R111). -/
namespace Sys2Proof.Machine

def exec (i : Instr) (s : State) : Host.Outcome State Fault Refusal :=
  match i with
  | .nop => Sys2Proof.Machine.execNop s
  | .sreset => Sys2Proof.Machine.execSreset s
  | .rleEnc => Sys2Proof.Machine.execRleEnc s
  | .hufFreq => Sys2Proof.Machine.execHufFreq s
  | .hufBuild => Sys2Proof.Machine.execHufBuild s
  | .hufCodes => Sys2Proof.Machine.execHufCodes s
  | .hufEnc => Sys2Proof.Machine.execHufEnc s
  | .hufAll => Sys2Proof.Machine.execHufAll s
  | .arcInit => Sys2Proof.Machine.execArcInit s
  | .arcStep => Sys2Proof.Machine.execArcStep s
  | .arcRun => Sys2Proof.Machine.execArcRun s
  | .arcFinal => Sys2Proof.Machine.execArcFinal s
  | .arcAll => Sys2Proof.Machine.execArcAll s

end Sys2Proof.Machine
end

