-- ==== Sys2Proof/Machine/Step.lean ====
section
/-! DEFINITION. One step of the machine: the completion of the pending command when it is due (R111), else one operation
of the host (R15). -/
namespace Sys2Proof.Machine

/-- The completion step of the pending command: decode `CMD`, execute, write the completion (R91, R111, R114). -/
def completionStep (s : State) : Host.Outcome State Fault Refusal :=
  match decode s.cmd with
  | .ok i => exec i s
  | .error _ => .next (complete (runIllegal s))

/-- One step: the two agents of R15 act one at a time. -/
def step (s : State) : Host.Outcome State Fault Refusal :=
  if s.completionDue then completionStep s else hostTurn s.tick

/-- `s` with the command word of `nbits` and `w` accepted and its completion due, so that the next step executes it
(log entry 12). -/
def State.withFetchWord (s : State) (nbits w : Nat) : State :=
  { s with
    cmd := tableWord nbits w, busy := true, done := false, err := .ok, latency := 0, inReset := false }

end Sys2Proof.Machine
end

