-- ==== Sys2Proof/Safety.lean ====
section
/-! DEFINITION. The terms claims are stated in: how a command completes, what it leaves unchanged, and the invariants of
the block (R27, R31 to R40, R45, R48, R49). -/
namespace Sys2Proof.Machine

/-! ## Completion and frames -/

/-- `t` is a completed state with result code `code` (R111, R202). -/
def CompletedWith (code : ErrCode) (t : State) : Prop := t.busy = false ∧ t.done = true ∧ t.err = code

/-- `s` with the completion write of `code` and no other change (R111, R203). -/
def State.completedWith (s : State) (code : ErrCode) : State := { s with busy := false, done := true, err := code }

/-- Everything a command never writes (R111): `CTRL`, `CMD`, `IN_LEN`, `INBUF`, `STATUS.WOB`, the reset input, and the
model's own fields (the host, the counters, the latency). -/
structure InterfaceUnchanged (s t : State) : Prop where
  ie : t.ie = s.ie
  wob : t.wob = s.wob
  cmd : t.cmd = s.cmd
  inLen : t.inLen = s.inLen
  inbuf : t.inbuf = s.inbuf
  inReset : t.inReset = s.inReset
  latency : t.latency = s.latency
  draws : t.draws = s.draws
  resets : t.resets = s.resets
  host : t.host = s.host
  hostPc : t.hostPc = s.hostPc
  responses : t.responses = s.responses

/-- The Huffman registers and the hidden `active` set are unchanged. -/
structure HuffmanRegistersUnchanged (s t : State) : Prop where
  stage : t.hufStage = s.hufStage
  nLeaf : t.hufNLeaf = s.hufNLeaf
  nNode : t.hufNNode = s.hufNNode
  root : t.hufRoot = s.hufRoot
  bitLen : t.hufBitLen = s.hufBitLen
  active : t.active = s.active

/-- The arithmetic coder's registers are unchanged. -/
structure ArithRegistersUnchanged (s t : State) : Prop where
  state : t.arcState = s.arcState
  n : t.arcN = s.arcN
  pos : t.arcPos = s.arcPos
  low : t.arcLow = s.arcLow
  high : t.arcHigh = s.arcHigh
  scale : t.arcScale = s.arcScale
  mid : t.arcMid = s.arcMid

/-- Every byte of the block memories reads as before, except those at the offsets `lo ≤ a < hi`. -/
def BytesUnchangedOutside (lo hi : Nat) (s t : State) : Prop :=
  ∀ a, ¬(lo ≤ a ∧ a < hi) → t.byteAt a = s.byteAt a

/-- Every byte of the block memories reads as before. -/
def BytesUnchanged (s t : State) : Prop := ∀ a, t.byteAt a = s.byteAt a

/-! ## Invariants -/

/-- Every block memory is in canonical form. -/
def State.MemoriesWellFormed (s : State) : Prop := ∀ b : Bank, Memory.WellFormed b (s.bank b) = true

/-- The control invariant: `BUSY` and `DONE` never hold together (R27), `ERR` is 0 while a command is in progress (R25),
the `active` set is empty outside a completion (R45), no command is pending while `RST` is asserted (R233), and the
memories are in canonical form. -/
structure State.ControlInv (s : State) : Prop where
  busyDone : ¬(s.busy = true ∧ s.done = true)
  busyErr : s.busy = true → s.err = .ok
  activeEmpty : s.active = []
  resetIdle : s.inReset = true → s.busy = false
  memories : s.MemoriesWellFormed

/-- The ranges of the result registers (R32, R34 to R37, R39, R40). -/
structure State.RangeInv (s : State) : Prop where
  outLen : s.outLen.toNat ≤ 1790
  nLeaf : s.hufNLeaf.toNat ≤ 256
  nNode : s.hufNNode.toNat = 2 * s.hufNLeaf.toNat - 1
  root : s.hufRoot.toNat = 2 * s.hufNLeaf.toNat - 2
  bitLen : s.hufBitLen.toNat ≤ 2048
  arcN : s.arcN.toNat ≤ 256
  arcPos : s.arcPos.toNat ≤ s.arcN.toNat

/-- The sum of `ARC_FREQ[c']` over `c' < c` (R46, R173). -/
def State.arcFreqSum (s : State) (c : Nat) : Nat := ((List.range c).map fun d => (s.arcFreqAt d).toNat).sum

/-- The arithmetic-coder invariant R48, with the tables' law R46, R173: it holds whenever `ARC_STATE ≠ 0`. The symbols
narrowed so far, as `INBUF` held them then, are `ARC_POS` symbols of the model whose frequencies multiply to the width. -/
structure State.ArithLive (s : State) : Prop where
  nBound : s.arcN.toNat ≤ 256
  posBound : s.arcPos.toNat ≤ s.arcN.toNat
  scale : s.arcScale.toNat = s.arcN.toNat ^ s.arcPos.toNat
  lowHigh : s.arcLow.toNat < s.arcHigh.toNat
  highScale : s.arcHigh.toNat ≤ s.arcScale.toNat
  width : ∃ syms : List Byte, syms.length = s.arcPos.toNat ∧ (∀ c ∈ syms, s.arcFreqAt c.toNat ≠ 0) ∧
    s.arcHigh.toNat - s.arcLow.toNat = (syms.map fun c => (s.arcFreqAt c.toNat).toNat).prod
  cumTable : ∀ c, c < 256 → (s.arcCumAt c).toNat = s.arcFreqSum c
  freqTotal : s.arcFreqSum 256 = s.arcN.toNat
  midActive : s.arcState = .active → s.arcMid.toNat = 0
  midFinal : s.arcState = .final → s.arcMid.toNat = s.arcLow.toNat + s.arcHigh.toNat
  posFinal : s.arcState = .final → s.arcPos = s.arcN

/-- R48 as an invariant of the machine. -/
def State.ArithInv (s : State) : Prop := s.arcState ≠ .idle → s.ArithLive

/-- The sum of `HUF_FREQ` (R141, R49). -/
def State.hufFreqTotal (s : State) : Nat := ((List.range 256).map fun c => (s.hufFreqAt c).toNat).sum

/-- The symbols that occur, in ascending order of value (R142). -/
def State.presentSymbols (s : State) : List Nat := (List.range 256).filter fun c => 0 < (s.hufFreqAt c).toNat

/-- The child of node `i` on an edge: left is `false` (bit 0), right is `true` (bit 1) (R144). -/
def State.nodeChild (s : State) (i : Nat) (edge : Bool) : Nat :=
  if edge then (s.hufNodeAt i).right.toNat else (s.hufNodeAt i).left.toNat

/-- The tree invariant R49 with `L = HUF_NLEAF`: the leaves in ascending order of symbol; the internal nodes with the
sum of their children's frequencies and children of smaller index; every index but the root's the child of exactly one
node; the root's frequency the sum of `HUF_FREQ`. -/
structure State.TreeValid (s : State) : Prop where
  leafCount : s.hufNLeaf.toNat = s.presentSymbols.length
  nodeCount : s.hufNNode.toNat = 2 * s.hufNLeaf.toNat - 1
  rootIndex : s.hufRoot.toNat = 2 * s.hufNLeaf.toNat - 2
  leaves : ∀ m, (h : m < s.presentSymbols.length) →
    s.hufNodeAt m = leafNode s.presentSymbols[m] (s.hufFreqAt s.presentSymbols[m])
  internal : ∀ i, s.hufNLeaf.toNat ≤ i → i < s.hufNNode.toNat →
    (s.hufNodeAt i).leaf = false ∧ (s.hufNodeAt i).sym = 0 ∧
    (∀ e, s.nodeChild i e < i) ∧
    (s.hufNodeAt i).freq.toNat =
      (s.hufNodeAt (s.nodeChild i false)).freq.toNat + (s.hufNodeAt (s.nodeChild i true)).freq.toNat
  oneParent : ∀ j, j < s.hufRoot.toNat → ∃ i e, s.hufNLeaf.toNat ≤ i ∧ i < s.hufNNode.toNat ∧ s.nodeChild i e = j ∧
    ∀ i' e', s.hufNLeaf.toNat ≤ i' → i' < s.hufNNode.toNat → s.nodeChild i' e' = j → i' = i ∧ e' = e
  rootFreq : 1 ≤ s.hufNLeaf.toNat → (s.hufNodeAt s.hufRoot.toNat).freq.toNat = s.hufFreqTotal

/-- The code-table invariant R49: the symbols with a code are the symbols that occur, a code has at most
`MAX_CODE_LEN` bits, and no code is a prefix of another. -/
structure State.CodesValid (s : State) : Prop where
  domain : ∀ c, c < 256 → (0 < (s.hufClenAt c).toNat ↔ 0 < (s.hufFreqAt c).toNat)
  bound : ∀ c, c < 256 → (s.hufClenAt c).toNat ≤ 32
  prefixFree : ∀ c d : Byte, c ≠ d → 0 < (s.hufClenAt c.toNat).toNat → 0 < (s.hufClenAt d.toNat).toNat →
    ¬ s.codeBits c <+: s.codeBits d

/-- R49 as an invariant of the machine, with the total count that keeps every `FREQ` in its field (R145). -/
structure State.HuffmanInv (s : State) : Prop where
  total : 1 ≤ s.hufStage.toNat → s.hufFreqTotal ≤ 256
  tree : 2 ≤ s.hufStage.toNat → s.TreeValid
  codes : 3 ≤ s.hufStage.toNat → s.CodesValid

/-! ## Decoding a Huffman bitstring by walking the tree (R153) -/

/-- Walk the tree from node `i`: left on 0, right on 1; at a leaf emit its symbol and start again from `root`. A tree
of one leaf emits its symbol on every bit. `fuel` bounds the number of moves. -/
def treeWalk (node : Nat → Node) (root : Nat) : (fuel i : Nat) → List Bool → List Byte
  | 0, _, _ => []
  | _, _, [] => []
  | fuel + 1, i, bit :: bits =>
    if (node root).leaf then (node root).sym :: treeWalk node root fuel root bits
    else
      let j := if bit then (node i).right.toNat else (node i).left.toNat
      if (node j).leaf then (node j).sym :: treeWalk node root fuel root bits
      else treeWalk node root fuel j bits

/-- The sequence that the bitstring in `HBUF` decodes to with the tree in the node table (R153). -/
def State.decodedByTree (s : State) : List Byte :=
  treeWalk s.hufNodeAt s.hufRoot.toNat s.hufBitLen.toNat s.hufRoot.toNat
    ((List.range s.hufBitLen.toNat).map s.hbufBit)

/-! ## What the RLE rules ask of a list of tokens (R121 to R123) -/

/-- The symbols a token stands for. -/
def Token.symbols : Token → List Byte
  | .run count sym => List.replicate count sym
  | .literal syms => syms

/-- `tokens` is the segmentation that R121 and R122 ask for of `input`: a run token takes a whole run of two or more
equal symbols; a literal of 1 to 255 symbols holds no two equal neighbours, and it ends at the end of the input, at 255
symbols, or right before a run. -/
inductive Segmentation : List Byte → List Token → Prop where
  | done : Segmentation [] []
  | run (r : Nat) (c : Byte) (rest : List Byte) (ts : List Token) (two : 2 ≤ r) (maximal : rest.head? ≠ some c)
      (tail : Segmentation rest ts) : Segmentation (List.replicate r c ++ rest) (.run r c :: ts)
  | literal (syms rest : List Byte) (ts : List Token) (lower : 1 ≤ syms.length) (upper : syms.length ≤ 255)
      (noRun : ∀ j, j + 1 < (syms ++ rest.take 1).length → j < syms.length →
        (syms ++ rest.take 1)[j]? ≠ (syms ++ rest.take 1)[j + 1]?)
      (stops : rest = [] ∨ syms.length = 255 ∨ ∃ c rest', rest = c :: c :: rest')
      (tail : Segmentation rest ts) : Segmentation (syms ++ rest) (.literal syms :: ts)

end Sys2Proof.Machine
end

