-- ==== Sys2Proof/Certificates/Slice0/Obligations.lean ====
section
/-! DEFINITION. The statements for the provers, over every state unless a premise says otherwise. -/
open Sys2Proof Sys2Proof.Machine

/-! ## Encoding -/

/-- The rows of the opcode map R93, and words that are no command: RSV not zero (R92), OPC unassigned (R94). -/
def Obligations.OpcodeMapWordsDecode : Prop :=
  decode 0x00000000 = .ok .nop ∧ decode 0x00000001 = .ok .sreset ∧ decode 0x00000010 = .ok .rleEnc ∧
  decode 0x00000020 = .ok .hufFreq ∧ decode 0x00000021 = .ok .hufBuild ∧ decode 0x00000022 = .ok .hufCodes ∧
  decode 0x00000023 = .ok .hufEnc ∧ decode 0x0000002F = .ok .hufAll ∧ decode 0x00000030 = .ok .arcInit ∧
  decode 0x00000031 = .ok .arcStep ∧ decode 0x00000032 = .ok .arcRun ∧ decode 0x00000033 = .ok .arcFinal ∧
  decode 0x0000003F = .ok .arcAll ∧ decode 0x00000110 = .error .reservedBits ∧
  decode 0x00000099 = .error .unassignedOpcode ∧ decode 0x0000002E = .error .unassignedOpcode

/-- R91: a word is executed as the command whose `match` equals it exactly, so decoding inverts encoding on commands
and encoding inverts decoding on legal words. -/
def Obligations.DecodeAndEncodeAgree : Prop :=
  ∀ i : Instr, i.wellFormed = true → decode (encode i) = .ok i ∧ ∀ w, decode w = .ok i → w = encode i

/-- R92, R94: a word is illegal exactly when its bits [31:8] are not zero or its bits [7:0] are unassigned. -/
def Obligations.IllegalWordsAreTheReservedAndUnassigned : Prop :=
  ∀ w : Word, (rsvField w ≠ 0 → decode w = .error .reservedBits) ∧
    (rsvField w = 0 → opcField w ∉ assignedOpcodes → decode w = .error .unassignedOpcode) ∧
    (rsvField w = 0 → opcField w ∈ assignedOpcodes → ∃ i, decode w = .ok i)

/-! ## Steps, acceptance and completion -/

/-- R111: when a command is pending, its latency has passed and `RST` is not asserted, the step IS the execution of the
command that `CMD` decodes to; nothing is added around it. -/
def Obligations.StepExecutesThePendingCommand : Prop :=
  ∀ (s : State) (i : Instr), s.inReset = false → s.busy = true → s.latency = 0 → decode s.cmd = .ok i →
    step s = exec i s

/-- The word stored by `withFetchWord` is the one that the next step executes. -/
def Obligations.FetchWordIsExecutedByTheNextStep : Prop :=
  ∀ (s : State) (i : Instr), step (s.withFetchWord 32 (encode i).toNat) = exec i (s.withFetchWord 32 (encode i).toNat)

/-- R114: a pending word with `RSV ≠ 0` or an unassigned `OPC` completes with `E_ILLEGAL`, and no state other than
`STATUS` changes; the corner word 0x110 is illegal although its OPC is that of `RLE_ENC`; with `WOB` clear, `STATUS`
then reads 0x12. -/
def Obligations.IllegalCommandReportsIllegal : Prop :=
  (∀ s : State, s.inReset = false → s.busy = true → s.latency = 0 →
    (rsvField s.cmd ≠ 0 ∨ opcField s.cmd ∉ assignedOpcodes) → step s = .next (s.completedWith .eIllegal)) ∧
  rsvField 0x00000110 ≠ 0 ∧ opcField 0x00000110 = opcField (encode .rleEnc) ∧
  opcField 0x99 ∉ assignedOpcodes ∧
  ∀ s : State, s.wob = false → (s.completedWith .eIllegal).statusWord = 0x00000012

/-- R110: what a host write of `v` to `CMD` does: ignored with `WOB` set while `BUSY = 1`; otherwise accepted
undecoded, with `BUSY` set, `DONE` and `ERR` cleared, and no engine state changed (the model draws the latency, R240). -/
def Obligations.CommandWriteIsAcceptedOnlyWhenIdle : Prop :=
  ∀ (s : State) (v : Word),
    (s.busy = true → busWrite 0x010 4 v s = (.ack, { s with wob := true })) ∧
    (s.busy = false → ∃ t, busWrite 0x010 4 v s = (.ack, t) ∧ t = { s with
      cmd := v, busy := true, done := false, err := .ok, latency := t.latency, draws := t.draws })

/-- R240, R218, R66: a pending command completes after exactly its remaining latency (log entry 3), whatever the free
latency is and whatever the host does meanwhile, accesses answered with a bus error among it, as long as it does not assert
`RST`. The host is idle, or its program holds no assertion of `RST`. -/
def Obligations.PendingCommandCompletes : Prop :=
  ∀ s : State, s.inReset = false → s.busy = true → s.host[s.hostPc]? = none ∨ HostOp.rst true ∉ s.host →
    ∃ t, Host.Core.run core (s.latency + 1) s = .next t ∧ t.busy = false ∧ t.done = true ∧ t.cmd = s.cmd

/-- R77, R69, R66: while a command is pending, a step of the host that does not assert `RST` answers a next state, whatever
its access is answered with, and leaves the command, `IN_LEN`, `INBUF` and all engine state as they were at acceptance. That
the step brings the completion one step nearer (`latency`) is the model's choice (log entry 3). -/
def Obligations.HostCannotDisturbAPendingCommand : Prop :=
  ∀ s : State, s.ControlInv → s.busy = true → 0 < s.latency → s.host[s.hostPc]? ≠ some (.rst true) →
    ∃ t, step s = .next t ∧
    t.busy = true ∧ t.done = false ∧ t.err = .ok ∧ t.latency = s.latency - 1 ∧ t.cmd = s.cmd ∧ t.inLen = s.inLen ∧
    t.inbuf = s.inbuf ∧ t.outLen = s.outLen ∧ HuffmanRegistersUnchanged s t ∧ ArithRegistersUnchanged s t ∧
    BytesUnchanged s t

/-- R111, R202: every command completes, `BUSY` is 0 and `DONE` is 1 afterwards, `IRQ` equals `CTRL.IE`, and `CTRL`,
`CMD`, `IN_LEN`, `INBUF`, `WOB`, the reset input and the host are never written. -/
def Obligations.EveryCommandCompletesAndKeepsTheInterface : Prop :=
  ∀ (i : Instr) (s : State), ∃ t, exec i s = .next t ∧ t.busy = false ∧ t.done = true ∧ t.irq = s.ie ∧
    InterfaceUnchanged s t

/-- R203: a primitive command that reports a code other than `OK` has changed nothing but `BUSY`, `DONE` and `ERR`. -/
def Obligations.PrimitiveErrorsArePrecise : Prop :=
  ∀ (i : Instr) (s t : State), i ≠ .hufAll → i ≠ .arcAll → exec i s = .next t → t.err ≠ .ok →
    t = s.completedWith t.err

/-- R118: a compound command runs its primitives in order and stops at the first code other than `OK`, keeping the
effects of the primitives before it. So `HUF_ALL` and `ARC_ALL` have the effect of their primitives issued one after
another while each reports `OK`, and report the error of their first primitive otherwise. -/
def Obligations.CompoundCommandsRunTheirPrimitives : Prop :=
  (∀ (p : State → Result) (ps : List (State → Result)) (s : State),
    ((p s).code = .ok → compound (p :: ps) s = compound ps (p s).state) ∧
    ((p s).code ≠ .ok → compound (p :: ps) s = p s) ∧ compound [] s = ⟨.ok, s⟩) ∧
  (∀ s a b c d : State, exec .hufFreq s = .next a → a.err = .ok → exec .hufBuild a = .next b → b.err = .ok →
    exec .hufCodes b = .next c → c.err = .ok → exec .hufEnc c = .next d → exec .hufAll s = .next d) ∧
  (∀ s a b c : State, exec .arcInit s = .next a → a.err = .ok → exec .arcRun a = .next b → b.err = .ok →
    exec .arcFinal b = .next c → exec .arcAll s = .next c) ∧
  (∀ s a : State, exec .hufFreq s = .next a → a.err ≠ .ok → exec .hufAll s = .next a) ∧
  (∀ s a : State, exec .arcInit s = .next a → a.err ≠ .ok → exec .arcAll s = .next a)

/-- R1: the three engines are independent. A command of one engine leaves the registers and memories of the others. -/
def Obligations.EnginesAreIndependent : Prop :=
  (∀ i s t, i ∈ [Instr.nop, .rleEnc] → exec i s = .next t →
    HuffmanRegistersUnchanged s t ∧ ArithRegistersUnchanged s t ∧ BytesUnchangedOutside 0x1800 0x2000 s t) ∧
  (∀ i s t, i ∈ [Instr.hufFreq, .hufBuild, .hufCodes, .hufEnc, .hufAll] → exec i s = .next t →
    t.outLen = s.outLen ∧ ArithRegistersUnchanged s t ∧
    ∀ a, ¬(0x400 ≤ a ∧ a < 0x1000) → ¬(0x2000 ≤ a ∧ a < 0x2100) → ¬(0x4000 ≤ a ∧ a < 0x5000) →
      t.byteAt a = s.byteAt a) ∧
  (∀ i s t, i ∈ [Instr.arcInit, .arcStep, .arcRun, .arcFinal, .arcAll] → exec i s = .next t →
    t.outLen = s.outLen ∧ HuffmanRegistersUnchanged s t ∧ BytesUnchangedOutside 0x5000 0x5800 s t)

/-! ## Control commands -/

/-- R112: `NOP` (word 0) performs the completion write only, so `STATUS` reads 2 if `WOB` is clear and `IRQ` is
`CTRL.IE`. -/
def Obligations.NopOnlyCompletes : Prop :=
  decode 0x00000000 = .ok .nop ∧ ∀ s : State, exec .nop s = .next (s.completedWith .ok) ∧
    (s.completedWith .ok).irq = s.ie ∧ (s.wob = false → (s.completedWith .ok).statusWord = 0x00000002)

/-- R113: `SRESET` (word 1) sets the engine registers to 0 and changes nothing else but the completion write. -/
def Obligations.SresetClearsTheEngineRegisters : Prop :=
  decode 0x00000001 = .ok .sreset ∧ ∀ s : State, exec .sreset s = .next { s with
    outLen := 0, hufStage := .none, hufNLeaf := 0, hufNNode := 0, hufRoot := 0, hufBitLen := 0,
    arcState := .idle, arcN := 0, arcPos := 0, arcLow := 0, arcHigh := 0, arcScale := 0, arcMid := 0,
    busy := false, done := true, err := .ok }

/-! ## Run-length encoder -/

/-- R126: after a successful `RLE_ENC`, `OUT_LEN` is the length of the encoded string, `OUTBUF` holds it followed by
zeros, and no register or memory outside `OUTBUF` and `OUT_LEN` changes (but for the completion write). -/
def Obligations.RleEncWritesTheEncodedString : Prop :=
  ∀ s : State, s.inputLength ≤ 256 → ∃ t, exec .rleEnc s = .next t ∧ CompletedWith .ok t ∧
    t.outLen.toNat = (rleEncode s.input).length ∧
    (∀ b, b < 2048 → t.outByte b = ((rleEncode s.input)[b]?).getD 0) ∧
    InterfaceUnchanged s t ∧ HuffmanRegistersUnchanged s t ∧ ArithRegistersUnchanged s t ∧
    BytesUnchangedOutside 0x1800 0x2000 s t

/-- R129: the only error of the RLE engine is `E_LEN`, reported exactly when `IN_LEN > MAX_LEN`, with `OUTBUF` and
`OUT_LEN` (and everything but the completion write) unchanged; `RLE_ENC` needs no stage. -/
def Obligations.RleEncReportsOnlyLengthErrors : Prop :=
  ∀ s : State, (256 < s.inputLength → exec .rleEnc s = .next (s.completedWith .eLen)) ∧
    (s.inputLength ≤ 256 → ∃ t, exec .rleEnc s = .next t ∧ t.err = .ok)

/-- R121, R122: the tokens of an input are its one and only segmentation into maximal runs of two or more and literals
of up to 255 symbols without a run. -/
def Obligations.RleTokensAreTheSegmentation : Prop :=
  ∀ (input : List Byte) (ts : List Token), Segmentation input ts ↔ ts = rleTokens input.length input

/-- R123, R124, R10: the encoded string is the tokens' spellings in input order with the bytes 0x2C, 0x20 between them; a run
of `r` symbols `c` spells `dec(r)`, 0x2A, `c`, and a literal spells 0x2D, `dec` of its length, 0x28, its symbols, 0x29;
`dec(k)` is the digits of `k`, most significant first, without a leading zero. The byte values are log entry 17's. -/
def Obligations.RleTokensAreSpelledAndJoined : Prop :=
  (∀ (input : List Byte) (ts : List Token), Segmentation input ts →
    rleEncode input = [0x2C, 0x20].intercalate (ts.map fun t => match t with
      | .run r c => dec r ++ [0x2A, c]
      | .literal syms => [0x2D] ++ dec syms.length ++ [0x28] ++ syms ++ [0x29])) ∧
  ∀ k : Nat, dec k ≠ [] ∧ (∀ d ∈ dec k, 0x30 ≤ d.toNat ∧ d.toNat ≤ 0x39) ∧
    (dec k).foldl (fun n d => 10 * n + (d.toNat - 0x30)) 0 = k ∧ ((dec k).head? = some 0x30 → dec k = [0x30])

/-- R127: the encoded string of `n ≥ 1` symbols, `n ≤ 256`, has at most `7n - 2` bytes, so it fits `OUTBUF`; for `n = 0`
it is empty. -/
def Obligations.RleOutputFitsTheBuffer : Prop :=
  rleEncode [] = [] ∧ ∀ input : List Byte, 1 ≤ input.length → input.length ≤ 256 →
    (rleEncode input).length ≤ 7 * input.length - 2 ∧ (rleEncode input).length < 2048

/-! ## Huffman tree builder and encoder -/

/-- R141: `HUF_FREQ` tabulates the counts, whose sum is `n`, sets the stage to 1 and clears the later registers; with
`IN_LEN > MAX_LEN` it reports `E_LEN` and changes nothing else. -/
def Obligations.HufFreqTabulatesTheCounts : Prop :=
  decode 0x00000020 = .ok .hufFreq ∧ ∀ s : State,
    (256 < s.inputLength → exec .hufFreq s = .next (s.completedWith .eLen)) ∧
    (s.inputLength ≤ 256 → ∃ t, exec .hufFreq s = .next t ∧ CompletedWith .ok t ∧
      (∀ c : Byte, (t.hufFreqAt c.toNat).toNat = s.input.count c) ∧ t.hufFreqTotal = s.inputLength ∧
      t.hufStage = .freq ∧ t.hufNLeaf = 0 ∧ t.hufNNode = 0 ∧ t.hufRoot = 0 ∧ t.hufBitLen = 0 ∧
      t.active = s.active ∧ t.outLen = s.outLen ∧ InterfaceUnchanged s t ∧ ArithRegistersUnchanged s t ∧
      BytesUnchangedOutside 0x400 0x800 s t)

/-- R145: `HUF_BUILD` needs stage 1 or later; it writes the node table the merge loop gives and the registers that count
it, and leaves the entries past it and everything else; below stage 1 it reports `E_SEQ`. -/
def Obligations.HufBuildWritesTheNodeTable : Prop :=
  decode 0x00000021 = .ok .hufBuild ∧ ∀ s : State,
    (s.hufStage = .none → exec .hufBuild s = .next (s.completedWith .eSeq)) ∧
    (s.hufStage ≠ .none → ∃ t, exec .hufBuild s = .next t ∧ CompletedWith .ok t ∧
      t.hufNLeaf.toNat = s.presentSymbols.length ∧ t.hufNNode.toNat = 2 * s.presentSymbols.length - 1 ∧
      t.hufRoot.toNat = 2 * s.presentSymbols.length - 2 ∧
      (huffmanNodes s.hufFreqAt).length = 2 * s.presentSymbols.length - 1 ∧
      (∀ i, (h : i < (huffmanNodes s.hufFreqAt).length) → t.hufNodeAt i = (huffmanNodes s.hufFreqAt)[i]) ∧
      t.hufStage = .tree ∧ t.hufBitLen = 0 ∧ t.active = [] ∧ t.outLen = s.outLen ∧
      InterfaceUnchanged s t ∧ ArithRegistersUnchanged s t ∧
      BytesUnchangedOutside 0x4000 (0x4000 + 8 * (2 * s.presentSymbols.length - 1)) s t)

/-- R142 to R145: from a frequency table with a total of at most 256, `HUF_BUILD` leaves a valid tree (R49) over the
same frequency table, in which every internal node's children are, left first, the two nodes with the smallest keys
`(FREQ, index)` among those without a parent of smaller index. -/
def Obligations.HufBuildMergesTheTwoSmallestKeys : Prop :=
  ∀ s : State, s.hufStage ≠ .none → s.hufFreqTotal ≤ 256 → ∃ t, exec .hufBuild s = .next t ∧ CompletedWith .ok t ∧
    t.TreeValid ∧ (∀ c, t.hufFreqAt c = s.hufFreqAt c) ∧
    ∀ i, t.hufNLeaf.toNat ≤ i → i < t.hufNNode.toNat →
      let free := fun j => j < i ∧ ∀ k e, t.hufNLeaf.toNat ≤ k → k < i → t.nodeChild k e ≠ j
      let key := fun j => (⟨(t.hufNodeAt j).freq, j⟩ : MergeKey)
      free (t.nodeChild i false) ∧ free (t.nodeChild i true) ∧ t.nodeChild i false ≠ t.nodeChild i true ∧
      ∀ j, free j → j ≠ t.nodeChild i false →
        (key (t.nodeChild i false)).before (key j) = true ∧
        (j ≠ t.nodeChild i true → (key (t.nodeChild i true)).before (key j) = true)

/-- R147: `HUF_CODES` needs stage 2 or later; with every code of at most 32 bits it writes the code table of the tree,
0 for a symbol without a code; a longer code gives `E_CODELEN`, an earlier stage `E_SEQ`, with no other change. -/
def Obligations.HufCodesWritesTheCodeTable : Prop :=
  decode 0x00000022 = .ok .hufCodes ∧ ∀ s : State,
    (s.hufStage.toNat < 2 → exec .hufCodes s = .next (s.completedWith .eSeq)) ∧
    (2 ≤ s.hufStage.toNat → (∃ code ∈ s.codesOfTree, 32 < codeLength code) →
      exec .hufCodes s = .next (s.completedWith .eCodelen)) ∧
    (2 ≤ s.hufStage.toNat → (∀ code ∈ s.codesOfTree, codeLength code ≤ 32) →
      ∃ t, exec .hufCodes s = .next t ∧ CompletedWith .ok t ∧
        (∀ c : Byte, (t.hufClenAt c.toNat).toNat = codeLength (s.codesOfTree[c.toNat]?.getD none) ∧
          (t.hufCodeAt c.toNat).toNat = codeWord (s.codesOfTree[c.toNat]?.getD none) ∧
          t.codeBits c = (s.codesOfTree[c.toNat]?.getD none).getD []) ∧
        t.hufStage = .codes ∧ t.hufBitLen = 0 ∧ t.hufNLeaf = s.hufNLeaf ∧ t.hufNNode = s.hufNNode ∧
        t.hufRoot = s.hufRoot ∧ t.active = s.active ∧ t.outLen = s.outLen ∧ InterfaceUnchanged s t ∧
        ArithRegistersUnchanged s t ∧ BytesUnchangedOutside 0x800 0x1000 s t)

/-- R149: with stage 3 or later, a legal length, a code for every input symbol and a bitstring that fits, `HUF_ENC`
writes the concatenated codes to `HBUF`, most significant bit first in each byte (R71) and zeros after them, and their
length to `HUF_BITLEN`. -/
def Obligations.HufEncWritesTheBitstring : Prop :=
  ∀ s : State, 3 ≤ s.hufStage.toNat → s.inputLength ≤ 256 → (∀ c ∈ s.input, s.hufClenAt c.toNat ≠ 0) →
    s.encodedLength ≤ 2048 → ∃ t, exec .hufEnc s = .next t ∧ CompletedWith .ok t ∧
      (∀ j, j < 2048 → t.hbufBit j = (s.encodedBits[j]?).getD false) ∧
      s.encodedBits.length = s.encodedLength ∧ t.hufBitLen.toNat = s.encodedLength ∧
      t.hufStage = .enc ∧ t.hufNLeaf = s.hufNLeaf ∧ t.hufNNode = s.hufNNode ∧ t.hufRoot = s.hufRoot ∧
      t.active = s.active ∧ t.outLen = s.outLen ∧ InterfaceUnchanged s t ∧ ArithRegistersUnchanged s t ∧
      BytesUnchangedOutside 0x2000 0x2100 s t

/-- R149, R201, R204: the errors of `HUF_ENC`, in their order of priority, each with no other change. -/
def Obligations.HufEncErrorsInOrder : Prop :=
  ∀ s : State,
    (s.hufStage.toNat < 3 → exec .hufEnc s = .next (s.completedWith .eSeq)) ∧
    (3 ≤ s.hufStage.toNat → 256 < s.inputLength → exec .hufEnc s = .next (s.completedWith .eLen)) ∧
    (3 ≤ s.hufStage.toNat → s.inputLength ≤ 256 → (∃ c ∈ s.input, s.hufClenAt c.toNat = 0) →
      exec .hufEnc s = .next (s.completedWith .eAlphabet)) ∧
    (3 ≤ s.hufStage.toNat → s.inputLength ≤ 256 → (∀ c ∈ s.input, s.hufClenAt c.toNat ≠ 0) →
      2048 < s.encodedLength → exec .hufEnc s = .next (s.completedWith .eOverflow))

/-- R152, R150, R151: `HUF_ALL` reports `E_LEN` for a length above 256 and changes nothing else; otherwise it always
succeeds (no `E_CODELEN`, no `E_OVERFLOW`), ends at stage 4, has no code above 11 bits, and uses at most `8n` bits. -/
def Obligations.HufAllSucceedsOnEveryLegalInput : Prop :=
  ∀ s : State, (256 < s.inputLength → exec .hufAll s = .next (s.completedWith .eLen)) ∧
    (s.inputLength ≤ 256 → ∃ t, exec .hufAll s = .next t ∧ CompletedWith .ok t ∧ t.hufStage = .enc ∧
      (∀ c : Byte, (t.hufFreqAt c.toNat).toNat = s.input.count c) ∧
      (∀ c : Byte, (t.hufClenAt c.toNat).toNat ≤ 11) ∧
      t.hufBitLen.toNat = (s.input.map fun c => (t.hufClenAt c.toNat).toNat).sum ∧
      t.hufBitLen.toNat ≤ 8 * s.inputLength)

/-- R153: the Huffman code is lossless: walking the tree from `HUF_ROOT` over the bitstring gives back the input. -/
def Obligations.HufAllIsLossless : Prop :=
  ∀ s t : State, exec .hufAll s = .next t → t.err = .ok → t.decodedByTree = s.input

/-- R153: a symbol of larger frequency never has a longer code than a symbol of smaller frequency. -/
def Obligations.MoreFrequentSymbolsHaveNoLongerCodes : Prop :=
  ∀ s t : State, exec .hufAll s = .next t → t.err = .ok → ∀ c d : Byte,
    s.input.count d < s.input.count c → 0 < s.input.count d →
    (t.hufClenAt c.toNat).toNat ≤ (t.hufClenAt d.toNat).toNat

/-- R148: when exactly one distinct symbol occurs, its code is the one bit 0. -/
def Obligations.SingleSymbolGetsTheCodeZero : Prop :=
  ∀ (s : State) (c : Byte), 1 ≤ s.inputLength → s.inputLength ≤ 256 → (∀ d ∈ s.input, d = c) →
    ∃ t, exec .hufAll s = .next t ∧ CompletedWith .ok t ∧ (t.hufClenAt c.toNat).toNat = 1 ∧
      t.hufCodeAt c.toNat = 0 ∧ t.codeBits c = [false] ∧ t.hufNLeaf = 1 ∧ t.hufBitLen.toNat = s.inputLength

/-- R154: all the transitions of `HUF_STAGE`: from stage 2 on `HUF_CODES` gives 3 unless a code is too long, and from stage 3
on `HUF_ENC` gives 4 unless it reports an error of its input. A hardware reset gives stage 0, at a change of `RST` to either
level (that the assertion already does so is log entry 8). -/
def Obligations.HuffmanStageTransitions : Prop :=
  (∀ (i : Instr) (s t : State), exec i s = .next t →
    (i = .hufFreq → t.hufStage = if t.err = .ok then .freq else s.hufStage) ∧
    (i = .hufBuild → (1 ≤ s.hufStage.toNat ↔ t.err = .ok) ∧ t.hufStage = if t.err = .ok then .tree else s.hufStage) ∧
    (i = .hufCodes → (t.err = .ok ↔ 2 ≤ s.hufStage.toNat ∧ ∀ code ∈ s.codesOfTree, codeLength code ≤ 32) ∧
      t.hufStage = if t.err = .ok then .codes else s.hufStage) ∧
    (i = .hufEnc → (t.err = .ok ↔ 3 ≤ s.hufStage.toNat ∧ s.inputLength ≤ 256 ∧
        (∀ c ∈ s.input, s.hufClenAt c.toNat ≠ 0) ∧ s.encodedLength ≤ 2048) ∧
      t.hufStage = if t.err = .ok then .enc else s.hufStage) ∧
    (i = .hufAll → t.hufStage = match t.err with
      | .ok => .enc
      | .eCodelen => .tree
      | .eAlphabet | .eOverflow => .codes
      | .eIllegal | .eLen | .eSeq => s.hufStage) ∧
    (i = .sreset → t.hufStage = .none) ∧
    (i ∉ [Instr.sreset, .hufFreq, .hufBuild, .hufCodes, .hufEnc, .hufAll] → t.hufStage = s.hufStage)) ∧
  (∀ s t : State, s.completionDue = true → wordWellFormed s.cmd = false → step s = .next t → t.hufStage = s.hufStage) ∧
  (∀ (s : State) (l : Bool), l ≠ s.inReset → (s.setRst l).hufStage = .none)

/-- R16, R153: the result of `HUF_ALL` is a function of the input alone: two states with the same input get the same
frequency table, tree, code table and bitstring, whatever else they hold. -/
def Obligations.HufAllDependsOnTheInputOnly : Prop :=
  ∀ s s' t t' : State, s.inLen = s'.inLen → s.input = s'.input → exec .hufAll s = .next t → exec .hufAll s' = .next t' →
    t.err = .ok → t'.err = .ok ∧ t.hufNLeaf = t'.hufNLeaf ∧ t.hufNNode = t'.hufNNode ∧ t.hufRoot = t'.hufRoot ∧
      t.hufBitLen = t'.hufBitLen ∧ (∀ c, c < 256 → t.hufFreqAt c = t'.hufFreqAt c ∧ t.hufCodeAt c = t'.hufCodeAt c ∧
        t.hufClenAt c = t'.hufClenAt c) ∧
      (∀ i, i < t.hufNNode.toNat → t.hufNodeAt i = t'.hufNodeAt i) ∧ (∀ b, b < 256 → t.hbufByte b = t'.hbufByte b)

/-! ## Arithmetic coder -/

/-- R172, R173: `ARC_INIT` tabulates the counts and their running sums and opens the interval [0,1); with
`IN_LEN > MAX_LEN` it reports `E_LEN` and changes nothing else. -/
def Obligations.ArcInitOpensTheUnitInterval : Prop :=
  decode 0x00000030 = .ok .arcInit ∧ ∀ s : State,
    (256 < s.inputLength → exec .arcInit s = .next (s.completedWith .eLen)) ∧
    (s.inputLength ≤ 256 → ∃ t, exec .arcInit s = .next t ∧ CompletedWith .ok t ∧
      (∀ c : Byte, (t.arcFreqAt c.toNat).toNat = s.input.count c) ∧
      (∀ c, c < 256 → (t.arcCumAt c).toNat = t.arcFreqSum c) ∧ t.arcFreqSum 256 = s.inputLength ∧
      t.arcN = s.inLen ∧ t.arcPos = 0 ∧ t.arcLow.toNat = 0 ∧ t.arcHigh.toNat = 1 ∧ t.arcScale.toNat = 1 ∧
      t.arcMid.toNat = 0 ∧ t.arcState = .active ∧ t.outLen = s.outLen ∧ InterfaceUnchanged s t ∧
      HuffmanRegistersUnchanged s t ∧ BytesUnchangedOutside 0x5000 0x5800 s t)

/-- R174: `ARC_STEP` narrows the interval by the symbol at `INBUF[ARC_POS]` as it stands now; both bounds are computed
from the old ones, exactly while R48 holds. `E_SEQ` when idle or when nothing is left to narrow, `E_ALPHABET` for a symbol
of frequency 0, with no other change. -/
def Obligations.ArcStepNarrowsByOneSymbol : Prop :=
  decode 0x00000031 = .ok .arcStep ∧ ∀ s : State,
    (s.arcState = .idle ∨ s.arcN.toNat ≤ s.arcPos.toNat → exec .arcStep s = .next (s.completedWith .eSeq)) ∧
    (s.arcState ≠ .idle → s.arcPos.toNat < s.arcN.toNat → s.arcFreqAt (s.inByte s.arcPos.toNat).toNat = 0 →
      exec .arcStep s = .next (s.completedWith .eAlphabet)) ∧
    (s.arcState ≠ .idle → s.arcPos.toNat < s.arcN.toNat → s.arcFreqAt (s.inByte s.arcPos.toNat).toNat ≠ 0 →
      ∃ t, exec .arcStep s = .next t ∧ CompletedWith .ok t ∧ t.arcPos.toNat = s.arcPos.toNat + 1 ∧
        t.arcState = s.arcState ∧ t.arcN = s.arcN ∧ t.arcMid = s.arcMid ∧ t.outLen = s.outLen ∧
        InterfaceUnchanged s t ∧ HuffmanRegistersUnchanged s t ∧ BytesUnchanged s t ∧
        let c := (s.inByte s.arcPos.toNat).toNat
        let w := s.arcHigh.toNat - s.arcLow.toNat
        let base := s.arcLow.toNat * s.arcN.toNat
        (t.arcLow = wideOf (base + w * (s.arcCumAt c).toNat) ∧
          t.arcHigh = wideOf (base + w * ((s.arcCumAt c).toNat + (s.arcFreqAt c).toNat)) ∧
          t.arcScale = wideOf (s.arcScale.toNat * s.arcN.toNat)) ∧
        (s.ArithLive → t.arcLow.toNat = base + w * (s.arcCumAt c).toNat ∧
          t.arcHigh.toNat = base + w * ((s.arcCumAt c).toNat + (s.arcFreqAt c).toNat) ∧
          t.arcScale.toNat = s.arcScale.toNat * s.arcN.toNat))

/-- R178: each `ARC_STEP` that succeeds gives `new_low ≥ low` and `new_high ≤ high` as rationals, and the width is
multiplied by the symbol's probability. -/
def Obligations.ArcStepNarrowsMonotonically : Prop :=
  ∀ s t : State, s.ArithLive → exec .arcStep s = .next t → t.err = .ok →
    s.arcLow.toNat * t.arcScale.toNat ≤ t.arcLow.toNat * s.arcScale.toNat ∧
    t.arcHigh.toNat * s.arcScale.toNat ≤ s.arcHigh.toNat * t.arcScale.toNat ∧
    t.arcHigh.toNat - t.arcLow.toNat =
      (s.arcHigh.toNat - s.arcLow.toNat) * (s.arcFreqAt (s.inByte s.arcPos.toNat).toNat).toNat ∧
    t.arcScale.toNat = s.arcScale.toNat * s.arcN.toNat

/-- R175: `ARC_RUN` is `E_SEQ` when idle; it checks every remaining symbol before it narrows any; with nothing left it
succeeds and changes nothing; otherwise it is one `ARC_STEP` followed by `ARC_RUN`. -/
def Obligations.ArcRunIsRepeatedSteps : Prop :=
  ∀ s : State,
    (s.arcState = .idle → exec .arcRun s = .next (s.completedWith .eSeq)) ∧
    (s.arcState ≠ .idle → (∃ i, s.arcPos.toNat ≤ i ∧ i < s.arcN.toNat ∧ s.arcFreqAt (s.inByte i).toNat = 0) →
      exec .arcRun s = .next (s.completedWith .eAlphabet)) ∧
    (s.arcState ≠ .idle → s.arcN.toNat ≤ s.arcPos.toNat → exec .arcRun s = .next (s.completedWith .ok)) ∧
    (s.arcState ≠ .idle → (∀ i, s.arcPos.toNat ≤ i → i < s.arcN.toNat → s.arcFreqAt (s.inByte i).toNat ≠ 0) →
      (∃ t, exec .arcRun s = .next t ∧ t.err = .ok ∧ t.arcState = s.arcState) ∧
      (s.arcPos.toNat < s.arcN.toNat →
        ∃ u, exec .arcStep s = .next u ∧ u.err = .ok ∧ exec .arcRun s = exec .arcRun u))

/-- R175, R48: with every remaining symbol in the model, `ARC_RUN` succeeds, ends at `ARC_POS = ARC_N`, keeps R48, and
multiplies the width by the frequencies of the remaining symbols; only the interval and `ARC_POS` change. -/
def Obligations.ArcRunNarrowsByEverySymbolLeft : Prop :=
  ∀ s : State, s.arcState ≠ .idle → s.ArithLive → (∀ c ∈ s.remaining, s.arcFreqAt c.toNat ≠ 0) →
    ∃ t, exec .arcRun s = .next t ∧ CompletedWith .ok t ∧ t.ArithLive ∧ t.arcPos = s.arcN ∧ t.arcN = s.arcN ∧
      t.arcState = s.arcState ∧ t.arcMid = s.arcMid ∧ t.arcScale.toNat = s.arcN.toNat ^ s.arcN.toNat ∧
      t.arcHigh.toNat - t.arcLow.toNat =
        (s.arcHigh.toNat - s.arcLow.toNat) * (s.remaining.map fun c => (s.arcFreqAt c.toNat).toNat).prod ∧
      t.outLen = s.outLen ∧ InterfaceUnchanged s t ∧ HuffmanRegistersUnchanged s t ∧ BytesUnchanged s t

/-- R176: `ARC_FINAL` writes the midpoint `ARC_LOW + ARC_HIGH` and state 2 when every symbol is narrowed, and is `E_SEQ`
otherwise; while R48 holds the value lies strictly inside the interval, repeating the command changes nothing, and for
`N = 0` the value is 1/2. -/
def Obligations.ArcFinalWritesTheMidpoint : Prop :=
  decode 0x00000033 = .ok .arcFinal ∧ ∀ s : State,
    (s.arcState = .idle ∨ s.arcPos ≠ s.arcN → exec .arcFinal s = .next (s.completedWith .eSeq)) ∧
    (s.arcState ≠ .idle → s.arcPos = s.arcN → exec .arcFinal s = .next { s.completedWith .ok with
      arcMid := wideOf (s.arcLow.toNat + s.arcHigh.toNat), arcState := .final }) ∧
    (s.ArithLive → (wideOf (s.arcLow.toNat + s.arcHigh.toNat)).toNat = s.arcLow.toNat + s.arcHigh.toNat ∧
      2 * s.arcLow.toNat < s.arcLow.toNat + s.arcHigh.toNat ∧ s.arcLow.toNat + s.arcHigh.toNat < 2 * s.arcHigh.toNat ∧
      (s.arcState = .final → exec .arcFinal s = .next (s.completedWith .ok)) ∧
      (s.arcN = 0 → s.arcLow.toNat + s.arcHigh.toNat = s.arcScale.toNat))

/-- R177, R178: `ARC_ALL` encodes every legal input: the model's probabilities sum to 1, the interval lies in [0,1), its
width is exactly the product of the symbols' probabilities, and the value is its midpoint. A length above 256 is
`E_LEN` with nothing else changed. -/
def Obligations.ArcAllEncodesTheInput : Prop :=
  ∀ s : State, (256 < s.inputLength → exec .arcAll s = .next (s.completedWith .eLen)) ∧
    (s.inputLength ≤ 256 → ∃ t, exec .arcAll s = .next t ∧ CompletedWith .ok t ∧ t.arcState = .final ∧
      t.arcN = s.inLen ∧ t.arcPos = s.inLen ∧ t.arcFreqSum 256 = s.inputLength ∧
      t.arcScale.toNat = s.inputLength ^ s.inputLength ∧
      t.arcLow.toNat < t.arcHigh.toNat ∧ t.arcHigh.toNat ≤ t.arcScale.toNat ∧
      t.arcHigh.toNat - t.arcLow.toNat = (s.input.map fun c => s.input.count c).prod ∧
      t.arcMid.toNat = t.arcLow.toNat + t.arcHigh.toNat)

/-- R179: on the empty input `ARC_INIT` opens [0,1) over the scale 1, `ARC_RUN` after it changes nothing, and `ARC_FINAL`
after that gives `ARC_MID = 1`, the value 1/2, over the same interval; `ARC_ALL` gives the same and reports no error. -/
def Obligations.EmptyInputGivesTheNeutralInterval : Prop :=
  ∀ s : State, s.inLen = 0 →
    (∃ a b f, exec .arcInit s = .next a ∧ a.err = .ok ∧ a.arcLow = wideOf 0 ∧ a.arcHigh = wideOf 1 ∧
      a.arcScale = wideOf 1 ∧ exec .arcRun a = .next b ∧ b = a.completedWith .ok ∧
      exec .arcFinal b = .next f ∧ f.err = .ok ∧ f.arcState = .final ∧ f.arcMid = wideOf 1 ∧
      f.arcLow = wideOf 0 ∧ f.arcHigh = wideOf 1 ∧ f.arcScale = wideOf 1) ∧
    (∃ t, exec .arcAll s = .next t ∧ t.err = .ok ∧ t.arcState = .final ∧ t.arcLow = wideOf 0 ∧ t.arcHigh = wideOf 1 ∧
      t.arcScale = wideOf 1 ∧ t.arcMid = wideOf 1 ∧ ∀ c, c < 256 → t.arcFreqAt c = 0 ∧ t.arcCumAt c = 0)

/-- R180: with a single distinct symbol and `N ≥ 1` the final interval is [0,1): `ARC_LOW = 0`, `ARC_HIGH` and
`ARC_SCALE` are `N^N`, and the value is 1/2. So `ARC_MID = N^N`, at `N = 256` too, where vector V68 says twice that (log
entry 18). -/
def Obligations.SingleSymbolKeepsTheUnitInterval : Prop :=
  ∀ (s : State) (c : Byte), 1 ≤ s.inputLength → s.inputLength ≤ 256 → (∀ d ∈ s.input, d = c) →
    ∃ t, exec .arcAll s = .next t ∧ CompletedWith .ok t ∧ (t.arcFreqAt c.toNat).toNat = s.inputLength ∧
      t.arcCumAt c.toNat = 0 ∧ t.arcLow.toNat = 0 ∧ t.arcHigh.toNat = s.inputLength ^ s.inputLength ∧
      t.arcScale.toNat = s.inputLength ^ s.inputLength ∧ t.arcMid.toNat = t.arcScale.toNat

/-! ## Bus accesses -/

/-- R64, R65, R66: an access of another size, misaligned, unmapped or past the 15-bit space is answered with a bus error
and changes no state; every other access is answered without one. -/
def Obligations.BusErrorsAreExactlyTheIllegalAccesses : Prop :=
  ∀ (off size : Nat) (v : Word) (s : State),
    let unmapped := (0x1100 ≤ off ∧ off < 0x1800) ∨ (0x2100 ≤ off ∧ off < 0x4000) ∨ (0x5800 ≤ off ∧ off < 0x6000) ∨
      0x6800 ≤ off
    (size ≠ 4 ∨ off % 4 ≠ 0 ∨ unmapped →
      busRead off size s = (.fault .busError, s) ∧ busWrite off size v s = (.fault .busError, s)) ∧
    (size = 4 → off % 4 = 0 → ¬unmapped →
      (∃ w, (busRead off size s).1 = .data w) ∧ (busWrite off size v s).1 = .ack)

/-- R98, R76, R15: in a step that is not a completion the host performs its next operation and gets the answer; a branch
goes to its target when the value read has a bit of the mask; with no operation left nothing happens. An access answered
with a bus error, a read, a write or a branch's read, is such a step too: the host gets the fault, and the block's state, a
pending command included, does not change (R66, R205, R218). The host in State, the tick of the latency, that the host goes
on after a bus error, and the free index at which it goes on after a branch without a value are the model's (log entries 3
to 6). -/
def Obligations.HostStepPerformsItsNextOperation : Prop :=
  ∀ s : State, s.inReset = false → s.completionDue = false →
    let u := { s with latency := s.latency - 1 }
    (∀ off size v, s.host[s.hostPc]? = some (.write off size v) →
      step s = .next ((busWrite off size v u).2.answer (s.hostPc + 1) (busWrite off size v u).1) ∧
      ((busWrite off size v u).1 = .fault .busError → step s = .next { s with
        latency := s.latency - 1, hostPc := s.hostPc + 1, responses := s.responses ++ [.fault .busError] })) ∧
    (∀ off size, s.host[s.hostPc]? = some (.read off size) →
      step s = .next ((busRead off size u).2.answer (s.hostPc + 1) (busRead off size u).1) ∧
      ((busRead off size u).1 = .fault .busError → step s = .next { s with
        latency := s.latency - 1, hostPc := s.hostPc + 1, responses := s.responses ++ [.fault .busError] })) ∧
    (∀ off mask target, s.host[s.hostPc]? = some (.bnz off mask target) →
      (∀ w, (busRead off 4 u).1 = .data w →
        step s = .next ((busRead off 4 u).2.answer (if w &&& mask ≠ 0 then target else s.hostPc + 1) (.data w))) ∧
      ((busRead off 4 u).1 = .fault .busError → step s = .next { s with
        latency := s.latency - 1, draws := s.draws + 1, hostPc := Config.hostAfterBusError s.draws,
        responses := s.responses ++ [.fault .busError] })) ∧
    (s.host[s.hostPc]? = none → step s = .next u)

/-- R218, R230: no step refuses; a step stops exactly when no completion is due and the host accesses the bus while `RST` is
asserted, which R230 forbids (that it stops is log entry 7). So no access answered with a bus error stops a step (R66). -/
def Obligations.StepStopsOnlyAtAForbiddenHostAccess : Prop :=
  ∀ s : State, (∀ r, step s ≠ .refused r) ∧
    (∀ f, step s = .fault f ↔ s.completionDue = false ∧ f = .accessInReset ∧ s.inReset = true ∧
      ∃ op, s.host[s.hostPc]? = some op ∧ ∀ l, op ≠ .rst l)

/-- R67, R62: a write to a read-only or reserved location is answered normally and changes no state, `WOB` included. -/
def Obligations.ReadOnlyLocationsIgnoreWrites : Prop :=
  ∀ (off : Nat) (v : Word) (s : State), off % 4 = 0 →
    (off < 8 ∨ (0x018 ≤ off ∧ off < 0x1000) ∨ (0x1800 ≤ off ∧ off < 0x2100) ∨ (0x4000 ≤ off ∧ off < 0x5800) ∨
      (0x6000 ≤ off ∧ off < 0x6800)) →
    busWrite off 4 v s = (.ack, s)

/-- R68, R75: while `BUSY = 1` a read of a result location answers the next free draw and changes nothing but the model's
counter of draws (log entry 2); a read of any other location, and every read while `BUSY = 0`, changes no state; `ID`, `PARAM`,
`CTRL`, `STATUS`, `CMD`, `IN_LEN`, a reserved register and `INBUF` read their current values whether busy or not. While
`BUSY = 0` every result register (R32 to R40), every table entry (R43, R46) and both words of every node entry (R44, R73)
read their current values at their offsets, other bits 0. (`OUTBUF`, `HBUF` and the wide registers have statements of
their own: R63, R72.) -/
def Obligations.ReadsOfResultsWhileBusyAreFreeDraws : Prop :=
  ∀ (off : Nat) (s : State), off % 4 = 0 →
    let result := (0x018 ≤ off ∧ off < 0x03C) ∨ (0x400 ≤ off ∧ off < 0x1000) ∨ (0x1800 ≤ off ∧ off < 0x2100) ∨
      (0x4000 ≤ off ∧ off < 0x5800) ∨ (0x6000 ≤ off ∧ off < 0x6800)
    (s.busy = true → result →
      busRead off 4 s = (.data (Config.busyReadWord s.draws), { s with draws := s.draws + 1 })) ∧
    (s.busy = false ∨ ¬result → (busRead off 4 s).2 = s) ∧
    (busRead 0x000 4 s).1 = .data 0x54564431 ∧ (busRead 0x004 4 s).1 = .data 0x41200100 ∧
    (busRead 0x008 4 s).1 = .data s.ctrlWord ∧ (busRead 0x00C 4 s).1 = .data s.statusWord ∧
    (busRead 0x010 4 s).1 = .data s.cmd ∧ (busRead 0x014 4 s).1 = .data (s.inLen.setWidth 32) ∧
    (0x03C ≤ off → off < 0x400 → (busRead off 4 s).1 = .data 0) ∧
    (0x1000 ≤ off → off < 0x1100 → (busRead off 4 s).1 =
      .data (wordOfBytes (s.byteAt off) (s.byteAt (off + 1)) (s.byteAt (off + 2)) (s.byteAt (off + 3)))) ∧
    (s.busy = false →
      (busRead 0x018 4 s).1 = .data (s.outLen.setWidth 32) ∧
      (busRead 0x01C 4 s).1 = .data (match s.hufStage with | .none => 0 | .freq => 1 | .tree => 2 | .codes => 3 | .enc => 4) ∧
      (busRead 0x020 4 s).1 = .data (s.hufNLeaf.setWidth 32) ∧ (busRead 0x024 4 s).1 = .data (s.hufNNode.setWidth 32) ∧
      (busRead 0x028 4 s).1 = .data (s.hufRoot.setWidth 32) ∧ (busRead 0x02C 4 s).1 = .data (s.hufBitLen.setWidth 32) ∧
      (busRead 0x030 4 s).1 = .data (match s.arcState with | .idle => 0 | .active => 1 | .final => 2) ∧
      (busRead 0x034 4 s).1 = .data (s.arcN.setWidth 32) ∧ (busRead 0x038 4 s).1 = .data (s.arcPos.setWidth 32) ∧
      (∀ c, c < 256 → (busRead (0x400 + 4 * c) 4 s).1 = .data ((s.hufFreqAt c).setWidth 32) ∧
        (busRead (0x800 + 4 * c) 4 s).1 = .data (s.hufCodeAt c) ∧
        (busRead (0xC00 + 4 * c) 4 s).1 = .data ((s.hufClenAt c).setWidth 32) ∧
        (busRead (0x5000 + 4 * c) 4 s).1 = .data ((s.arcFreqAt c).setWidth 32) ∧
        (busRead (0x5400 + 4 * c) 4 s).1 = .data ((s.arcCumAt c).setWidth 32)) ∧
      (∀ i, i < 512 → ∃ w0 w1, (busRead (0x4000 + 8 * i) 4 s).1 = .data w0 ∧
        (busRead (0x4000 + 8 * i + 4) 4 s).1 = .data w1 ∧
        w0.extractLsb' 0 16 = (s.hufNodeAt i).freq ∧ w0.extractLsb' 16 8 = (s.hufNodeAt i).sym ∧
        w0.extractLsb' 24 7 = 0 ∧ w0.getLsbD 31 = (s.hufNodeAt i).leaf ∧
        w1.extractLsb' 0 9 = (s.hufNodeAt i).left ∧ w1.extractLsb' 9 7 = 0 ∧
        w1.extractLsb' 16 9 = (s.hufNodeAt i).right ∧ w1.extractLsb' 25 7 = 0))

/-- R69: while `BUSY = 1` a write to `CMD`, `IN_LEN` or an `INBUF` word sets `WOB` and is otherwise ignored; a write
to `CTRL` or `STATUS` takes effect; a write to any other mapped word, read-only or reserved, is ignored. All get a normal
response. -/
def Obligations.WritesWhileBusyOnlySetWob : Prop :=
  ∀ (off : Nat) (v : Word) (s : State), s.busy = true → off % 4 = 0 →
    (off = 0x010 ∨ off = 0x014 ∨ (0x1000 ≤ off ∧ off < 0x1100) → busWrite off 4 v s = (.ack, { s with wob := true })) ∧
    busWrite 0x008 4 v s = (.ack, { s with ie := v.getLsbD 0 }) ∧
    busWrite 0x00C 4 v s = (.ack, { s with done := s.done && !v.getLsbD 1, wob := s.wob && !v.getLsbD 2 }) ∧
    (off < 8 ∨ (0x018 ≤ off ∧ off < 0x1000) ∨ (0x1800 ≤ off ∧ off < 0x2100) ∨ (0x4000 ≤ off ∧ off < 0x5800) ∨
      (0x6000 ≤ off ∧ off < 0x6800) → busWrite off 4 v s = (.ack, s))

/-- R25: the fields `STATUS` reads, bit by bit, and what a write to it does. -/
def Obligations.StatusFieldsAndWriteOneToClear : Prop :=
  ∀ (s : State) (v : Word), ∃ w, busRead 0x00C 4 s = (.data w, s) ∧ w.getLsbD 0 = s.busy ∧ w.getLsbD 1 = s.done ∧
    w.getLsbD 2 = s.wob ∧ w.getLsbD 3 = false ∧ (w.extractLsb' 4 4).toNat = s.err.toNat ∧ w.toNat < 256 ∧
    busWrite 0x00C 4 v s = (.ack, { s with
      done := if v.getLsbD 1 then false else s.done, wob := if v.getLsbD 2 then false else s.wob })

/-- R24, R47, R207: a write to `CTRL` keeps bit 0 only, whether busy or not; `CTRL` reads it back; `IRQ` is
`CTRL.IE AND STATUS.DONE`, so masking and unmasking leave `DONE` pending. -/
def Obligations.CtrlHoldsTheInterruptEnable : Prop :=
  ∀ (s : State) (v : Word), ∃ t, busWrite 0x008 4 v s = (.ack, t) ∧ t = { s with ie := v.getLsbD 0 } ∧
    busRead 0x008 4 t = (.data (v &&& 1), t) ∧ t.irq = (v.getLsbD 0 && s.done)

/-- R31: with `BUSY = 0` a write to `IN_LEN` stores bits [15:0] as written, and `IN_LEN` reads them back. -/
def Obligations.InLenHoldsTheLowHalf : Prop :=
  ∀ (s : State) (v : Word), s.busy = false → ∃ t, busWrite 0x014 4 v s = (.ack, t) ∧
    t = { s with inLen := v.setWidth 16 } ∧ busRead 0x014 4 t = (.data (v &&& 0xFFFF), t)

/-- R63: the word at `base + 4j` of `INBUF`, `OUTBUF` and `HBUF` reads the bytes `4j..4j+3`, the first in bits [7:0]. With
`BUSY = 0` a write to an `INBUF` word stores its four bytes so, changes no other byte and no register, and reads back. -/
def Obligations.InbufWordWriteStoresFourBytes : Prop :=
  ∀ (s : State) (v : Word) (j : Nat), s.busy = false →
    (j < 64 → (busRead (0x1000 + 4 * j) 4 s).1 =
        .data (s.inByte (4 * j + 3) ++ s.inByte (4 * j + 2) ++ s.inByte (4 * j + 1) ++ s.inByte (4 * j)) ∧
      (busRead (0x2000 + 4 * j) 4 s).1 =
        .data (s.hbufByte (4 * j + 3) ++ s.hbufByte (4 * j + 2) ++ s.hbufByte (4 * j + 1) ++ s.hbufByte (4 * j))) ∧
    (j < 512 → (busRead (0x1800 + 4 * j) 4 s).1 =
      .data (s.outByte (4 * j + 3) ++ s.outByte (4 * j + 2) ++ s.outByte (4 * j + 1) ++ s.outByte (4 * j))) ∧
    (j < 64 → ∃ t, busWrite (0x1000 + 4 * j) 4 v s = (.ack, t) ∧
      t.inByte (4 * j) = v.extractLsb' 0 8 ∧ t.inByte (4 * j + 1) = v.extractLsb' 8 8 ∧
      t.inByte (4 * j + 2) = v.extractLsb' 16 8 ∧ t.inByte (4 * j + 3) = v.extractLsb' 24 8 ∧
      BytesUnchangedOutside (0x1000 + 4 * j) (0x1000 + 4 * j + 4) s t ∧ t = { s with inbuf := t.inbuf } ∧
      busRead (0x1000 + 4 * j) 4 t = (.data v, t))

/-- R71: bitstring bit `j` is bit `7 - (j mod 8)` of `HBUF[j div 8]`, which is bit
`8 × ((j mod 32) div 8) + 7 - (j mod 8)` of bus word `j div 32`; the bitstring `1110` alone makes the byte 0xE0. -/
def Obligations.BitstringOrderInBusWords : Prop :=
  packByte [true, true, true, false] = 0xE0 ∧
  ∀ (s : State) (j : Nat), s.busy = false → j < 2048 → s.hbufBit j = (s.hbufByte (j / 8)).getLsbD (7 - j % 8) ∧
    ∃ w, (busRead (0x2000 + 4 * (j / 32)) 4 s).1 = .data w ∧ w.getLsbD (8 * ((j % 32) / 8) + 7 - j % 8) = s.hbufBit j

/-- R72, R41, R61: the words of the window of `ARC_LOW` at 0x6000, `ARC_HIGH` at 0x6200, `ARC_SCALE` at 0x6400 and `ARC_MID`
at 0x6600, the least significant word at the lowest offset, rebuild the number; words 65 to 127 read 0. -/
def Obligations.WideWindowRebuildsTheNumber : Prop :=
  ∀ (s : State) (base : Nat) (v : Wide), s.busy = false →
    (base, v) ∈ [(0x6000, s.arcLow), (0x6200, s.arcHigh), (0x6400, s.arcScale), (0x6600, s.arcMid)] →
    ∃ word : Nat → Word,
      (∀ w, w < 128 → (busRead (base + 4 * w) 4 s).1 = .data (word w)) ∧
      (∀ w, 65 ≤ w → w < 128 → word w = 0) ∧
      v.toNat = ((List.range 65).map fun w => (word w).toNat * 2 ^ (32 * w)).sum

/-! ## Reset -/

/-- R231: what every register reads after reset, the interrupt line, the pending command and the `active` set. -/
def Obligations.ResetRegisterValues : Prop :=
  (busRead 0x000 4 State.reset).1 = .data 0x54564431 ∧ (busRead 0x004 4 State.reset).1 = .data 0x41200100 ∧
  (∀ k, k < 13 → (busRead (0x008 + 4 * k) 4 State.reset).1 = .data 0) ∧
  (∀ (r : WideReg) (w : Nat), w < 128 → (busRead (r.base + 4 * w) 4 State.reset).1 = .data 0) ∧
  State.reset.irq = false ∧ State.reset.pending = none ∧ State.reset.active = []

/-- R230 to R234: a change of `RST` in the host's turn abandons a pending command, gives every register its reset value,
also `CTRL`, `STATUS` with `WOB`, `CMD` and `IN_LEN`, and gives every stored memory bit a new draw. That the assertion already
does so is log entry 8, that both changes draw anew log entry 13. The level that `RST` already has is no change: only the
host goes on, and the latency ticks (log entries 19, 3). -/
def Obligations.HardwareResetAbandonsAndRedraws : Prop :=
  ∀ (s : State) (l : Bool), s.completionDue = false → s.host[s.hostPc]? = some (.rst l) →
    (l = s.inReset → step s = .next { s with latency := s.latency - 1, hostPc := s.hostPc + 1 }) ∧
    (l ≠ s.inReset → ∃ t, step s = .next t ∧
    t.inReset = l ∧ t.pending = none ∧ t.ctrlWord = 0 ∧ t.statusWord = 0 ∧ t.cmd = 0 ∧ t.inLen = 0 ∧ t.outLen = 0 ∧
    t.hufStage = .none ∧ t.hufNLeaf = 0 ∧ t.hufNNode = 0 ∧ t.hufRoot = 0 ∧ t.hufBitLen = 0 ∧ t.arcState = .idle ∧
    t.arcN = 0 ∧ t.arcPos = 0 ∧ t.arcLow = 0 ∧ t.arcHigh = 0 ∧ t.arcScale = 0 ∧ t.arcMid = 0 ∧ t.irq = false ∧
    t.active = [] ∧
    (∀ (b : Bank) (a : Nat), t.bankByte b a = Config.powerOnByte (s.resets + 1) a &&& byteMask b a) ∧
    t.host = s.host ∧ t.hostPc = s.hostPc + 1 ∧ t.responses = s.responses)

/-! ## Invariants -/

/-- The four invariants hold right after reset, and in the state that a change of `RST` leaves (R231, R232). That the
assertion of `RST` already leaves the reset values is log entry 8; the canonical form of the memories is log entry 1. -/
def Obligations.InvariantsHoldAtReset : Prop :=
  (State.reset.ControlInv ∧ State.reset.RangeInv ∧ State.reset.ArithInv ∧ State.reset.HuffmanInv) ∧
  ∀ (s : State) (l : Bool), l ≠ s.inReset → (s.setRst l).ControlInv ∧ (s.setRst l).RangeInv ∧ (s.setRst l).ArithInv ∧
    (s.setRst l).HuffmanInv

/-- R27, R25, R45, R233: every step keeps the control invariant and the canonical form of every memory, which is the
model's own (log entry 1). -/
def Obligations.StepKeepsControlInv : Prop :=
  ∀ s t : State, s.ControlInv → step s = .next t → t.ControlInv

/-- R32, R34 to R37, R39, R40: every step keeps the ranges of the result registers. -/
def Obligations.StepKeepsRangeInv : Prop :=
  ∀ s t : State, s.RangeInv → step s = .next t → t.RangeInv

/-- R48: every step keeps the arithmetic-coder invariant: the scale, the order of the bounds, the width as the product of
the frequencies of the symbols narrowed so far, the midpoint, and the tables' law R46, R173. -/
def Obligations.StepKeepsArithInv : Prop :=
  ∀ s t : State, s.ArithInv → step s = .next t → t.ArithInv

/-- R49: every step keeps the Huffman invariants: a valid tree from stage 2 on, a prefix-free code table for exactly the
symbols that occur from stage 3 on. -/
def Obligations.StepKeepsHuffmanInv : Prop :=
  ∀ s t : State, s.HuffmanInv → step s = .next t → t.HuffmanInv
end

