-- ==== Sys2Proof/Laws/State.lean ====
section
/-! SUPPORT. One lemma per field per update of State, each true by rfl, so that no proof unfolds a record update. -/
namespace Sys2Proof.Machine

/-! ## `complete` -/

@[simp] theorem complete_ie (r : Result) : (complete r).ie = r.state.ie := rfl
@[simp] theorem complete_busy (r : Result) : (complete r).busy = false := rfl
@[simp] theorem complete_done (r : Result) : (complete r).done = true := rfl
@[simp] theorem complete_wob (r : Result) : (complete r).wob = r.state.wob := rfl
@[simp] theorem complete_err (r : Result) : (complete r).err = r.code := rfl
@[simp] theorem complete_cmd (r : Result) : (complete r).cmd = r.state.cmd := rfl
@[simp] theorem complete_inLen (r : Result) : (complete r).inLen = r.state.inLen := rfl
@[simp] theorem complete_outLen (r : Result) : (complete r).outLen = r.state.outLen := rfl
@[simp] theorem complete_hufStage (r : Result) : (complete r).hufStage = r.state.hufStage := rfl
@[simp] theorem complete_hufNLeaf (r : Result) : (complete r).hufNLeaf = r.state.hufNLeaf := rfl
@[simp] theorem complete_hufNNode (r : Result) : (complete r).hufNNode = r.state.hufNNode := rfl
@[simp] theorem complete_hufRoot (r : Result) : (complete r).hufRoot = r.state.hufRoot := rfl
@[simp] theorem complete_hufBitLen (r : Result) : (complete r).hufBitLen = r.state.hufBitLen := rfl
@[simp] theorem complete_arcState (r : Result) : (complete r).arcState = r.state.arcState := rfl
@[simp] theorem complete_arcN (r : Result) : (complete r).arcN = r.state.arcN := rfl
@[simp] theorem complete_arcPos (r : Result) : (complete r).arcPos = r.state.arcPos := rfl
@[simp] theorem complete_arcLow (r : Result) : (complete r).arcLow = r.state.arcLow := rfl
@[simp] theorem complete_arcHigh (r : Result) : (complete r).arcHigh = r.state.arcHigh := rfl
@[simp] theorem complete_arcScale (r : Result) : (complete r).arcScale = r.state.arcScale := rfl
@[simp] theorem complete_arcMid (r : Result) : (complete r).arcMid = r.state.arcMid := rfl
@[simp] theorem complete_inbuf (r : Result) : (complete r).inbuf = r.state.inbuf := rfl
@[simp] theorem complete_outbuf (r : Result) : (complete r).outbuf = r.state.outbuf := rfl
@[simp] theorem complete_hbuf (r : Result) : (complete r).hbuf = r.state.hbuf := rfl
@[simp] theorem complete_hufFreq (r : Result) : (complete r).hufFreq = r.state.hufFreq := rfl
@[simp] theorem complete_hufCode (r : Result) : (complete r).hufCode = r.state.hufCode := rfl
@[simp] theorem complete_hufClen (r : Result) : (complete r).hufClen = r.state.hufClen := rfl
@[simp] theorem complete_hufNode (r : Result) : (complete r).hufNode = r.state.hufNode := rfl
@[simp] theorem complete_arcFreq (r : Result) : (complete r).arcFreq = r.state.arcFreq := rfl
@[simp] theorem complete_arcCum (r : Result) : (complete r).arcCum = r.state.arcCum := rfl
@[simp] theorem complete_active (r : Result) : (complete r).active = r.state.active := rfl
@[simp] theorem complete_inReset (r : Result) : (complete r).inReset = r.state.inReset := rfl
@[simp] theorem complete_latency (r : Result) : (complete r).latency = r.state.latency := rfl
@[simp] theorem complete_draws (r : Result) : (complete r).draws = r.state.draws := rfl
@[simp] theorem complete_resets (r : Result) : (complete r).resets = r.state.resets := rfl
@[simp] theorem complete_host (r : Result) : (complete r).host = r.state.host := rfl
@[simp] theorem complete_hostPc (r : Result) : (complete r).hostPc = r.state.hostPc := rfl
@[simp] theorem complete_responses (r : Result) : (complete r).responses = r.state.responses := rfl

/-! ## `accept` -/

@[simp] theorem accept_ie (w : Word) (s : State) : (s.accept w).ie = s.ie := rfl
@[simp] theorem accept_busy (w : Word) (s : State) : (s.accept w).busy = true := rfl
@[simp] theorem accept_done (w : Word) (s : State) : (s.accept w).done = false := rfl
@[simp] theorem accept_wob (w : Word) (s : State) : (s.accept w).wob = s.wob := rfl
@[simp] theorem accept_err (w : Word) (s : State) : (s.accept w).err = .ok := rfl
@[simp] theorem accept_cmd (w : Word) (s : State) : (s.accept w).cmd = w := rfl
@[simp] theorem accept_inLen (w : Word) (s : State) : (s.accept w).inLen = s.inLen := rfl
@[simp] theorem accept_outLen (w : Word) (s : State) : (s.accept w).outLen = s.outLen := rfl
@[simp] theorem accept_hufStage (w : Word) (s : State) : (s.accept w).hufStage = s.hufStage := rfl
@[simp] theorem accept_hufNLeaf (w : Word) (s : State) : (s.accept w).hufNLeaf = s.hufNLeaf := rfl
@[simp] theorem accept_hufNNode (w : Word) (s : State) : (s.accept w).hufNNode = s.hufNNode := rfl
@[simp] theorem accept_hufRoot (w : Word) (s : State) : (s.accept w).hufRoot = s.hufRoot := rfl
@[simp] theorem accept_hufBitLen (w : Word) (s : State) : (s.accept w).hufBitLen = s.hufBitLen := rfl
@[simp] theorem accept_arcState (w : Word) (s : State) : (s.accept w).arcState = s.arcState := rfl
@[simp] theorem accept_arcN (w : Word) (s : State) : (s.accept w).arcN = s.arcN := rfl
@[simp] theorem accept_arcPos (w : Word) (s : State) : (s.accept w).arcPos = s.arcPos := rfl
@[simp] theorem accept_arcLow (w : Word) (s : State) : (s.accept w).arcLow = s.arcLow := rfl
@[simp] theorem accept_arcHigh (w : Word) (s : State) : (s.accept w).arcHigh = s.arcHigh := rfl
@[simp] theorem accept_arcScale (w : Word) (s : State) : (s.accept w).arcScale = s.arcScale := rfl
@[simp] theorem accept_arcMid (w : Word) (s : State) : (s.accept w).arcMid = s.arcMid := rfl
@[simp] theorem accept_inbuf (w : Word) (s : State) : (s.accept w).inbuf = s.inbuf := rfl
@[simp] theorem accept_outbuf (w : Word) (s : State) : (s.accept w).outbuf = s.outbuf := rfl
@[simp] theorem accept_hbuf (w : Word) (s : State) : (s.accept w).hbuf = s.hbuf := rfl
@[simp] theorem accept_hufFreq (w : Word) (s : State) : (s.accept w).hufFreq = s.hufFreq := rfl
@[simp] theorem accept_hufCode (w : Word) (s : State) : (s.accept w).hufCode = s.hufCode := rfl
@[simp] theorem accept_hufClen (w : Word) (s : State) : (s.accept w).hufClen = s.hufClen := rfl
@[simp] theorem accept_hufNode (w : Word) (s : State) : (s.accept w).hufNode = s.hufNode := rfl
@[simp] theorem accept_arcFreq (w : Word) (s : State) : (s.accept w).arcFreq = s.arcFreq := rfl
@[simp] theorem accept_arcCum (w : Word) (s : State) : (s.accept w).arcCum = s.arcCum := rfl
@[simp] theorem accept_active (w : Word) (s : State) : (s.accept w).active = s.active := rfl
@[simp] theorem accept_inReset (w : Word) (s : State) : (s.accept w).inReset = s.inReset := rfl
@[simp] theorem accept_latency (w : Word) (s : State) : (s.accept w).latency = Config.cmdLatency w s := rfl
@[simp] theorem accept_draws (w : Word) (s : State) : (s.accept w).draws = s.draws + 1 := rfl
@[simp] theorem accept_resets (w : Word) (s : State) : (s.accept w).resets = s.resets := rfl
@[simp] theorem accept_host (w : Word) (s : State) : (s.accept w).host = s.host := rfl
@[simp] theorem accept_hostPc (w : Word) (s : State) : (s.accept w).hostPc = s.hostPc := rfl
@[simp] theorem accept_responses (w : Word) (s : State) : (s.accept w).responses = s.responses := rfl

/-! ## `clearEngines` -/

@[simp] theorem clearEngines_ie (s : State) : (s.clearEngines).ie = s.ie := rfl
@[simp] theorem clearEngines_busy (s : State) : (s.clearEngines).busy = s.busy := rfl
@[simp] theorem clearEngines_done (s : State) : (s.clearEngines).done = s.done := rfl
@[simp] theorem clearEngines_wob (s : State) : (s.clearEngines).wob = s.wob := rfl
@[simp] theorem clearEngines_err (s : State) : (s.clearEngines).err = s.err := rfl
@[simp] theorem clearEngines_cmd (s : State) : (s.clearEngines).cmd = s.cmd := rfl
@[simp] theorem clearEngines_inLen (s : State) : (s.clearEngines).inLen = s.inLen := rfl
@[simp] theorem clearEngines_outLen (s : State) : (s.clearEngines).outLen = 0 := rfl
@[simp] theorem clearEngines_hufStage (s : State) : (s.clearEngines).hufStage = .none := rfl
@[simp] theorem clearEngines_hufNLeaf (s : State) : (s.clearEngines).hufNLeaf = 0 := rfl
@[simp] theorem clearEngines_hufNNode (s : State) : (s.clearEngines).hufNNode = 0 := rfl
@[simp] theorem clearEngines_hufRoot (s : State) : (s.clearEngines).hufRoot = 0 := rfl
@[simp] theorem clearEngines_hufBitLen (s : State) : (s.clearEngines).hufBitLen = 0 := rfl
@[simp] theorem clearEngines_arcState (s : State) : (s.clearEngines).arcState = .idle := rfl
@[simp] theorem clearEngines_arcN (s : State) : (s.clearEngines).arcN = 0 := rfl
@[simp] theorem clearEngines_arcPos (s : State) : (s.clearEngines).arcPos = 0 := rfl
@[simp] theorem clearEngines_arcLow (s : State) : (s.clearEngines).arcLow = 0 := rfl
@[simp] theorem clearEngines_arcHigh (s : State) : (s.clearEngines).arcHigh = 0 := rfl
@[simp] theorem clearEngines_arcScale (s : State) : (s.clearEngines).arcScale = 0 := rfl
@[simp] theorem clearEngines_arcMid (s : State) : (s.clearEngines).arcMid = 0 := rfl
@[simp] theorem clearEngines_inbuf (s : State) : (s.clearEngines).inbuf = s.inbuf := rfl
@[simp] theorem clearEngines_outbuf (s : State) : (s.clearEngines).outbuf = s.outbuf := rfl
@[simp] theorem clearEngines_hbuf (s : State) : (s.clearEngines).hbuf = s.hbuf := rfl
@[simp] theorem clearEngines_hufFreq (s : State) : (s.clearEngines).hufFreq = s.hufFreq := rfl
@[simp] theorem clearEngines_hufCode (s : State) : (s.clearEngines).hufCode = s.hufCode := rfl
@[simp] theorem clearEngines_hufClen (s : State) : (s.clearEngines).hufClen = s.hufClen := rfl
@[simp] theorem clearEngines_hufNode (s : State) : (s.clearEngines).hufNode = s.hufNode := rfl
@[simp] theorem clearEngines_arcFreq (s : State) : (s.clearEngines).arcFreq = s.arcFreq := rfl
@[simp] theorem clearEngines_arcCum (s : State) : (s.clearEngines).arcCum = s.arcCum := rfl
@[simp] theorem clearEngines_active (s : State) : (s.clearEngines).active = s.active := rfl
@[simp] theorem clearEngines_inReset (s : State) : (s.clearEngines).inReset = s.inReset := rfl
@[simp] theorem clearEngines_latency (s : State) : (s.clearEngines).latency = s.latency := rfl
@[simp] theorem clearEngines_draws (s : State) : (s.clearEngines).draws = s.draws := rfl
@[simp] theorem clearEngines_resets (s : State) : (s.clearEngines).resets = s.resets := rfl
@[simp] theorem clearEngines_host (s : State) : (s.clearEngines).host = s.host := rfl
@[simp] theorem clearEngines_hostPc (s : State) : (s.clearEngines).hostPc = s.hostPc := rfl
@[simp] theorem clearEngines_responses (s : State) : (s.clearEngines).responses = s.responses := rfl

/-! ## `changeRst` -/

@[simp] theorem changeRst_ie (l : Bool) (s : State) : (s.changeRst l).ie = false := rfl
@[simp] theorem changeRst_busy (l : Bool) (s : State) : (s.changeRst l).busy = false := rfl
@[simp] theorem changeRst_done (l : Bool) (s : State) : (s.changeRst l).done = false := rfl
@[simp] theorem changeRst_wob (l : Bool) (s : State) : (s.changeRst l).wob = false := rfl
@[simp] theorem changeRst_err (l : Bool) (s : State) : (s.changeRst l).err = .ok := rfl
@[simp] theorem changeRst_cmd (l : Bool) (s : State) : (s.changeRst l).cmd = 0 := rfl
@[simp] theorem changeRst_inLen (l : Bool) (s : State) : (s.changeRst l).inLen = 0 := rfl
@[simp] theorem changeRst_outLen (l : Bool) (s : State) : (s.changeRst l).outLen = 0 := rfl
@[simp] theorem changeRst_hufStage (l : Bool) (s : State) : (s.changeRst l).hufStage = .none := rfl
@[simp] theorem changeRst_hufNLeaf (l : Bool) (s : State) : (s.changeRst l).hufNLeaf = 0 := rfl
@[simp] theorem changeRst_hufNNode (l : Bool) (s : State) : (s.changeRst l).hufNNode = 0 := rfl
@[simp] theorem changeRst_hufRoot (l : Bool) (s : State) : (s.changeRst l).hufRoot = 0 := rfl
@[simp] theorem changeRst_hufBitLen (l : Bool) (s : State) : (s.changeRst l).hufBitLen = 0 := rfl
@[simp] theorem changeRst_arcState (l : Bool) (s : State) : (s.changeRst l).arcState = .idle := rfl
@[simp] theorem changeRst_arcN (l : Bool) (s : State) : (s.changeRst l).arcN = 0 := rfl
@[simp] theorem changeRst_arcPos (l : Bool) (s : State) : (s.changeRst l).arcPos = 0 := rfl
@[simp] theorem changeRst_arcLow (l : Bool) (s : State) : (s.changeRst l).arcLow = 0 := rfl
@[simp] theorem changeRst_arcHigh (l : Bool) (s : State) : (s.changeRst l).arcHigh = 0 := rfl
@[simp] theorem changeRst_arcScale (l : Bool) (s : State) : (s.changeRst l).arcScale = 0 := rfl
@[simp] theorem changeRst_arcMid (l : Bool) (s : State) : (s.changeRst l).arcMid = 0 := rfl
@[simp] theorem changeRst_inbuf (l : Bool) (s : State) : (s.changeRst l).inbuf = [] := rfl
@[simp] theorem changeRst_outbuf (l : Bool) (s : State) : (s.changeRst l).outbuf = [] := rfl
@[simp] theorem changeRst_hbuf (l : Bool) (s : State) : (s.changeRst l).hbuf = [] := rfl
@[simp] theorem changeRst_hufFreq (l : Bool) (s : State) : (s.changeRst l).hufFreq = [] := rfl
@[simp] theorem changeRst_hufCode (l : Bool) (s : State) : (s.changeRst l).hufCode = [] := rfl
@[simp] theorem changeRst_hufClen (l : Bool) (s : State) : (s.changeRst l).hufClen = [] := rfl
@[simp] theorem changeRst_hufNode (l : Bool) (s : State) : (s.changeRst l).hufNode = [] := rfl
@[simp] theorem changeRst_arcFreq (l : Bool) (s : State) : (s.changeRst l).arcFreq = [] := rfl
@[simp] theorem changeRst_arcCum (l : Bool) (s : State) : (s.changeRst l).arcCum = [] := rfl
@[simp] theorem changeRst_active (l : Bool) (s : State) : (s.changeRst l).active = [] := rfl
@[simp] theorem changeRst_inReset (l : Bool) (s : State) : (s.changeRst l).inReset = l := rfl
@[simp] theorem changeRst_latency (l : Bool) (s : State) : (s.changeRst l).latency = 0 := rfl
@[simp] theorem changeRst_draws (l : Bool) (s : State) : (s.changeRst l).draws = s.draws := rfl
@[simp] theorem changeRst_resets (l : Bool) (s : State) : (s.changeRst l).resets = s.resets + 1 := rfl
@[simp] theorem changeRst_host (l : Bool) (s : State) : (s.changeRst l).host = s.host := rfl
@[simp] theorem changeRst_hostPc (l : Bool) (s : State) : (s.changeRst l).hostPc = s.hostPc := rfl
@[simp] theorem changeRst_responses (l : Bool) (s : State) : (s.changeRst l).responses = s.responses := rfl

/-! ## `setRst` -/

@[simp] theorem setRst_same (s : State) : s.setRst s.inReset = s := if_pos rfl

theorem setRst_change {l : Bool} {s : State} (h : l ≠ s.inReset) : s.setRst l = s.changeRst l := if_neg h

/-- `RST` has the level that was set, whether it changed or not. -/
@[simp] theorem setRst_inReset (l : Bool) (s : State) : (s.setRst l).inReset = l := by
  unfold State.setRst
  split
  · rename_i h; exact h.symm
  · rfl

@[simp] theorem setRst_host (l : Bool) (s : State) : (s.setRst l).host = s.host := by
  unfold State.setRst
  split <;> rfl

@[simp] theorem setRst_responses (l : Bool) (s : State) : (s.setRst l).responses = s.responses := by
  unfold State.setRst
  split <;> rfl

/-! ## `writeStatus` -/

@[simp] theorem writeStatus_ie (v : Word) (s : State) : (s.writeStatus v).ie = s.ie := rfl
@[simp] theorem writeStatus_busy (v : Word) (s : State) : (s.writeStatus v).busy = s.busy := rfl
@[simp] theorem writeStatus_done (v : Word) (s : State) : (s.writeStatus v).done = (s.done && !v.getLsbD 1) := rfl
@[simp] theorem writeStatus_wob (v : Word) (s : State) : (s.writeStatus v).wob = (s.wob && !v.getLsbD 2) := rfl
@[simp] theorem writeStatus_err (v : Word) (s : State) : (s.writeStatus v).err = s.err := rfl
@[simp] theorem writeStatus_cmd (v : Word) (s : State) : (s.writeStatus v).cmd = s.cmd := rfl
@[simp] theorem writeStatus_inLen (v : Word) (s : State) : (s.writeStatus v).inLen = s.inLen := rfl
@[simp] theorem writeStatus_outLen (v : Word) (s : State) : (s.writeStatus v).outLen = s.outLen := rfl
@[simp] theorem writeStatus_hufStage (v : Word) (s : State) : (s.writeStatus v).hufStage = s.hufStage := rfl
@[simp] theorem writeStatus_hufNLeaf (v : Word) (s : State) : (s.writeStatus v).hufNLeaf = s.hufNLeaf := rfl
@[simp] theorem writeStatus_hufNNode (v : Word) (s : State) : (s.writeStatus v).hufNNode = s.hufNNode := rfl
@[simp] theorem writeStatus_hufRoot (v : Word) (s : State) : (s.writeStatus v).hufRoot = s.hufRoot := rfl
@[simp] theorem writeStatus_hufBitLen (v : Word) (s : State) : (s.writeStatus v).hufBitLen = s.hufBitLen := rfl
@[simp] theorem writeStatus_arcState (v : Word) (s : State) : (s.writeStatus v).arcState = s.arcState := rfl
@[simp] theorem writeStatus_arcN (v : Word) (s : State) : (s.writeStatus v).arcN = s.arcN := rfl
@[simp] theorem writeStatus_arcPos (v : Word) (s : State) : (s.writeStatus v).arcPos = s.arcPos := rfl
@[simp] theorem writeStatus_arcLow (v : Word) (s : State) : (s.writeStatus v).arcLow = s.arcLow := rfl
@[simp] theorem writeStatus_arcHigh (v : Word) (s : State) : (s.writeStatus v).arcHigh = s.arcHigh := rfl
@[simp] theorem writeStatus_arcScale (v : Word) (s : State) : (s.writeStatus v).arcScale = s.arcScale := rfl
@[simp] theorem writeStatus_arcMid (v : Word) (s : State) : (s.writeStatus v).arcMid = s.arcMid := rfl
@[simp] theorem writeStatus_inbuf (v : Word) (s : State) : (s.writeStatus v).inbuf = s.inbuf := rfl
@[simp] theorem writeStatus_outbuf (v : Word) (s : State) : (s.writeStatus v).outbuf = s.outbuf := rfl
@[simp] theorem writeStatus_hbuf (v : Word) (s : State) : (s.writeStatus v).hbuf = s.hbuf := rfl
@[simp] theorem writeStatus_hufFreq (v : Word) (s : State) : (s.writeStatus v).hufFreq = s.hufFreq := rfl
@[simp] theorem writeStatus_hufCode (v : Word) (s : State) : (s.writeStatus v).hufCode = s.hufCode := rfl
@[simp] theorem writeStatus_hufClen (v : Word) (s : State) : (s.writeStatus v).hufClen = s.hufClen := rfl
@[simp] theorem writeStatus_hufNode (v : Word) (s : State) : (s.writeStatus v).hufNode = s.hufNode := rfl
@[simp] theorem writeStatus_arcFreq (v : Word) (s : State) : (s.writeStatus v).arcFreq = s.arcFreq := rfl
@[simp] theorem writeStatus_arcCum (v : Word) (s : State) : (s.writeStatus v).arcCum = s.arcCum := rfl
@[simp] theorem writeStatus_active (v : Word) (s : State) : (s.writeStatus v).active = s.active := rfl
@[simp] theorem writeStatus_inReset (v : Word) (s : State) : (s.writeStatus v).inReset = s.inReset := rfl
@[simp] theorem writeStatus_latency (v : Word) (s : State) : (s.writeStatus v).latency = s.latency := rfl
@[simp] theorem writeStatus_draws (v : Word) (s : State) : (s.writeStatus v).draws = s.draws := rfl
@[simp] theorem writeStatus_resets (v : Word) (s : State) : (s.writeStatus v).resets = s.resets := rfl
@[simp] theorem writeStatus_host (v : Word) (s : State) : (s.writeStatus v).host = s.host := rfl
@[simp] theorem writeStatus_hostPc (v : Word) (s : State) : (s.writeStatus v).hostPc = s.hostPc := rfl
@[simp] theorem writeStatus_responses (v : Word) (s : State) : (s.writeStatus v).responses = s.responses := rfl

/-! ## `writeCtrl` -/

@[simp] theorem writeCtrl_ie (v : Word) (s : State) : (s.writeCtrl v).ie = v.getLsbD 0 := rfl
@[simp] theorem writeCtrl_busy (v : Word) (s : State) : (s.writeCtrl v).busy = s.busy := rfl
@[simp] theorem writeCtrl_done (v : Word) (s : State) : (s.writeCtrl v).done = s.done := rfl
@[simp] theorem writeCtrl_wob (v : Word) (s : State) : (s.writeCtrl v).wob = s.wob := rfl
@[simp] theorem writeCtrl_err (v : Word) (s : State) : (s.writeCtrl v).err = s.err := rfl
@[simp] theorem writeCtrl_cmd (v : Word) (s : State) : (s.writeCtrl v).cmd = s.cmd := rfl
@[simp] theorem writeCtrl_inLen (v : Word) (s : State) : (s.writeCtrl v).inLen = s.inLen := rfl
@[simp] theorem writeCtrl_outLen (v : Word) (s : State) : (s.writeCtrl v).outLen = s.outLen := rfl
@[simp] theorem writeCtrl_hufStage (v : Word) (s : State) : (s.writeCtrl v).hufStage = s.hufStage := rfl
@[simp] theorem writeCtrl_hufNLeaf (v : Word) (s : State) : (s.writeCtrl v).hufNLeaf = s.hufNLeaf := rfl
@[simp] theorem writeCtrl_hufNNode (v : Word) (s : State) : (s.writeCtrl v).hufNNode = s.hufNNode := rfl
@[simp] theorem writeCtrl_hufRoot (v : Word) (s : State) : (s.writeCtrl v).hufRoot = s.hufRoot := rfl
@[simp] theorem writeCtrl_hufBitLen (v : Word) (s : State) : (s.writeCtrl v).hufBitLen = s.hufBitLen := rfl
@[simp] theorem writeCtrl_arcState (v : Word) (s : State) : (s.writeCtrl v).arcState = s.arcState := rfl
@[simp] theorem writeCtrl_arcN (v : Word) (s : State) : (s.writeCtrl v).arcN = s.arcN := rfl
@[simp] theorem writeCtrl_arcPos (v : Word) (s : State) : (s.writeCtrl v).arcPos = s.arcPos := rfl
@[simp] theorem writeCtrl_arcLow (v : Word) (s : State) : (s.writeCtrl v).arcLow = s.arcLow := rfl
@[simp] theorem writeCtrl_arcHigh (v : Word) (s : State) : (s.writeCtrl v).arcHigh = s.arcHigh := rfl
@[simp] theorem writeCtrl_arcScale (v : Word) (s : State) : (s.writeCtrl v).arcScale = s.arcScale := rfl
@[simp] theorem writeCtrl_arcMid (v : Word) (s : State) : (s.writeCtrl v).arcMid = s.arcMid := rfl
@[simp] theorem writeCtrl_inbuf (v : Word) (s : State) : (s.writeCtrl v).inbuf = s.inbuf := rfl
@[simp] theorem writeCtrl_outbuf (v : Word) (s : State) : (s.writeCtrl v).outbuf = s.outbuf := rfl
@[simp] theorem writeCtrl_hbuf (v : Word) (s : State) : (s.writeCtrl v).hbuf = s.hbuf := rfl
@[simp] theorem writeCtrl_hufFreq (v : Word) (s : State) : (s.writeCtrl v).hufFreq = s.hufFreq := rfl
@[simp] theorem writeCtrl_hufCode (v : Word) (s : State) : (s.writeCtrl v).hufCode = s.hufCode := rfl
@[simp] theorem writeCtrl_hufClen (v : Word) (s : State) : (s.writeCtrl v).hufClen = s.hufClen := rfl
@[simp] theorem writeCtrl_hufNode (v : Word) (s : State) : (s.writeCtrl v).hufNode = s.hufNode := rfl
@[simp] theorem writeCtrl_arcFreq (v : Word) (s : State) : (s.writeCtrl v).arcFreq = s.arcFreq := rfl
@[simp] theorem writeCtrl_arcCum (v : Word) (s : State) : (s.writeCtrl v).arcCum = s.arcCum := rfl
@[simp] theorem writeCtrl_active (v : Word) (s : State) : (s.writeCtrl v).active = s.active := rfl
@[simp] theorem writeCtrl_inReset (v : Word) (s : State) : (s.writeCtrl v).inReset = s.inReset := rfl
@[simp] theorem writeCtrl_latency (v : Word) (s : State) : (s.writeCtrl v).latency = s.latency := rfl
@[simp] theorem writeCtrl_draws (v : Word) (s : State) : (s.writeCtrl v).draws = s.draws := rfl
@[simp] theorem writeCtrl_resets (v : Word) (s : State) : (s.writeCtrl v).resets = s.resets := rfl
@[simp] theorem writeCtrl_host (v : Word) (s : State) : (s.writeCtrl v).host = s.host := rfl
@[simp] theorem writeCtrl_hostPc (v : Word) (s : State) : (s.writeCtrl v).hostPc = s.hostPc := rfl
@[simp] theorem writeCtrl_responses (v : Word) (s : State) : (s.writeCtrl v).responses = s.responses := rfl

/-! ## `setWob` -/

@[simp] theorem setWob_ie (s : State) : (s.setWob).ie = s.ie := rfl
@[simp] theorem setWob_busy (s : State) : (s.setWob).busy = s.busy := rfl
@[simp] theorem setWob_done (s : State) : (s.setWob).done = s.done := rfl
@[simp] theorem setWob_wob (s : State) : (s.setWob).wob = true := rfl
@[simp] theorem setWob_err (s : State) : (s.setWob).err = s.err := rfl
@[simp] theorem setWob_cmd (s : State) : (s.setWob).cmd = s.cmd := rfl
@[simp] theorem setWob_inLen (s : State) : (s.setWob).inLen = s.inLen := rfl
@[simp] theorem setWob_outLen (s : State) : (s.setWob).outLen = s.outLen := rfl
@[simp] theorem setWob_hufStage (s : State) : (s.setWob).hufStage = s.hufStage := rfl
@[simp] theorem setWob_hufNLeaf (s : State) : (s.setWob).hufNLeaf = s.hufNLeaf := rfl
@[simp] theorem setWob_hufNNode (s : State) : (s.setWob).hufNNode = s.hufNNode := rfl
@[simp] theorem setWob_hufRoot (s : State) : (s.setWob).hufRoot = s.hufRoot := rfl
@[simp] theorem setWob_hufBitLen (s : State) : (s.setWob).hufBitLen = s.hufBitLen := rfl
@[simp] theorem setWob_arcState (s : State) : (s.setWob).arcState = s.arcState := rfl
@[simp] theorem setWob_arcN (s : State) : (s.setWob).arcN = s.arcN := rfl
@[simp] theorem setWob_arcPos (s : State) : (s.setWob).arcPos = s.arcPos := rfl
@[simp] theorem setWob_arcLow (s : State) : (s.setWob).arcLow = s.arcLow := rfl
@[simp] theorem setWob_arcHigh (s : State) : (s.setWob).arcHigh = s.arcHigh := rfl
@[simp] theorem setWob_arcScale (s : State) : (s.setWob).arcScale = s.arcScale := rfl
@[simp] theorem setWob_arcMid (s : State) : (s.setWob).arcMid = s.arcMid := rfl
@[simp] theorem setWob_inbuf (s : State) : (s.setWob).inbuf = s.inbuf := rfl
@[simp] theorem setWob_outbuf (s : State) : (s.setWob).outbuf = s.outbuf := rfl
@[simp] theorem setWob_hbuf (s : State) : (s.setWob).hbuf = s.hbuf := rfl
@[simp] theorem setWob_hufFreq (s : State) : (s.setWob).hufFreq = s.hufFreq := rfl
@[simp] theorem setWob_hufCode (s : State) : (s.setWob).hufCode = s.hufCode := rfl
@[simp] theorem setWob_hufClen (s : State) : (s.setWob).hufClen = s.hufClen := rfl
@[simp] theorem setWob_hufNode (s : State) : (s.setWob).hufNode = s.hufNode := rfl
@[simp] theorem setWob_arcFreq (s : State) : (s.setWob).arcFreq = s.arcFreq := rfl
@[simp] theorem setWob_arcCum (s : State) : (s.setWob).arcCum = s.arcCum := rfl
@[simp] theorem setWob_active (s : State) : (s.setWob).active = s.active := rfl
@[simp] theorem setWob_inReset (s : State) : (s.setWob).inReset = s.inReset := rfl
@[simp] theorem setWob_latency (s : State) : (s.setWob).latency = s.latency := rfl
@[simp] theorem setWob_draws (s : State) : (s.setWob).draws = s.draws := rfl
@[simp] theorem setWob_resets (s : State) : (s.setWob).resets = s.resets := rfl
@[simp] theorem setWob_host (s : State) : (s.setWob).host = s.host := rfl
@[simp] theorem setWob_hostPc (s : State) : (s.setWob).hostPc = s.hostPc := rfl
@[simp] theorem setWob_responses (s : State) : (s.setWob).responses = s.responses := rfl

/-! ## `writeInWord` -/

@[simp] theorem writeInWord_ie (off : Nat) (v : Word) (s : State) : (s.writeInWord off v).ie = s.ie := rfl
@[simp] theorem writeInWord_busy (off : Nat) (v : Word) (s : State) : (s.writeInWord off v).busy = s.busy := rfl
@[simp] theorem writeInWord_done (off : Nat) (v : Word) (s : State) : (s.writeInWord off v).done = s.done := rfl
@[simp] theorem writeInWord_wob (off : Nat) (v : Word) (s : State) : (s.writeInWord off v).wob = s.wob := rfl
@[simp] theorem writeInWord_err (off : Nat) (v : Word) (s : State) : (s.writeInWord off v).err = s.err := rfl
@[simp] theorem writeInWord_cmd (off : Nat) (v : Word) (s : State) : (s.writeInWord off v).cmd = s.cmd := rfl
@[simp] theorem writeInWord_inLen (off : Nat) (v : Word) (s : State) : (s.writeInWord off v).inLen = s.inLen := rfl
@[simp] theorem writeInWord_outLen (off : Nat) (v : Word) (s : State) : (s.writeInWord off v).outLen = s.outLen := rfl
@[simp] theorem writeInWord_hufStage (off : Nat) (v : Word) (s : State) : (s.writeInWord off v).hufStage = s.hufStage := rfl
@[simp] theorem writeInWord_hufNLeaf (off : Nat) (v : Word) (s : State) : (s.writeInWord off v).hufNLeaf = s.hufNLeaf := rfl
@[simp] theorem writeInWord_hufNNode (off : Nat) (v : Word) (s : State) : (s.writeInWord off v).hufNNode = s.hufNNode := rfl
@[simp] theorem writeInWord_hufRoot (off : Nat) (v : Word) (s : State) : (s.writeInWord off v).hufRoot = s.hufRoot := rfl
@[simp] theorem writeInWord_hufBitLen (off : Nat) (v : Word) (s : State) : (s.writeInWord off v).hufBitLen = s.hufBitLen := rfl
@[simp] theorem writeInWord_arcState (off : Nat) (v : Word) (s : State) : (s.writeInWord off v).arcState = s.arcState := rfl
@[simp] theorem writeInWord_arcN (off : Nat) (v : Word) (s : State) : (s.writeInWord off v).arcN = s.arcN := rfl
@[simp] theorem writeInWord_arcPos (off : Nat) (v : Word) (s : State) : (s.writeInWord off v).arcPos = s.arcPos := rfl
@[simp] theorem writeInWord_arcLow (off : Nat) (v : Word) (s : State) : (s.writeInWord off v).arcLow = s.arcLow := rfl
@[simp] theorem writeInWord_arcHigh (off : Nat) (v : Word) (s : State) : (s.writeInWord off v).arcHigh = s.arcHigh := rfl
@[simp] theorem writeInWord_arcScale (off : Nat) (v : Word) (s : State) : (s.writeInWord off v).arcScale = s.arcScale := rfl
@[simp] theorem writeInWord_arcMid (off : Nat) (v : Word) (s : State) : (s.writeInWord off v).arcMid = s.arcMid := rfl
@[simp] theorem writeInWord_inbuf (off : Nat) (v : Word) (s : State) : (s.writeInWord off v).inbuf = Memory.write (off + 3) (v.extractLsb' 24 8) (Memory.write (off + 2) (v.extractLsb' 16 8)
      (Memory.write (off + 1) (v.extractLsb' 8 8) (Memory.write off (v.extractLsb' 0 8) s.inbuf))) := rfl
@[simp] theorem writeInWord_outbuf (off : Nat) (v : Word) (s : State) : (s.writeInWord off v).outbuf = s.outbuf := rfl
@[simp] theorem writeInWord_hbuf (off : Nat) (v : Word) (s : State) : (s.writeInWord off v).hbuf = s.hbuf := rfl
@[simp] theorem writeInWord_hufFreq (off : Nat) (v : Word) (s : State) : (s.writeInWord off v).hufFreq = s.hufFreq := rfl
@[simp] theorem writeInWord_hufCode (off : Nat) (v : Word) (s : State) : (s.writeInWord off v).hufCode = s.hufCode := rfl
@[simp] theorem writeInWord_hufClen (off : Nat) (v : Word) (s : State) : (s.writeInWord off v).hufClen = s.hufClen := rfl
@[simp] theorem writeInWord_hufNode (off : Nat) (v : Word) (s : State) : (s.writeInWord off v).hufNode = s.hufNode := rfl
@[simp] theorem writeInWord_arcFreq (off : Nat) (v : Word) (s : State) : (s.writeInWord off v).arcFreq = s.arcFreq := rfl
@[simp] theorem writeInWord_arcCum (off : Nat) (v : Word) (s : State) : (s.writeInWord off v).arcCum = s.arcCum := rfl
@[simp] theorem writeInWord_active (off : Nat) (v : Word) (s : State) : (s.writeInWord off v).active = s.active := rfl
@[simp] theorem writeInWord_inReset (off : Nat) (v : Word) (s : State) : (s.writeInWord off v).inReset = s.inReset := rfl
@[simp] theorem writeInWord_latency (off : Nat) (v : Word) (s : State) : (s.writeInWord off v).latency = s.latency := rfl
@[simp] theorem writeInWord_draws (off : Nat) (v : Word) (s : State) : (s.writeInWord off v).draws = s.draws := rfl
@[simp] theorem writeInWord_resets (off : Nat) (v : Word) (s : State) : (s.writeInWord off v).resets = s.resets := rfl
@[simp] theorem writeInWord_host (off : Nat) (v : Word) (s : State) : (s.writeInWord off v).host = s.host := rfl
@[simp] theorem writeInWord_hostPc (off : Nat) (v : Word) (s : State) : (s.writeInWord off v).hostPc = s.hostPc := rfl
@[simp] theorem writeInWord_responses (off : Nat) (v : Word) (s : State) : (s.writeInWord off v).responses = s.responses := rfl

/-! ## `narrow` -/

@[simp] theorem narrow_ie (s : State) (c : Byte) : (s.narrow c).ie = s.ie := rfl
@[simp] theorem narrow_busy (s : State) (c : Byte) : (s.narrow c).busy = s.busy := rfl
@[simp] theorem narrow_done (s : State) (c : Byte) : (s.narrow c).done = s.done := rfl
@[simp] theorem narrow_wob (s : State) (c : Byte) : (s.narrow c).wob = s.wob := rfl
@[simp] theorem narrow_err (s : State) (c : Byte) : (s.narrow c).err = s.err := rfl
@[simp] theorem narrow_cmd (s : State) (c : Byte) : (s.narrow c).cmd = s.cmd := rfl
@[simp] theorem narrow_inLen (s : State) (c : Byte) : (s.narrow c).inLen = s.inLen := rfl
@[simp] theorem narrow_outLen (s : State) (c : Byte) : (s.narrow c).outLen = s.outLen := rfl
@[simp] theorem narrow_hufStage (s : State) (c : Byte) : (s.narrow c).hufStage = s.hufStage := rfl
@[simp] theorem narrow_hufNLeaf (s : State) (c : Byte) : (s.narrow c).hufNLeaf = s.hufNLeaf := rfl
@[simp] theorem narrow_hufNNode (s : State) (c : Byte) : (s.narrow c).hufNNode = s.hufNNode := rfl
@[simp] theorem narrow_hufRoot (s : State) (c : Byte) : (s.narrow c).hufRoot = s.hufRoot := rfl
@[simp] theorem narrow_hufBitLen (s : State) (c : Byte) : (s.narrow c).hufBitLen = s.hufBitLen := rfl
@[simp] theorem narrow_arcState (s : State) (c : Byte) : (s.narrow c).arcState = s.arcState := rfl
@[simp] theorem narrow_arcN (s : State) (c : Byte) : (s.narrow c).arcN = s.arcN := rfl
@[simp] theorem narrow_arcPos (s : State) (c : Byte) : (s.narrow c).arcPos = s.arcPos + 1 := rfl
@[simp] theorem narrow_arcLow (s : State) (c : Byte) : (s.narrow c).arcLow = wideOf (s.arcLow.toNat * s.arcN.toNat
      + (s.arcHigh.toNat - s.arcLow.toNat) * (s.arcCumAt c.toNat).toNat) := rfl
@[simp] theorem narrow_arcHigh (s : State) (c : Byte) : (s.narrow c).arcHigh = wideOf (s.arcLow.toNat * s.arcN.toNat
      + (s.arcHigh.toNat - s.arcLow.toNat) * ((s.arcCumAt c.toNat).toNat + (s.arcFreqAt c.toNat).toNat)) := rfl
@[simp] theorem narrow_arcScale (s : State) (c : Byte) : (s.narrow c).arcScale = wideOf (s.arcScale.toNat * s.arcN.toNat) := rfl
@[simp] theorem narrow_arcMid (s : State) (c : Byte) : (s.narrow c).arcMid = s.arcMid := rfl
@[simp] theorem narrow_inbuf (s : State) (c : Byte) : (s.narrow c).inbuf = s.inbuf := rfl
@[simp] theorem narrow_outbuf (s : State) (c : Byte) : (s.narrow c).outbuf = s.outbuf := rfl
@[simp] theorem narrow_hbuf (s : State) (c : Byte) : (s.narrow c).hbuf = s.hbuf := rfl
@[simp] theorem narrow_hufFreq (s : State) (c : Byte) : (s.narrow c).hufFreq = s.hufFreq := rfl
@[simp] theorem narrow_hufCode (s : State) (c : Byte) : (s.narrow c).hufCode = s.hufCode := rfl
@[simp] theorem narrow_hufClen (s : State) (c : Byte) : (s.narrow c).hufClen = s.hufClen := rfl
@[simp] theorem narrow_hufNode (s : State) (c : Byte) : (s.narrow c).hufNode = s.hufNode := rfl
@[simp] theorem narrow_arcFreq (s : State) (c : Byte) : (s.narrow c).arcFreq = s.arcFreq := rfl
@[simp] theorem narrow_arcCum (s : State) (c : Byte) : (s.narrow c).arcCum = s.arcCum := rfl
@[simp] theorem narrow_active (s : State) (c : Byte) : (s.narrow c).active = s.active := rfl
@[simp] theorem narrow_inReset (s : State) (c : Byte) : (s.narrow c).inReset = s.inReset := rfl
@[simp] theorem narrow_latency (s : State) (c : Byte) : (s.narrow c).latency = s.latency := rfl
@[simp] theorem narrow_draws (s : State) (c : Byte) : (s.narrow c).draws = s.draws := rfl
@[simp] theorem narrow_resets (s : State) (c : Byte) : (s.narrow c).resets = s.resets := rfl
@[simp] theorem narrow_host (s : State) (c : Byte) : (s.narrow c).host = s.host := rfl
@[simp] theorem narrow_hostPc (s : State) (c : Byte) : (s.narrow c).hostPc = s.hostPc := rfl
@[simp] theorem narrow_responses (s : State) (c : Byte) : (s.narrow c).responses = s.responses := rfl

/-! ## `answer` -/

@[simp] theorem answer_ie (pc : Nat) (r : Response) (s : State) : (s.answer pc r).ie = s.ie := rfl
@[simp] theorem answer_busy (pc : Nat) (r : Response) (s : State) : (s.answer pc r).busy = s.busy := rfl
@[simp] theorem answer_done (pc : Nat) (r : Response) (s : State) : (s.answer pc r).done = s.done := rfl
@[simp] theorem answer_wob (pc : Nat) (r : Response) (s : State) : (s.answer pc r).wob = s.wob := rfl
@[simp] theorem answer_err (pc : Nat) (r : Response) (s : State) : (s.answer pc r).err = s.err := rfl
@[simp] theorem answer_cmd (pc : Nat) (r : Response) (s : State) : (s.answer pc r).cmd = s.cmd := rfl
@[simp] theorem answer_inLen (pc : Nat) (r : Response) (s : State) : (s.answer pc r).inLen = s.inLen := rfl
@[simp] theorem answer_outLen (pc : Nat) (r : Response) (s : State) : (s.answer pc r).outLen = s.outLen := rfl
@[simp] theorem answer_hufStage (pc : Nat) (r : Response) (s : State) : (s.answer pc r).hufStage = s.hufStage := rfl
@[simp] theorem answer_hufNLeaf (pc : Nat) (r : Response) (s : State) : (s.answer pc r).hufNLeaf = s.hufNLeaf := rfl
@[simp] theorem answer_hufNNode (pc : Nat) (r : Response) (s : State) : (s.answer pc r).hufNNode = s.hufNNode := rfl
@[simp] theorem answer_hufRoot (pc : Nat) (r : Response) (s : State) : (s.answer pc r).hufRoot = s.hufRoot := rfl
@[simp] theorem answer_hufBitLen (pc : Nat) (r : Response) (s : State) : (s.answer pc r).hufBitLen = s.hufBitLen := rfl
@[simp] theorem answer_arcState (pc : Nat) (r : Response) (s : State) : (s.answer pc r).arcState = s.arcState := rfl
@[simp] theorem answer_arcN (pc : Nat) (r : Response) (s : State) : (s.answer pc r).arcN = s.arcN := rfl
@[simp] theorem answer_arcPos (pc : Nat) (r : Response) (s : State) : (s.answer pc r).arcPos = s.arcPos := rfl
@[simp] theorem answer_arcLow (pc : Nat) (r : Response) (s : State) : (s.answer pc r).arcLow = s.arcLow := rfl
@[simp] theorem answer_arcHigh (pc : Nat) (r : Response) (s : State) : (s.answer pc r).arcHigh = s.arcHigh := rfl
@[simp] theorem answer_arcScale (pc : Nat) (r : Response) (s : State) : (s.answer pc r).arcScale = s.arcScale := rfl
@[simp] theorem answer_arcMid (pc : Nat) (r : Response) (s : State) : (s.answer pc r).arcMid = s.arcMid := rfl
@[simp] theorem answer_inbuf (pc : Nat) (r : Response) (s : State) : (s.answer pc r).inbuf = s.inbuf := rfl
@[simp] theorem answer_outbuf (pc : Nat) (r : Response) (s : State) : (s.answer pc r).outbuf = s.outbuf := rfl
@[simp] theorem answer_hbuf (pc : Nat) (r : Response) (s : State) : (s.answer pc r).hbuf = s.hbuf := rfl
@[simp] theorem answer_hufFreq (pc : Nat) (r : Response) (s : State) : (s.answer pc r).hufFreq = s.hufFreq := rfl
@[simp] theorem answer_hufCode (pc : Nat) (r : Response) (s : State) : (s.answer pc r).hufCode = s.hufCode := rfl
@[simp] theorem answer_hufClen (pc : Nat) (r : Response) (s : State) : (s.answer pc r).hufClen = s.hufClen := rfl
@[simp] theorem answer_hufNode (pc : Nat) (r : Response) (s : State) : (s.answer pc r).hufNode = s.hufNode := rfl
@[simp] theorem answer_arcFreq (pc : Nat) (r : Response) (s : State) : (s.answer pc r).arcFreq = s.arcFreq := rfl
@[simp] theorem answer_arcCum (pc : Nat) (r : Response) (s : State) : (s.answer pc r).arcCum = s.arcCum := rfl
@[simp] theorem answer_active (pc : Nat) (r : Response) (s : State) : (s.answer pc r).active = s.active := rfl
@[simp] theorem answer_inReset (pc : Nat) (r : Response) (s : State) : (s.answer pc r).inReset = s.inReset := rfl
@[simp] theorem answer_latency (pc : Nat) (r : Response) (s : State) : (s.answer pc r).latency = s.latency := rfl
@[simp] theorem answer_draws (pc : Nat) (r : Response) (s : State) : (s.answer pc r).draws = s.draws := rfl
@[simp] theorem answer_resets (pc : Nat) (r : Response) (s : State) : (s.answer pc r).resets = s.resets := rfl
@[simp] theorem answer_host (pc : Nat) (r : Response) (s : State) : (s.answer pc r).host = s.host := rfl
@[simp] theorem answer_hostPc (pc : Nat) (r : Response) (s : State) : (s.answer pc r).hostPc = pc := rfl
@[simp] theorem answer_responses (pc : Nat) (r : Response) (s : State) : (s.answer pc r).responses = s.responses ++ [r] := rfl

/-! ## `tick` -/

@[simp] theorem tick_ie (s : State) : (s.tick).ie = s.ie := rfl
@[simp] theorem tick_busy (s : State) : (s.tick).busy = s.busy := rfl
@[simp] theorem tick_done (s : State) : (s.tick).done = s.done := rfl
@[simp] theorem tick_wob (s : State) : (s.tick).wob = s.wob := rfl
@[simp] theorem tick_err (s : State) : (s.tick).err = s.err := rfl
@[simp] theorem tick_cmd (s : State) : (s.tick).cmd = s.cmd := rfl
@[simp] theorem tick_inLen (s : State) : (s.tick).inLen = s.inLen := rfl
@[simp] theorem tick_outLen (s : State) : (s.tick).outLen = s.outLen := rfl
@[simp] theorem tick_hufStage (s : State) : (s.tick).hufStage = s.hufStage := rfl
@[simp] theorem tick_hufNLeaf (s : State) : (s.tick).hufNLeaf = s.hufNLeaf := rfl
@[simp] theorem tick_hufNNode (s : State) : (s.tick).hufNNode = s.hufNNode := rfl
@[simp] theorem tick_hufRoot (s : State) : (s.tick).hufRoot = s.hufRoot := rfl
@[simp] theorem tick_hufBitLen (s : State) : (s.tick).hufBitLen = s.hufBitLen := rfl
@[simp] theorem tick_arcState (s : State) : (s.tick).arcState = s.arcState := rfl
@[simp] theorem tick_arcN (s : State) : (s.tick).arcN = s.arcN := rfl
@[simp] theorem tick_arcPos (s : State) : (s.tick).arcPos = s.arcPos := rfl
@[simp] theorem tick_arcLow (s : State) : (s.tick).arcLow = s.arcLow := rfl
@[simp] theorem tick_arcHigh (s : State) : (s.tick).arcHigh = s.arcHigh := rfl
@[simp] theorem tick_arcScale (s : State) : (s.tick).arcScale = s.arcScale := rfl
@[simp] theorem tick_arcMid (s : State) : (s.tick).arcMid = s.arcMid := rfl
@[simp] theorem tick_inbuf (s : State) : (s.tick).inbuf = s.inbuf := rfl
@[simp] theorem tick_outbuf (s : State) : (s.tick).outbuf = s.outbuf := rfl
@[simp] theorem tick_hbuf (s : State) : (s.tick).hbuf = s.hbuf := rfl
@[simp] theorem tick_hufFreq (s : State) : (s.tick).hufFreq = s.hufFreq := rfl
@[simp] theorem tick_hufCode (s : State) : (s.tick).hufCode = s.hufCode := rfl
@[simp] theorem tick_hufClen (s : State) : (s.tick).hufClen = s.hufClen := rfl
@[simp] theorem tick_hufNode (s : State) : (s.tick).hufNode = s.hufNode := rfl
@[simp] theorem tick_arcFreq (s : State) : (s.tick).arcFreq = s.arcFreq := rfl
@[simp] theorem tick_arcCum (s : State) : (s.tick).arcCum = s.arcCum := rfl
@[simp] theorem tick_active (s : State) : (s.tick).active = s.active := rfl
@[simp] theorem tick_inReset (s : State) : (s.tick).inReset = s.inReset := rfl
@[simp] theorem tick_latency (s : State) : (s.tick).latency = s.latency - 1 := rfl
@[simp] theorem tick_draws (s : State) : (s.tick).draws = s.draws := rfl
@[simp] theorem tick_resets (s : State) : (s.tick).resets = s.resets := rfl
@[simp] theorem tick_host (s : State) : (s.tick).host = s.host := rfl
@[simp] theorem tick_hostPc (s : State) : (s.tick).hostPc = s.hostPc := rfl
@[simp] theorem tick_responses (s : State) : (s.tick).responses = s.responses := rfl

/-! ## `withFetchWord` -/

@[simp] theorem withFetchWord_ie (s : State) (nbits w : Nat) : (s.withFetchWord nbits w).ie = s.ie := rfl
@[simp] theorem withFetchWord_busy (s : State) (nbits w : Nat) : (s.withFetchWord nbits w).busy = true := rfl
@[simp] theorem withFetchWord_done (s : State) (nbits w : Nat) : (s.withFetchWord nbits w).done = false := rfl
@[simp] theorem withFetchWord_wob (s : State) (nbits w : Nat) : (s.withFetchWord nbits w).wob = s.wob := rfl
@[simp] theorem withFetchWord_err (s : State) (nbits w : Nat) : (s.withFetchWord nbits w).err = .ok := rfl
@[simp] theorem withFetchWord_cmd (s : State) (nbits w : Nat) : (s.withFetchWord nbits w).cmd = tableWord nbits w := rfl
@[simp] theorem withFetchWord_inLen (s : State) (nbits w : Nat) : (s.withFetchWord nbits w).inLen = s.inLen := rfl
@[simp] theorem withFetchWord_outLen (s : State) (nbits w : Nat) : (s.withFetchWord nbits w).outLen = s.outLen := rfl
@[simp] theorem withFetchWord_hufStage (s : State) (nbits w : Nat) : (s.withFetchWord nbits w).hufStage = s.hufStage := rfl
@[simp] theorem withFetchWord_hufNLeaf (s : State) (nbits w : Nat) : (s.withFetchWord nbits w).hufNLeaf = s.hufNLeaf := rfl
@[simp] theorem withFetchWord_hufNNode (s : State) (nbits w : Nat) : (s.withFetchWord nbits w).hufNNode = s.hufNNode := rfl
@[simp] theorem withFetchWord_hufRoot (s : State) (nbits w : Nat) : (s.withFetchWord nbits w).hufRoot = s.hufRoot := rfl
@[simp] theorem withFetchWord_hufBitLen (s : State) (nbits w : Nat) : (s.withFetchWord nbits w).hufBitLen = s.hufBitLen := rfl
@[simp] theorem withFetchWord_arcState (s : State) (nbits w : Nat) : (s.withFetchWord nbits w).arcState = s.arcState := rfl
@[simp] theorem withFetchWord_arcN (s : State) (nbits w : Nat) : (s.withFetchWord nbits w).arcN = s.arcN := rfl
@[simp] theorem withFetchWord_arcPos (s : State) (nbits w : Nat) : (s.withFetchWord nbits w).arcPos = s.arcPos := rfl
@[simp] theorem withFetchWord_arcLow (s : State) (nbits w : Nat) : (s.withFetchWord nbits w).arcLow = s.arcLow := rfl
@[simp] theorem withFetchWord_arcHigh (s : State) (nbits w : Nat) : (s.withFetchWord nbits w).arcHigh = s.arcHigh := rfl
@[simp] theorem withFetchWord_arcScale (s : State) (nbits w : Nat) : (s.withFetchWord nbits w).arcScale = s.arcScale := rfl
@[simp] theorem withFetchWord_arcMid (s : State) (nbits w : Nat) : (s.withFetchWord nbits w).arcMid = s.arcMid := rfl
@[simp] theorem withFetchWord_inbuf (s : State) (nbits w : Nat) : (s.withFetchWord nbits w).inbuf = s.inbuf := rfl
@[simp] theorem withFetchWord_outbuf (s : State) (nbits w : Nat) : (s.withFetchWord nbits w).outbuf = s.outbuf := rfl
@[simp] theorem withFetchWord_hbuf (s : State) (nbits w : Nat) : (s.withFetchWord nbits w).hbuf = s.hbuf := rfl
@[simp] theorem withFetchWord_hufFreq (s : State) (nbits w : Nat) : (s.withFetchWord nbits w).hufFreq = s.hufFreq := rfl
@[simp] theorem withFetchWord_hufCode (s : State) (nbits w : Nat) : (s.withFetchWord nbits w).hufCode = s.hufCode := rfl
@[simp] theorem withFetchWord_hufClen (s : State) (nbits w : Nat) : (s.withFetchWord nbits w).hufClen = s.hufClen := rfl
@[simp] theorem withFetchWord_hufNode (s : State) (nbits w : Nat) : (s.withFetchWord nbits w).hufNode = s.hufNode := rfl
@[simp] theorem withFetchWord_arcFreq (s : State) (nbits w : Nat) : (s.withFetchWord nbits w).arcFreq = s.arcFreq := rfl
@[simp] theorem withFetchWord_arcCum (s : State) (nbits w : Nat) : (s.withFetchWord nbits w).arcCum = s.arcCum := rfl
@[simp] theorem withFetchWord_active (s : State) (nbits w : Nat) : (s.withFetchWord nbits w).active = s.active := rfl
@[simp] theorem withFetchWord_inReset (s : State) (nbits w : Nat) : (s.withFetchWord nbits w).inReset = false := rfl
@[simp] theorem withFetchWord_latency (s : State) (nbits w : Nat) : (s.withFetchWord nbits w).latency = 0 := rfl
@[simp] theorem withFetchWord_draws (s : State) (nbits w : Nat) : (s.withFetchWord nbits w).draws = s.draws := rfl
@[simp] theorem withFetchWord_resets (s : State) (nbits w : Nat) : (s.withFetchWord nbits w).resets = s.resets := rfl
@[simp] theorem withFetchWord_host (s : State) (nbits w : Nat) : (s.withFetchWord nbits w).host = s.host := rfl
@[simp] theorem withFetchWord_hostPc (s : State) (nbits w : Nat) : (s.withFetchWord nbits w).hostPc = s.hostPc := rfl
@[simp] theorem withFetchWord_responses (s : State) (nbits w : Nat) : (s.withFetchWord nbits w).responses = s.responses := rfl

/-! ## `setBank` and `fill`: no field but the bank's own changes -/

@[simp] theorem setBank_ie (b : Bank) (m : Memory) (s : State) : (s.setBank b m).ie = s.ie := by cases b <;> rfl
@[simp] theorem setBank_busy (b : Bank) (m : Memory) (s : State) : (s.setBank b m).busy = s.busy := by cases b <;> rfl
@[simp] theorem setBank_done (b : Bank) (m : Memory) (s : State) : (s.setBank b m).done = s.done := by cases b <;> rfl
@[simp] theorem setBank_wob (b : Bank) (m : Memory) (s : State) : (s.setBank b m).wob = s.wob := by cases b <;> rfl
@[simp] theorem setBank_err (b : Bank) (m : Memory) (s : State) : (s.setBank b m).err = s.err := by cases b <;> rfl
@[simp] theorem setBank_cmd (b : Bank) (m : Memory) (s : State) : (s.setBank b m).cmd = s.cmd := by cases b <;> rfl
@[simp] theorem setBank_inLen (b : Bank) (m : Memory) (s : State) : (s.setBank b m).inLen = s.inLen := by cases b <;> rfl
@[simp] theorem setBank_outLen (b : Bank) (m : Memory) (s : State) : (s.setBank b m).outLen = s.outLen := by cases b <;> rfl
@[simp] theorem setBank_hufStage (b : Bank) (m : Memory) (s : State) : (s.setBank b m).hufStage = s.hufStage := by cases b <;> rfl
@[simp] theorem setBank_hufNLeaf (b : Bank) (m : Memory) (s : State) : (s.setBank b m).hufNLeaf = s.hufNLeaf := by cases b <;> rfl
@[simp] theorem setBank_hufNNode (b : Bank) (m : Memory) (s : State) : (s.setBank b m).hufNNode = s.hufNNode := by cases b <;> rfl
@[simp] theorem setBank_hufRoot (b : Bank) (m : Memory) (s : State) : (s.setBank b m).hufRoot = s.hufRoot := by cases b <;> rfl
@[simp] theorem setBank_hufBitLen (b : Bank) (m : Memory) (s : State) : (s.setBank b m).hufBitLen = s.hufBitLen := by cases b <;> rfl
@[simp] theorem setBank_arcState (b : Bank) (m : Memory) (s : State) : (s.setBank b m).arcState = s.arcState := by cases b <;> rfl
@[simp] theorem setBank_arcN (b : Bank) (m : Memory) (s : State) : (s.setBank b m).arcN = s.arcN := by cases b <;> rfl
@[simp] theorem setBank_arcPos (b : Bank) (m : Memory) (s : State) : (s.setBank b m).arcPos = s.arcPos := by cases b <;> rfl
@[simp] theorem setBank_arcLow (b : Bank) (m : Memory) (s : State) : (s.setBank b m).arcLow = s.arcLow := by cases b <;> rfl
@[simp] theorem setBank_arcHigh (b : Bank) (m : Memory) (s : State) : (s.setBank b m).arcHigh = s.arcHigh := by cases b <;> rfl
@[simp] theorem setBank_arcScale (b : Bank) (m : Memory) (s : State) : (s.setBank b m).arcScale = s.arcScale := by cases b <;> rfl
@[simp] theorem setBank_arcMid (b : Bank) (m : Memory) (s : State) : (s.setBank b m).arcMid = s.arcMid := by cases b <;> rfl
@[simp] theorem setBank_active (b : Bank) (m : Memory) (s : State) : (s.setBank b m).active = s.active := by cases b <;> rfl
@[simp] theorem setBank_inReset (b : Bank) (m : Memory) (s : State) : (s.setBank b m).inReset = s.inReset := by cases b <;> rfl
@[simp] theorem setBank_latency (b : Bank) (m : Memory) (s : State) : (s.setBank b m).latency = s.latency := by cases b <;> rfl
@[simp] theorem setBank_draws (b : Bank) (m : Memory) (s : State) : (s.setBank b m).draws = s.draws := by cases b <;> rfl
@[simp] theorem setBank_resets (b : Bank) (m : Memory) (s : State) : (s.setBank b m).resets = s.resets := by cases b <;> rfl
@[simp] theorem setBank_host (b : Bank) (m : Memory) (s : State) : (s.setBank b m).host = s.host := by cases b <;> rfl
@[simp] theorem setBank_hostPc (b : Bank) (m : Memory) (s : State) : (s.setBank b m).hostPc = s.hostPc := by cases b <;> rfl
@[simp] theorem setBank_responses (b : Bank) (m : Memory) (s : State) : (s.setBank b m).responses = s.responses := by cases b <;> rfl

@[simp] theorem setBank_bank_self (b : Bank) (m : Memory) (s : State) : (s.setBank b m).bank b = m := by cases b <;> rfl
theorem setBank_bank_other {b d : Bank} (h : d ≠ b) (m : Memory) (s : State) : (s.setBank b m).bank d = s.bank d := by
  cases b <;> cases d <;> first | rfl | exact absurd rfl h

@[simp] theorem fill_ie (b : Bank) (v : List Byte) (s : State) : (s.fill b v).ie = s.ie := setBank_ie _ _ _
@[simp] theorem fill_busy (b : Bank) (v : List Byte) (s : State) : (s.fill b v).busy = s.busy := setBank_busy _ _ _
@[simp] theorem fill_done (b : Bank) (v : List Byte) (s : State) : (s.fill b v).done = s.done := setBank_done _ _ _
@[simp] theorem fill_wob (b : Bank) (v : List Byte) (s : State) : (s.fill b v).wob = s.wob := setBank_wob _ _ _
@[simp] theorem fill_err (b : Bank) (v : List Byte) (s : State) : (s.fill b v).err = s.err := setBank_err _ _ _
@[simp] theorem fill_cmd (b : Bank) (v : List Byte) (s : State) : (s.fill b v).cmd = s.cmd := setBank_cmd _ _ _
@[simp] theorem fill_inLen (b : Bank) (v : List Byte) (s : State) : (s.fill b v).inLen = s.inLen := setBank_inLen _ _ _
@[simp] theorem fill_outLen (b : Bank) (v : List Byte) (s : State) : (s.fill b v).outLen = s.outLen := setBank_outLen _ _ _
@[simp] theorem fill_hufStage (b : Bank) (v : List Byte) (s : State) : (s.fill b v).hufStage = s.hufStage := setBank_hufStage _ _ _
@[simp] theorem fill_hufNLeaf (b : Bank) (v : List Byte) (s : State) : (s.fill b v).hufNLeaf = s.hufNLeaf := setBank_hufNLeaf _ _ _
@[simp] theorem fill_hufNNode (b : Bank) (v : List Byte) (s : State) : (s.fill b v).hufNNode = s.hufNNode := setBank_hufNNode _ _ _
@[simp] theorem fill_hufRoot (b : Bank) (v : List Byte) (s : State) : (s.fill b v).hufRoot = s.hufRoot := setBank_hufRoot _ _ _
@[simp] theorem fill_hufBitLen (b : Bank) (v : List Byte) (s : State) : (s.fill b v).hufBitLen = s.hufBitLen := setBank_hufBitLen _ _ _
@[simp] theorem fill_arcState (b : Bank) (v : List Byte) (s : State) : (s.fill b v).arcState = s.arcState := setBank_arcState _ _ _
@[simp] theorem fill_arcN (b : Bank) (v : List Byte) (s : State) : (s.fill b v).arcN = s.arcN := setBank_arcN _ _ _
@[simp] theorem fill_arcPos (b : Bank) (v : List Byte) (s : State) : (s.fill b v).arcPos = s.arcPos := setBank_arcPos _ _ _
@[simp] theorem fill_arcLow (b : Bank) (v : List Byte) (s : State) : (s.fill b v).arcLow = s.arcLow := setBank_arcLow _ _ _
@[simp] theorem fill_arcHigh (b : Bank) (v : List Byte) (s : State) : (s.fill b v).arcHigh = s.arcHigh := setBank_arcHigh _ _ _
@[simp] theorem fill_arcScale (b : Bank) (v : List Byte) (s : State) : (s.fill b v).arcScale = s.arcScale := setBank_arcScale _ _ _
@[simp] theorem fill_arcMid (b : Bank) (v : List Byte) (s : State) : (s.fill b v).arcMid = s.arcMid := setBank_arcMid _ _ _
@[simp] theorem fill_active (b : Bank) (v : List Byte) (s : State) : (s.fill b v).active = s.active := setBank_active _ _ _
@[simp] theorem fill_inReset (b : Bank) (v : List Byte) (s : State) : (s.fill b v).inReset = s.inReset := setBank_inReset _ _ _
@[simp] theorem fill_latency (b : Bank) (v : List Byte) (s : State) : (s.fill b v).latency = s.latency := setBank_latency _ _ _
@[simp] theorem fill_draws (b : Bank) (v : List Byte) (s : State) : (s.fill b v).draws = s.draws := setBank_draws _ _ _
@[simp] theorem fill_resets (b : Bank) (v : List Byte) (s : State) : (s.fill b v).resets = s.resets := setBank_resets _ _ _
@[simp] theorem fill_host (b : Bank) (v : List Byte) (s : State) : (s.fill b v).host = s.host := setBank_host _ _ _
@[simp] theorem fill_hostPc (b : Bank) (v : List Byte) (s : State) : (s.fill b v).hostPc = s.hostPc := setBank_hostPc _ _ _
@[simp] theorem fill_responses (b : Bank) (v : List Byte) (s : State) : (s.fill b v).responses = s.responses := setBank_responses _ _ _

@[simp] theorem fill_bank_self (b : Bank) (v : List Byte) (s : State) :
    (s.fill b v).bank b = Memory.overlay b v (s.bank b) := setBank_bank_self _ _ _
theorem fill_bank_other {b d : Bank} (h : d ≠ b) (v : List Byte) (s : State) : (s.fill b v).bank d = s.bank d :=
  setBank_bank_other h _ _

end Sys2Proof.Machine
end

