-- ==== Sys2Proof/Laws/Memory.lean ====
section
/-! SUPPORT. What the memory operations do: reading after writing, and that they keep the canonical form. -/
namespace Sys2Proof.Machine

/-! ## Reading the cell list -/

@[simp] theorem Memory.find_nil (a : Nat) : Memory.find a [] = none := rfl

theorem Memory.find_cons (a : Nat) (c : Host.Cell) (m : Memory) :
    Memory.find a (c :: m) = if c.1 = a then some c.2 else Memory.find a m := by
  change (bif Nat.beq c.1 a then some c.2 else Memory.find a m) = _
  by_cases h : c.1 = a
  · simp [h]
  · have : Nat.beq c.1 a = false := by
      cases hb : Nat.beq c.1 a
      · rfl
      · exact absurd (Nat.eq_of_beq_eq_true hb) h
    simp [h, this]

theorem Memory.find_append (a : Nat) (m n : Memory) :
    Memory.find a (m ++ n) = (Memory.find a m).or (Memory.find a n) := by
  induction m with
  | nil => simp
  | cons c m ih =>
    rw [List.cons_append, find_cons, find_cons, ih]
    split <;> simp

/-- A filter on offsets keeps the bytes at the offsets it keeps and no other. -/
theorem Memory.find_filter_offset (a : Nat) (p : Nat → Bool) (m : Memory) :
    Memory.find a (m.filter fun c => p c.1) = if p a then Memory.find a m else none := by
  induction m with
  | nil => simp
  | cons c m ih =>
    by_cases hp : p c.1 <;> by_cases hc : c.1 = a
    · subst hc; simp [hp, find_cons]
    · simp [hp, find_cons, hc, ih]
    · subst hc; simpa [hp] using ih
    · simp [hp, find_cons, hc, ih]

theorem Memory.find_write_self (a : Nat) (v : Byte) (m : Memory) :
    Memory.find a (Memory.write a v m) = some v := by
  induction m with
  | nil => simp [write, find_cons]
  | cons c m ih =>
    unfold write
    split
    · simp [find_cons]
    · split
      · simp [find_cons]
      · rename_i h1 h2
        rw [find_cons, if_neg (fun h => h2 h.symm), ih]

theorem Memory.find_write_of_ne {a a' : Nat} (h : a' ≠ a) (v : Byte) (m : Memory) :
    Memory.find a' (Memory.write a v m) = Memory.find a' m := by
  induction m with
  | nil => simp [write, find_cons, Ne.symm h]
  | cons c m ih =>
    unfold write
    split
    · simp [find_cons, Ne.symm h]
    · split
      · rename_i h1 h2
        rw [find_cons, find_cons, if_neg (Ne.symm h), if_neg (fun e => h (e.symm.trans h2.symm))]
      · rw [find_cons, find_cons, ih]

theorem find_storedCells (b : Bank) (a : Nat) (vs : List Byte) (a0 : Nat) :
    Memory.find a (storedCells b a0 vs) =
      if a0 ≤ a ∧ a < a0 + vs.length ∧ byteMask b a ≠ 0 then some ((vs[a - a0]?.getD 0) &&& byteMask b a) else none := by
  induction vs generalizing a0 with
  | nil => rw [if_neg (by simp; omega)]; rfl
  | cons v vs ih =>
    have tail : a0 ≠ a → Memory.find a (storedCells b (a0 + 1) vs) =
        if a0 ≤ a ∧ a < a0 + (v :: vs).length ∧ byteMask b a ≠ 0
        then some (((v :: vs)[a - a0]?.getD 0) &&& byteMask b a) else none := by
      intro hne
      rw [ih]
      by_cases hle : a0 ≤ a
      · have h1 : a - a0 = (a - (a0 + 1)) + 1 := by omega
        rw [h1, List.getElem?_cons_succ]
        congr 1
        simp only [List.length_cons]
        apply propext
        constructor <;> intro h <;> refine ⟨by omega, by omega, h.2.2⟩
      · rw [if_neg (by omega), if_neg (by omega)]
    unfold storedCells
    split
    · rename_i hm
      by_cases hne : a0 = a
      · subst hne
        rw [ih, if_neg (by omega), if_neg (by simp [hm])]
      · exact tail hne
    · rename_i hm
      by_cases hne : a0 = a
      · subst hne
        rw [Memory.find_cons, if_pos rfl, if_pos ⟨le_refl _, by simp, hm⟩]
        simp
      · rw [Memory.find_cons, if_neg hne]
        exact tail hne

theorem find_overlay (b : Bank) (a : Nat) (vs : List Byte) (m : Memory) (ha : b.base ≤ a) (hm : byteMask b a ≠ 0) :
    Memory.find a (Memory.overlay b vs m) =
      if a < b.base + vs.length then some ((vs[a - b.base]?.getD 0) &&& byteMask b a) else Memory.find a m := by
  unfold Memory.overlay
  have hf := Memory.find_filter_offset a (fun k => decide (b.base + vs.length ≤ k)) m
  rw [Memory.find_append, find_storedCells, hf]
  by_cases h : a < b.base + vs.length
  · rw [if_pos ⟨ha, h, hm⟩, if_pos h]; rfl
  · rw [if_neg (fun c => h c.2.1), if_neg h]
    simp only [Option.none_or]
    rw [if_pos (by simpa using h)]

/-! ## The canonical form -/

theorem Memory.wellFormed_iff (b : Bank) (m : Memory) :
    Memory.WellFormed b m = true ↔
      m.Pairwise (fun c d => c.1 < d.1) ∧ ∀ c ∈ m, byteMask b c.1 ≠ 0 ∧ c.2 &&& byteMask b c.1 = c.2 := by
  simp [Memory.WellFormed]

theorem Memory.wellFormed_nil (b : Bank) : Memory.WellFormed b [] = true := rfl

/-- A byte written is the new cell; every other cell was there before. -/
theorem Memory.mem_write {a : Nat} {v : Byte} {m : Memory} {c : Host.Cell} (h : c ∈ Memory.write a v m) :
    c = (a, v) ∨ c ∈ m := by
  induction m with
  | nil => simpa [write] using h
  | cons d m ih =>
    unfold write at h
    split at h
    · simpa using h
    · split at h
      · rcases List.mem_cons.1 h with h | h
        · exact .inl h
        · exact .inr (List.mem_cons_of_mem _ h)
      · rcases List.mem_cons.1 h with h | h
        · exact .inr (h ▸ List.mem_cons_self)
        · exact (ih h).imp_right (List.mem_cons_of_mem _)

theorem Memory.write_pairwise {a : Nat} {v : Byte} {m : Memory} (h : m.Pairwise fun c d => c.1 < d.1) :
    (Memory.write a v m).Pairwise fun c d => c.1 < d.1 := by
  induction m with
  | nil => simp [write]
  | cons d m ih =>
    obtain ⟨hd, hm⟩ := List.pairwise_cons.1 h
    unfold write
    split
    · rename_i hlt
      refine List.pairwise_cons.2 ⟨fun c hc => ?_, h⟩
      rcases List.mem_cons.1 hc with rfl | hc
      · exact hlt
      · exact lt_trans hlt (hd c hc)
    · split
      · rename_i heq
        exact List.pairwise_cons.2 ⟨fun c hc => heq ▸ hd c hc, hm⟩
      · rename_i h1 h2
        refine List.pairwise_cons.2 ⟨fun c hc => ?_, ih hm⟩
        rcases mem_write hc with rfl | hc
        · simp only; omega
        · exact hd c hc

/-- Writing a byte that has no bit outside the stored ones, at an offset that stores bits, keeps the canonical form. -/
theorem Memory.wellFormed_write {b : Bank} {a : Nat} {v : Byte} {m : Memory} (h : Memory.WellFormed b m = true)
    (ha : byteMask b a ≠ 0) (hv : v &&& byteMask b a = v) : Memory.WellFormed b (Memory.write a v m) = true := by
  rw [wellFormed_iff] at h ⊢
  refine ⟨write_pairwise h.1, fun c hc => ?_⟩
  rcases mem_write hc with rfl | hc
  · exact ⟨ha, hv⟩
  · exact h.2 c hc

theorem mem_storedCells {b : Bank} {vs : List Byte} {a0 : Nat} {c : Host.Cell} (h : c ∈ storedCells b a0 vs) :
    a0 ≤ c.1 ∧ c.1 < a0 + vs.length ∧ byteMask b c.1 ≠ 0 ∧ c.2 &&& byteMask b c.1 = c.2 := by
  induction vs generalizing a0 with
  | nil => simp [storedCells] at h
  | cons v vs ih =>
    have hlen : (v :: vs).length = vs.length + 1 := rfl
    unfold storedCells at h
    split at h
    · obtain ⟨h1, h2, h3⟩ := ih h
      exact ⟨by omega, by omega, h3⟩
    · rename_i hm
      rcases List.mem_cons.1 h with rfl | h
      · exact ⟨le_refl _, by simp only; omega, hm, by simp only [BitVec.and_assoc, BitVec.and_self]⟩
      · obtain ⟨h1, h2, h3⟩ := ih h
        exact ⟨by omega, by omega, h3⟩

theorem storedCells_pairwise (b : Bank) (vs : List Byte) (a0 : Nat) :
    (storedCells b a0 vs).Pairwise fun c d => c.1 < d.1 := by
  induction vs generalizing a0 with
  | nil => simp [storedCells]
  | cons v vs ih =>
    unfold storedCells
    split
    · exact ih _
    · refine List.pairwise_cons.2 ⟨fun c hc => ?_, ih _⟩
      have := (mem_storedCells hc).1
      simp only; omega

/-- Overwriting a bank from its first offset on keeps the canonical form. -/
theorem Memory.wellFormed_overlay {b : Bank} {m : Memory} (vs : List Byte) (h : Memory.WellFormed b m = true) :
    Memory.WellFormed b (Memory.overlay b vs m) = true := by
  rw [wellFormed_iff] at h ⊢
  refine ⟨List.pairwise_append.2 ⟨storedCells_pairwise _ _ _, h.1.filter _, fun c hc d hd => ?_⟩, fun c hc => ?_⟩
  · have h1 := (mem_storedCells hc).2.1
    have h2 := (List.mem_filter.1 hd).2
    simp only [decide_eq_true_eq] at h2
    omega
  · rcases List.mem_append.1 hc with hc | hc
    · exact (mem_storedCells hc).2.2
    · exact h.2 c (List.mem_filter.1 hc).1

/-! ## Reading a byte of a bank after a write -/

/-- A byte of a bank after overwriting it from its first offset on: the new byte where one was given, else the old. -/
theorem fill_bankByte_self (b : Bank) (vs : List Byte) (s : State) (a : Nat) :
    (s.fill b vs).bankByte b a =
      if b.base ≤ a ∧ a < b.base + vs.length then (vs[a - b.base]?.getD 0) &&& byteMask b a else s.bankByte b a := by
  unfold State.bankByte
  by_cases hm : byteMask b a = 0
  · simp [hm]
  · have hb : b.base ≤ a := by
      by_contra hc
      exact hm (by unfold byteMask; rw [if_neg (fun h => hc h.1)])
    rw [if_neg hm, if_neg hm, fill_bank_self, find_overlay b a vs _ hb hm, fill_resets]
    by_cases h : a < b.base + vs.length
    · rw [if_pos h, if_pos ⟨hb, h⟩]
      simp only [Option.getD_some, BitVec.and_assoc, BitVec.and_self]
    · rw [if_neg h, if_neg (fun c => h c.2)]

/-- Overwriting one bank changes no byte of another. -/
theorem fill_bankByte_other {b d : Bank} (h : d ≠ b) (vs : List Byte) (s : State) (a : Nat) :
    (s.fill b vs).bankByte d a = s.bankByte d a := by
  unfold State.bankByte
  rw [fill_bank_other h, fill_resets]

/-- A bank's bytes depend on its cells and on the number of hardware resets only. -/
theorem bankByte_congr {s t : State} {b : Bank} (h : t.bank b = s.bank b) (hr : t.resets = s.resets) (a : Nat) :
    t.bankByte b a = s.bankByte b a := by
  unfold State.bankByte
  rw [h, hr]

theorem bankWord_congr {s t : State} {b : Bank} (h : t.bank b = s.bank b) (hr : t.resets = s.resets) (a : Nat) :
    t.bankWord b a = s.bankWord b a := by
  unfold State.bankWord
  simp only [bankByte_congr h hr]

/-- The byte a state shows at a block offset depends on the bank there only. -/
theorem byteAt_congr {s t : State} (hr : t.resets = s.resets) {a : Nat} (h : ∀ b, bankAt a = some b → t.bank b = s.bank b) :
    t.byteAt a = s.byteAt a := by
  unfold State.byteAt
  split
  · rename_i b hb
    exact bankByte_congr (h b hb) hr a
  · rfl

/-- The bank at an offset holds the offset in its window. -/
theorem bankAt_window {a : Nat} {b : Bank} (h : bankAt a = some b) : b.base ≤ a ∧ a < b.base + b.size := by
  have := List.find?_some h
  simpa using this

/-- Overwriting a bank from its first offset on changes no byte outside the bytes given. -/
theorem fill_byteAt_outside (b : Bank) (vs : List Byte) (s : State) {a : Nat}
    (h : ¬(b.base ≤ a ∧ a < b.base + vs.length)) : (s.fill b vs).byteAt a = s.byteAt a := by
  unfold State.byteAt
  split
  · rename_i d hd
    by_cases e : d = b
    · subst e; rw [fill_bankByte_self, if_neg h]
    · exact fill_bankByte_other e vs s a
  · rfl

end Sys2Proof.Machine
end

