-- ==== Sys2Proof/Laws/Tables.lean ====
section
/-! SUPPORT. Reading an entry of a table after the table was written. -/
namespace Sys2Proof.Machine

@[simp] theorem length_wordBytes (w : Word) : (wordBytes w).length = 4 := rfl

theorem wordBytes_getElem (w : Word) {k : Nat} (hk : k < 4) : (wordBytes w)[k]?.getD 0 = w.extractLsb' (8 * k) 8 := by
  match k, hk with
  | 0, _ => rfl
  | 1, _ => rfl
  | 2, _ => rfl
  | 3, _ => rfl

@[simp] theorem length_tableBytes (ws : List Word) : (tableBytes ws).length = 4 * ws.length := by
  induction ws with
  | nil => rfl
  | cons w ws ih =>
    unfold tableBytes at ih ⊢
    rw [List.flatMap_cons, List.length_append, ih, length_wordBytes, List.length_cons]
    omega

@[simp] theorem length_numberBytes (ns : List Nat) : (numberBytes ns).length = 4 * ns.length := by
  simp [numberBytes]

/-- Byte `k` of word `c` of a table. -/
theorem tableBytes_getElem (ws : List Word) {c k : Nat} (hc : c < ws.length) (hk : k < 4) :
    (tableBytes ws)[4 * c + k]?.getD 0 = (ws[c]).extractLsb' (8 * k) 8 := by
  induction ws generalizing c with
  | nil => simp at hc
  | cons w ws ih =>
    have hsplit : tableBytes (w :: ws) = wordBytes w ++ tableBytes ws := by simp [tableBytes]
    rw [hsplit]
    cases c with
    | zero =>
      rw [List.getElem?_append_left (by simpa using hk), Nat.mul_zero, Nat.zero_add, wordBytes_getElem w hk]
      rfl
    | succ c =>
      rw [List.getElem?_append_right (by simp only [length_wordBytes]; omega)]
      have : 4 * (c + 1) + k - (wordBytes w).length = 4 * c + k := by simp only [length_wordBytes]; omega
      rw [this, ih (by simpa using hc)]
      rfl

/-- Byte `k` of entry `c` of a bank after its table was written. -/
theorem fill_table_bankByte (b : Bank) (ws : List Word) (s : State) {c k a : Nat} (hc : c < ws.length) (hk : k < 4)
    (ha : a = b.base + 4 * c + k) :
    (s.fill b (tableBytes ws)).bankByte b a = (ws[c]).extractLsb' (8 * k) 8 &&& byteMask b a := by
  rw [fill_bankByte_self, if_pos (by rw [length_tableBytes]; omega)]
  have h : a - b.base = 4 * c + k := by omega
  rw [h, tableBytes_getElem ws hc hk]

/-! ## Which bits of an entry are stored -/

theorem byteMask_full {b : Bank} (hb : b = .inbuf ∨ b = .outbuf ∨ b = .hbuf ∨ b = .hufCode) {a : Nat}
    (h : b.base ≤ a ∧ a < b.base + b.size) : byteMask b a = 0xFF := by
  unfold byteMask
  rw [if_pos h]
  rcases hb with rfl | rfl | rfl | rfl <;> rfl

theorem byteMask_half {b : Bank} (hb : b = .hufFreq ∨ b = .arcFreq ∨ b = .arcCum) {a : Nat}
    (h : b.base ≤ a ∧ a < b.base + b.size) : byteMask b a = if a % 4 < 2 then 0xFF else 0x00 := by
  unfold byteMask
  rw [if_pos h]
  rcases hb with rfl | rfl | rfl <;> rfl

theorem byteMask_clen {a : Nat} (h : 0xC00 ≤ a ∧ a < 0x1000) :
    byteMask .hufClen a = if a % 4 = 0 then 0x3F else 0x00 := by
  unfold byteMask
  exact if_pos h

/-! ## Entries of the tables of 256 words -/

theorem and_full (v : Byte) : v &&& 0xFF = v := by
  exact BitVec.and_allOnes

/-- Bit `i` of a word made of four bytes. -/
theorem getLsbD_wordOfBytes (b0 b1 b2 b3 : Byte) (i : Nat) :
    (wordOfBytes b0 b1 b2 b3).getLsbD i =
      if i < 8 then b0.getLsbD i
      else if i < 16 then b1.getLsbD (i - 8)
      else if i < 24 then b2.getLsbD (i - 16)
      else b3.getLsbD (i - 24) := by
  have h : (wordOfBytes b0 b1 b2 b3).getLsbD i = BitVec.getLsbD (b3 ++ b2 ++ b1 ++ b0) i := rfl
  rw [h, BitVec.getLsbD_append, BitVec.getLsbD_append, BitVec.getLsbD_append]
  split
  · rfl
  · by_cases h1 : i < 16
    · rw [if_pos (by omega), if_pos h1]
    · rw [if_neg (by omega), if_neg h1]
      by_cases h2 : i < 24
      · rw [if_pos (by omega), if_pos h2, show i - 8 - 8 = i - 16 by omega]
      · rw [if_neg (by omega), if_neg h2, show i - 8 - 8 - 8 = i - 24 by omega]

theorem wordOfBytes_of_word (w : Word) :
    wordOfBytes (w.extractLsb' 0 8) (w.extractLsb' 8 8) (w.extractLsb' 16 8) (w.extractLsb' 24 8) = w := by
  apply BitVec.eq_of_getLsbD_eq
  intro i hi
  rw [getLsbD_wordOfBytes]
  simp only [BitVec.getLsbD_extractLsb']
  split
  · rename_i h; simp [h]
  · split
    · rw [show 8 + (i - 8) = i by omega]; simp [show i - 8 < 8 by omega]
    · split
      · rw [show 16 + (i - 16) = i by omega]; simp [show i - 16 < 8 by omega]
      · rw [show 24 + (i - 24) = i by omega]; simp [show i - 24 < 8 by omega]

/-- The low half of a word made of two bytes of another word is that word's low half. -/
theorem setWidth_wordOfBytes_low (w : Word) (b2 b3 : Byte) :
    (wordOfBytes (w.extractLsb' 0 8) (w.extractLsb' 8 8) b2 b3).setWidth 16 = w.setWidth 16 := by
  apply BitVec.eq_of_getLsbD_eq
  intro i hi
  rw [BitVec.getLsbD_setWidth, BitVec.getLsbD_setWidth, getLsbD_wordOfBytes]
  simp only [BitVec.getLsbD_extractLsb']
  split
  · rename_i h; simp [h]
  · rw [show 8 + (i - 8) = i by omega]; simp [show i - 8 < 8 by omega, hi]

/-- The low six bits of a word whose first byte keeps the low six bits of another word. -/
theorem setWidth_wordOfBytes_six (w : Word) (b1 b2 b3 : Byte) :
    (wordOfBytes (w.extractLsb' 0 8 &&& 0x3F) b1 b2 b3).setWidth 6 = w.setWidth 6 := by
  apply BitVec.eq_of_getLsbD_eq
  intro i hi
  have hmask : (0x3F : Byte).getLsbD i = true := (by decide : ∀ j : Fin 6, (0x3F : Byte).getLsbD j = true) ⟨i, hi⟩
  rw [BitVec.getLsbD_setWidth, BitVec.getLsbD_setWidth, getLsbD_wordOfBytes, if_pos (by omega), BitVec.getLsbD_and,
    hmask, BitVec.getLsbD_extractLsb']
  simp [show i < 8 by omega]

/-- The word of an entry after its table was written. -/
theorem fill_table_bankWord (b : Bank) (ws : List Word) (s : State) {c a : Nat} (hc : c < ws.length)
    (ha : a = b.base + 4 * c) :
    (s.fill b (tableBytes ws)).bankWord b a =
      wordOfBytes ((ws[c]).extractLsb' 0 8 &&& byteMask b a) ((ws[c]).extractLsb' 8 8 &&& byteMask b (a + 1))
        ((ws[c]).extractLsb' 16 8 &&& byteMask b (a + 2)) ((ws[c]).extractLsb' 24 8 &&& byteMask b (a + 3)) := by
  unfold State.bankWord
  rw [fill_table_bankByte b ws s hc (k := 0) (by omega) (by omega),
    fill_table_bankByte b ws s hc (k := 1) (by omega) (by omega),
    fill_table_bankByte b ws s hc (k := 2) (by omega) (by omega),
    fill_table_bankByte b ws s hc (k := 3) (by omega) (by omega)]

/-- An entry of a 16-bit table after the table was written with `ns`. -/
theorem fill_half_entry {b : Bank} (hb : b = .hufFreq ∨ b = .arcFreq ∨ b = .arcCum) (ns : List Nat) (s : State)
    {c : Nat} (hc : c < ns.length) (h256 : c < 256) :
    ((s.fill b (numberBytes ns)).bankWord b (b.base + 4 * c)).setWidth 16 = BitVec.ofNat 16 ns[c] := by
  have hsz : b.size = 0x400 := by rcases hb with rfl | rfl | rfl <;> rfl
  have hb4 : b.base % 4 = 0 := by rcases hb with rfl | rfl | rfl <;> rfl
  have hc' : c < (ns.map fun n => BitVec.ofNat 32 n).length := by rw [List.length_map]; exact hc
  unfold numberBytes
  rw [fill_table_bankWord b _ s hc' rfl, byteMask_half hb ⟨by omega, by omega⟩, byteMask_half hb ⟨by omega, by omega⟩,
    if_pos (by omega), if_pos (by omega), and_full, and_full, setWidth_wordOfBytes_low, List.getElem_map]
  exact BitVec.setWidth_ofNat_of_le (by omega) _

theorem fill_hufFreqAt (ns : List Nat) (s : State) {c : Nat} (hc : c < ns.length) (h256 : c < 256) :
    (s.fill .hufFreq (numberBytes ns)).hufFreqAt c = BitVec.ofNat 16 ns[c] :=
  fill_half_entry (.inl rfl) ns s hc h256

theorem fill_arcFreqAt (ns : List Nat) (s : State) {c : Nat} (hc : c < ns.length) (h256 : c < 256) :
    (s.fill .arcFreq (numberBytes ns)).arcFreqAt c = BitVec.ofNat 16 ns[c] :=
  fill_half_entry (.inr (.inl rfl)) ns s hc h256

theorem fill_arcCumAt (ns : List Nat) (s : State) {c : Nat} (hc : c < ns.length) (h256 : c < 256) :
    (s.fill .arcCum (numberBytes ns)).arcCumAt c = BitVec.ofNat 16 ns[c] :=
  fill_half_entry (.inr (.inr rfl)) ns s hc h256

theorem fill_hufCodeAt (ns : List Nat) (s : State) {c : Nat} (hc : c < ns.length) (h256 : c < 256) :
    (s.fill .hufCode (numberBytes ns)).hufCodeAt c = BitVec.ofNat 32 ns[c] := by
  have hc' : c < (ns.map fun n => BitVec.ofNat 32 n).length := by rw [List.length_map]; exact hc
  have hw : ∀ k, k < 4 → byteMask .hufCode (0x800 + 4 * c + k) = 0xFF := by
    intro k hk
    refine byteMask_full (by simp) ?_
    show 0x800 ≤ 0x800 + 4 * c + k ∧ 0x800 + 4 * c + k < 0x800 + 0x400
    omega
  unfold State.hufCodeAt numberBytes
  rw [fill_table_bankWord .hufCode _ s hc' (a := 0x800 + 4 * c) rfl, hw 1 (by omega), hw 2 (by omega), hw 3 (by omega),
    show byteMask .hufCode (0x800 + 4 * c) = 0xFF from hw 0 (by omega), and_full, and_full, and_full, and_full,
    wordOfBytes_of_word, List.getElem_map]

theorem fill_hufClenAt (ns : List Nat) (s : State) {c : Nat} (hc : c < ns.length) (h256 : c < 256) :
    (s.fill .hufClen (numberBytes ns)).hufClenAt c = BitVec.ofNat 6 ns[c] := by
  have hc' : c < (ns.map fun n => BitVec.ofNat 32 n).length := by rw [List.length_map]; exact hc
  unfold State.hufClenAt numberBytes
  rw [fill_table_bankWord .hufClen _ s hc' (a := 0xC00 + 4 * c) rfl, byteMask_clen (a := 0xC00 + 4 * c) ⟨by omega, by omega⟩,
    if_pos (by omega), setWidth_wordOfBytes_six, List.getElem_map]
  exact BitVec.setWidth_ofNat_of_le (by omega) _

/-! ## Entries of the node table -/

theorem byteMask_node {a : Nat} (h : 0x4000 ≤ a ∧ a < 0x5000) :
    byteMask .hufNode a = match a % 8 with
      | 3 => 0x80
      | 5 => 0x01
      | 7 => 0x01
      | _ => 0xFF := by
  unfold byteMask
  exact if_pos h

/-- The words of a node table. -/
def nodeWords (nodes : List Node) : List Word := nodes.flatMap fun n => [n.word0, n.word1]

theorem nodeBytes_table (nodes : List Node) : nodes.flatMap nodeBytes = tableBytes (nodeWords nodes) := by
  induction nodes with
  | nil => rfl
  | cons n ns ih => simp only [List.flatMap_cons, ih, nodeWords, tableBytes, nodeBytes, List.flatMap_append,
      List.flatMap_nil, List.append_nil, List.append_assoc]

@[simp] theorem length_nodeWords (nodes : List Node) : (nodeWords nodes).length = 2 * nodes.length := by
  induction nodes with
  | nil => rfl
  | cons n ns ih => simp only [nodeWords, List.flatMap_cons, List.length_append] at ih ⊢; rw [ih]; simp; omega

theorem nodeWords_getElem (nodes : List Node) {i : Nat} (hi : i < nodes.length) :
    (nodeWords nodes)[2 * i]? = some (nodes[i]).word0 ∧ (nodeWords nodes)[2 * i + 1]? = some (nodes[i]).word1 := by
  induction nodes generalizing i with
  | nil => simp at hi
  | cons n ns ih =>
    have hsplit : nodeWords (n :: ns) = n.word0 :: n.word1 :: nodeWords ns := rfl
    cases i with
    | zero => exact ⟨rfl, rfl⟩
    | succ i =>
      rw [hsplit, show 2 * (i + 1) = 2 * i + 1 + 1 by omega]
      simpa using ih (i := i) (by simpa using hi)

theorem getLsbD_word0 (n : Node) (i : Nat) :
    n.word0.getLsbD i =
      if i < 16 then n.freq.getLsbD i
      else if i < 24 then n.sym.getLsbD (i - 16)
      else if i < 31 then false
      else (i == 31 && n.leaf) := by
  have h : n.word0.getLsbD i = BitVec.getLsbD (BitVec.ofBool n.leaf ++ (0 : BitVec 7) ++ n.sym ++ n.freq) i := rfl
  rw [h, BitVec.getLsbD_append, BitVec.getLsbD_append, BitVec.getLsbD_append]
  split
  · rfl
  · by_cases h1 : i < 24
    · rw [if_pos (by omega), if_pos h1]
    · rw [if_neg (by omega), if_neg h1]
      by_cases h2 : i < 31
      · rw [if_pos (by omega), if_pos h2]; simp
      · rw [if_neg (by omega), if_neg h2, BitVec.getLsbD_ofBool]
        congr 1
        by_cases h3 : i = 31
        · subst h3; rfl
        · rw [beq_eq_false_iff_ne.2 h3, decide_eq_false (by omega)]

theorem getLsbD_word1 (n : Node) (i : Nat) :
    n.word1.getLsbD i =
      if i < 9 then n.left.getLsbD i
      else if i < 16 then false
      else if i < 25 then n.right.getLsbD (i - 16)
      else false := by
  have h : n.word1.getLsbD i = BitVec.getLsbD ((0 : BitVec 7) ++ n.right ++ (0 : BitVec 7) ++ n.left) i := rfl
  rw [h, BitVec.getLsbD_append, BitVec.getLsbD_append, BitVec.getLsbD_append]
  split
  · rfl
  · by_cases h1 : i < 16
    · rw [if_pos (by omega), if_pos h1]; simp
    · rw [if_neg (by omega), if_neg h1]
      by_cases h2 : i < 25
      · rw [if_pos (by omega), if_pos h2, show i - 9 - 7 = i - 16 by omega]
      · rw [if_neg (by omega), if_neg h2]; simp

/-- The fields of a node survive its two words, with the bits that are not stored removed. -/
theorem nodeOfWords_stored (n : Node) :
    nodeOfWords
      (wordOfBytes (n.word0.extractLsb' 0 8 &&& 0xFF) (n.word0.extractLsb' 8 8 &&& 0xFF)
        (n.word0.extractLsb' 16 8 &&& 0xFF) (n.word0.extractLsb' 24 8 &&& 0x80))
      (wordOfBytes (n.word1.extractLsb' 0 8 &&& 0xFF) (n.word1.extractLsb' 8 8 &&& 0x01)
        (n.word1.extractLsb' 16 8 &&& 0xFF) (n.word1.extractLsb' 24 8 &&& 0x01)) = n := by
  obtain ⟨leaf, sym, freq, left, right⟩ := n
  unfold nodeOfWords
  simp only [and_full]
  congr 1
  · rw [getLsbD_wordOfBytes, if_neg (by omega), if_neg (by omega), if_neg (by omega), BitVec.getLsbD_and,
      BitVec.getLsbD_extractLsb', getLsbD_word0]
    simp
  · apply BitVec.eq_of_getLsbD_eq
    intro i hi
    rw [BitVec.getLsbD_extractLsb', getLsbD_wordOfBytes, if_neg (by omega), if_neg (by omega), if_pos (by omega),
      BitVec.getLsbD_extractLsb', getLsbD_word0, if_neg (by omega), if_pos (by omega)]
    simp [hi]
  · apply BitVec.eq_of_getLsbD_eq
    intro i hi
    rw [BitVec.getLsbD_extractLsb', getLsbD_wordOfBytes]
    simp only [BitVec.getLsbD_extractLsb', getLsbD_word0]
    by_cases h : i < 8
    · simp [h, hi]
    · simp [h, hi, show i - 8 < 8 by omega, show 8 + (i - 8) = i by omega]
  · apply BitVec.eq_of_getLsbD_eq
    intro i hi
    rw [BitVec.getLsbD_extractLsb', getLsbD_wordOfBytes]
    simp only [BitVec.getLsbD_extractLsb', BitVec.getLsbD_and, getLsbD_word1]
    by_cases h : i < 8
    · simp [h, hi]
    · have : i = 8 := by omega
      subst this
      simp
  · apply BitVec.eq_of_getLsbD_eq
    intro i hi
    rw [BitVec.getLsbD_extractLsb', getLsbD_wordOfBytes]
    simp only [BitVec.getLsbD_extractLsb', BitVec.getLsbD_and, getLsbD_word1]
    by_cases h : i < 8
    · simp [h, hi, show ¬ 16 + i < 8 by omega, show ¬ 16 + i < 16 by omega, show 16 + i < 24 by omega,
        show ¬ 16 + i < 9 by omega, show 16 + i < 25 by omega]
    · have : i = 8 := by omega
      subst this
      simp

/-- An entry of the node table after its first entries were written. -/
theorem fill_hufNodeAt (nodes : List Node) (s : State) {i : Nat} (hi : i < nodes.length) (h512 : i < 512) :
    (s.fill .hufNode (nodes.flatMap nodeBytes)).hufNodeAt i = nodes[i] := by
  obtain ⟨h0, h1⟩ := nodeWords_getElem nodes hi
  have hl0 : 2 * i < (nodeWords nodes).length := by rw [length_nodeWords]; omega
  have hl1 : 2 * i + 1 < (nodeWords nodes).length := by rw [length_nodeWords]; omega
  rw [List.getElem?_eq_getElem hl0, Option.some.injEq] at h0
  rw [List.getElem?_eq_getElem hl1, Option.some.injEq] at h1
  have hm : ∀ k, k < 8 → byteMask .hufNode (0x4000 + 8 * i + k) =
      match k with | 3 => 0x80 | 5 => 0x01 | 7 => 0x01 | _ => 0xFF := by
    intro k hk
    rw [byteMask_node ⟨by omega, by omega⟩, show (0x4000 + 8 * i + k) % 8 = k by omega]
  unfold State.hufNodeAt
  rw [nodeBytes_table, fill_table_bankWord .hufNode _ s hl0 (a := 0x4000 + 8 * i) (by show _ = 0x4000 + _; omega),
    fill_table_bankWord .hufNode _ s hl1 (a := 0x4000 + 8 * i + 4) (by show _ = 0x4000 + _; omega), h0, h1]
  rw [show byteMask .hufNode (0x4000 + 8 * i) = 0xFF from hm 0 (by omega), hm 1 (by omega), hm 2 (by omega),
    hm 3 (by omega), hm 4 (by omega), show 0x4000 + 8 * i + 4 + 1 = 0x4000 + 8 * i + 5 by omega,
    show 0x4000 + 8 * i + 4 + 2 = 0x4000 + 8 * i + 6 by omega, show 0x4000 + 8 * i + 4 + 3 = 0x4000 + 8 * i + 7 by omega,
    hm 5 (by omega), hm 6 (by omega), hm 7 (by omega)]
  exact nodeOfWords_stored _

/-- A word of a bank past the bytes given keeps its value. -/
theorem fill_bankWord_past (b : Bank) (vs : List Byte) (s : State) {a : Nat} (h : b.base + vs.length ≤ a) :
    (s.fill b vs).bankWord b a = s.bankWord b a := by
  unfold State.bankWord
  rw [fill_bankByte_self, fill_bankByte_self, fill_bankByte_self, fill_bankByte_self, if_neg (by omega),
    if_neg (by omega), if_neg (by omega), if_neg (by omega)]

/-- Entries of the node table past those written keep their value. -/
theorem fill_hufNodeAt_past (nodes : List Node) (s : State) {i : Nat} (hi : nodes.length ≤ i) :
    (s.fill .hufNode (nodes.flatMap nodeBytes)).hufNodeAt i = s.hufNodeAt i := by
  have hlen : (nodes.flatMap nodeBytes).length = 8 * nodes.length := by
    rw [nodeBytes_table, length_tableBytes, length_nodeWords]; omega
  have hb : Bank.base .hufNode = 0x4000 := rfl
  unfold State.hufNodeAt
  rw [fill_bankWord_past, fill_bankWord_past] <;> omega

/-! ## The byte buffers -/

/-- A byte of `OUTBUF` after the buffer was overwritten. -/
theorem fill_outByte (vs : List Byte) (s : State) {b : Nat} (hb : b < vs.length) (h : b < 2048) :
    (s.fill .outbuf vs).outByte b = vs[b] := by
  have hbase : Bank.base .outbuf = 0x1800 := rfl
  unfold State.outByte
  rw [fill_bankByte_self, if_pos ⟨by omega, by omega⟩, hbase, show 0x1800 + b - 0x1800 = b by omega,
    byteMask_full (by simp) (by rw [hbase]; show _ ∧ _ < 0x1800 + 0x800; omega), and_full,
    List.getElem?_eq_getElem hb]
  rfl

/-- A byte of `HBUF` after the buffer was overwritten. -/
theorem fill_hbufByte (vs : List Byte) (s : State) {b : Nat} (hb : b < vs.length) (h : b < 256) :
    (s.fill .hbuf vs).hbufByte b = vs[b] := by
  have hbase : Bank.base .hbuf = 0x2000 := rfl
  unfold State.hbufByte
  rw [fill_bankByte_self, if_pos ⟨by omega, by omega⟩, hbase, show 0x2000 + b - 0x2000 = b by omega,
    byteMask_full (by simp) (by rw [hbase]; show _ ∧ _ < 0x2000 + 0x100; omega), and_full,
    List.getElem?_eq_getElem hb]
  rfl

end Sys2Proof.Machine
end

