-- ==== Sys2Proof/Laws/Bus.lean ====
section
/-! SUPPORT. What a bus access and a step of the host can do, said once (20_memory.md, R98, R230). -/
namespace Sys2Proof.Machine

/-! ## The address map -/

/-- The windows of the block memories do not overlap: the bank at an offset of a window is that window's (R61). -/
theorem bankAt_of_window {b : Bank} {a : Nat} (h : b.base ≤ a ∧ a < b.base + b.size) : bankAt a = some b := by
  cases hd : bankAt a with
  | none =>
    have hb := List.find?_eq_none.1 hd b (by cases b <;> decide)
    exact absurd (by simpa using h) hb
  | some d =>
    have hw := bankAt_window hd
    congr 1
    cases b <;> cases d <;> first | rfl | (simp only [Bank.base, Bank.size] at h hw; omega)

theorem bankAt_eq_none_iff (a : Nat) : bankAt a = none ↔ ∀ b : Bank, ¬(b.base ≤ a ∧ a < b.base + b.size) := by
  constructor
  · intro h b hb
    rw [bankAt_of_window hb] at h
    cases h
  · intro h
    cases hb : bankAt a with
    | none => rfl
    | some b => exact absurd (bankAt_window hb) (h b)

theorem wideAt_window {a : Nat} {r : WideReg} (h : wideAt a = some r) : r.base ≤ a ∧ a < r.base + 0x200 := by
  have := List.find?_some h
  simpa using this

theorem wideAt_of_window {r : WideReg} {a : Nat} (h : r.base ≤ a ∧ a < r.base + 0x200) : wideAt a = some r := by
  cases hd : wideAt a with
  | none =>
    have hb := List.find?_eq_none.1 hd r (by cases r <;> decide)
    exact absurd (by simpa using h) hb
  | some d =>
    have hw := wideAt_window hd
    congr 1
    cases r <;> cases d <;> first | rfl | (simp only [WideReg.base] at h hw; omega)

/-- The block memories lie from 0x400 on. -/
theorem bank_base_ge (b : Bank) : 0x400 ≤ b.base := by cases b <;> decide

theorem locate_reg {off : Nat} (h : off < 0x03C) : ∃ r, regPage[off / 4]? = some r ∧ locate off = some (.reg r) := by
  have hlt : off / 4 < regPage.length := by
    have : regPage.length = 15 := rfl
    omega
  refine ⟨regPage[off / 4], List.getElem?_eq_getElem hlt, ?_⟩
  unfold locate
  rw [if_pos h, List.getElem?_eq_getElem hlt]
  rfl

theorem locate_reserved {off : Nat} (h : 0x03C ≤ off ∧ off < 0x400) : locate off = some .reserved := by
  unfold locate
  rw [if_neg (by omega), if_pos (by omega)]

/-- A word of a bank's window is located in that bank. -/
theorem locate_mem {b : Bank} {off : Nat} (h : b.base ≤ off ∧ off < b.base + b.size) : locate off = some (.mem b off) := by
  have := bank_base_ge b
  unfold locate
  rw [if_neg (by omega), if_neg (by omega), bankAt_of_window h]

/-- A word of a wide register's window is located there. -/
theorem locate_wide {r : WideReg} {w : Nat} (h : w < 128) : locate (r.base + 4 * w) = some (.wide r w) := by
  have hb : 0x6000 ≤ r.base := by cases r <;> decide
  have hn : bankAt (r.base + 4 * w) = none := by
    rw [bankAt_eq_none_iff]
    intro b
    cases b <;> simp only [Bank.base, Bank.size] <;> omega
  unfold locate
  rw [if_neg (by omega), if_neg (by omega), hn, wideAt_of_window (r := r) ⟨by omega, by omega⟩]
  simp only [Option.map_some, Option.some.injEq, Loc.wide.injEq, true_and]
  omega

/-- The offsets that are not mapped (R61). -/
theorem locate_eq_none_iff (off : Nat) : locate off = none ↔
    (0x1100 ≤ off ∧ off < 0x1800) ∨ (0x2100 ≤ off ∧ off < 0x4000) ∨ (0x5800 ≤ off ∧ off < 0x6000) ∨ 0x6800 ≤ off := by
  by_cases h1 : off < 0x03C
  · obtain ⟨r, -, hr⟩ := locate_reg h1
    rw [hr]
    simp only [reduceCtorEq, false_iff]
    omega
  · by_cases h2 : off < 0x400
    · rw [locate_reserved ⟨by omega, h2⟩]
      simp only [reduceCtorEq, false_iff]
      omega
    · constructor
      · intro h
        have hm : ∀ b : Bank, ¬(b.base ≤ off ∧ off < b.base + b.size) := by
          intro b hb
          rw [locate_mem hb] at h
          cases h
        have hw : ∀ r : WideReg, ¬(r.base ≤ off ∧ off < r.base + 0x200) := by
          intro r hr
          have hn : bankAt off = none := (bankAt_eq_none_iff off).2 hm
          unfold locate at h
          rw [if_neg h1, if_neg h2, hn, wideAt_of_window hr] at h
          cases h
        have m1 := hm .hufFreq
        have m2 := hm .hufCode
        have m3 := hm .hufClen
        have m4 := hm .inbuf
        have m5 := hm .outbuf
        have m6 := hm .hbuf
        have m7 := hm .hufNode
        have m8 := hm .arcFreq
        have m9 := hm .arcCum
        have w1 := hw .low
        have w2 := hw .high
        have w3 := hw .scale
        have w4 := hw .mid
        simp only [Bank.base, Bank.size, WideReg.base] at m1 m2 m3 m4 m5 m6 m7 m8 m9 w1 w2 w3 w4
        omega
      · intro h
        have hn : bankAt off = none := by
          rw [bankAt_eq_none_iff]
          intro b
          cases b <;> simp only [Bank.base, Bank.size] <;> omega
        have hw : wideAt off = none := by
          cases hr : wideAt off with
          | none => rfl
          | some r =>
            have := wideAt_window hr
            cases r <;> simp only [WideReg.base] at this <;> omega
        unfold locate
        rw [if_neg h1, if_neg h2, hn, hw]
        rfl

/-- What is located in the input buffer is an offset of its window. -/
theorem locate_inbuf {off o : Nat} (h : locate off = some (.mem .inbuf o)) : o = off ∧ 0x1000 ≤ off ∧ off < 0x1100 := by
  by_cases h1 : off < 0x03C
  · obtain ⟨r, -, hr⟩ := locate_reg h1
    rw [hr] at h
    cases h
  · by_cases h2 : off < 0x400
    · rw [locate_reserved ⟨by omega, h2⟩] at h
      cases h
    · unfold locate at h
      rw [if_neg h1, if_neg h2] at h
      cases hb : bankAt off with
      | none =>
        rw [hb] at h
        cases hw : wideAt off <;> rw [hw] at h <;> cases h
      | some b =>
        rw [hb] at h
        cases h
        exact ⟨rfl, bankAt_window hb⟩

theorem checkAccess_ok {off size : Nat} {l : Loc} (h : checkAccess off size = .ok l) :
    size = 4 ∧ off % 4 = 0 ∧ locate off = some l := by
  unfold checkAccess at h
  split at h
  · rename_i hc
    split at h
    · rename_i l' hl
      cases h
      exact ⟨hc.1, hc.2, hl⟩
    · cases h
  · cases h

theorem checkAccess_of_locate {off : Nat} {l : Loc} (ha : off % 4 = 0) (hl : locate off = some l) :
    checkAccess off 4 = .ok l := by
  unfold checkAccess
  rw [if_pos ⟨rfl, ha⟩, hl]

theorem checkAccess_error {off size : Nat} (h : size ≠ 4 ∨ off % 4 ≠ 0 ∨ locate off = none) :
    checkAccess off size = .error .busError := by
  unfold checkAccess
  split
  · rename_i hc
    rcases h with h | h | h
    · exact absurd hc.1 h
    · exact absurd hc.2 h
    · rw [h]
  · rfl

/-! ## Reads and writes -/

theorem busRead_located {off : Nat} {l : Loc} (s : State) (ha : off % 4 = 0) (hl : locate off = some l) :
    busRead off 4 s = if s.busy && isResult l then (.data (Config.busyReadWord s.draws), { s with draws := s.draws + 1 })
      else (.data (s.locWord l), s) := by
  unfold busRead
  rw [checkAccess_of_locate ha hl]

theorem busWrite_located {off : Nat} {l : Loc} (v : Word) (s : State) (ha : off % 4 = 0) (hl : locate off = some l) :
    busWrite off 4 v s = (.ack, s.writeLoc v l) := by
  unfold busWrite
  rw [checkAccess_of_locate ha hl]

/-- A read leaves the state, or counts one draw. -/
theorem busRead_state (off size : Nat) (s : State) :
    (busRead off size s).2 = s ∨ (busRead off size s).2 = { s with draws := s.draws + 1 } := by
  unfold busRead
  split
  · exact .inl rfl
  · split
    · exact .inr rfl
    · exact .inl rfl

/-- Everything a write to a location can do (R24, R25, R28, R30, R31, R63, R67, R69). -/
theorem writeLoc_cases (v : Word) (s : State) (l : Loc) :
    s.writeLoc v l = s ∨ s.writeLoc v l = s.writeCtrl v ∨ s.writeLoc v l = s.writeStatus v ∨
    (s.busy = true ∧ s.writeLoc v l = s.setWob) ∨ (s.busy = false ∧ s.writeLoc v l = s.accept v) ∨
    (s.busy = false ∧ s.writeLoc v l = { s with inLen := v.setWidth 16 }) ∨
    (s.busy = false ∧ ∃ off, l = .mem .inbuf off ∧ s.writeLoc v l = s.writeInWord off v) := by
  cases l with
  | reg r =>
    cases r <;> simp only [State.writeLoc, State.writeReg, State.writeCmd, State.writeInLen] <;>
      cases hb : s.busy <;> simp
  | reserved => exact .inl rfl
  | mem b off =>
    cases b <;> simp only [State.writeLoc, State.writeInbuf] <;> cases hb : s.busy <;> simp
  | wide r w => exact .inl rfl

/-- Everything a turn of the host can do: nothing, a level of `RST`, a write with its answer, a read or a branch with its
answer. -/
theorem hostTurn_cases {s t : State} (h : hostTurn s = .next t) :
    t = s ∨
    (∃ l, s.host[s.hostPc]? = some (.rst l) ∧ t = { s.setRst l with hostPc := s.hostPc + 1 }) ∨
    (s.inReset = false ∧ ∃ off size v l, s.host[s.hostPc]? = some (.write off size v) ∧ checkAccess off size = .ok l ∧
      t = (s.writeLoc v l).answer (s.hostPc + 1) .ack) ∨
    (s.inReset = false ∧ ∃ u pc r, (u = s ∨ u = { s with draws := s.draws + 1 }) ∧ t = u.answer pc r) := by
  unfold hostTurn at h
  split at h
  · rename_i op hop
    cases op with
    | rst l =>
      simp only [hostOp, Host.Outcome.next.injEq] at h
      exact .inr (.inl ⟨l, hop, h.symm⟩)
    | write off size v =>
      simp only [hostOp] at h
      split at h
      · cases h
      · rename_i hr
        have hr : s.inReset = false := by simpa using hr
        simp only [Host.Outcome.next.injEq] at h
        unfold busWrite at h
        split at h
        · exact .inr (.inr (.inr ⟨hr, s, _, _, .inl rfl, h.symm⟩))
        · rename_i l hl
          exact .inr (.inr (.inl ⟨hr, off, size, v, l, hop, hl, h.symm⟩))
    | read off size =>
      simp only [hostOp] at h
      split at h
      · cases h
      · rename_i hr
        have hr : s.inReset = false := by simpa using hr
        simp only [Host.Outcome.next.injEq] at h
        exact .inr (.inr (.inr ⟨hr, (busRead off size s).2, _, _, busRead_state off size s, h.symm⟩))
    | bnz off mask target =>
      simp only [hostOp] at h
      split at h
      · cases h
      · rename_i hr
        have hr : s.inReset = false := by simpa using hr
        split at h
        · simp only [Host.Outcome.next.injEq] at h
          exact .inr (.inr (.inr ⟨hr, (busRead off 4 s).2, _, _, busRead_state off 4 s, h.symm⟩))
        · simp only [Host.Outcome.next.injEq] at h
          exact .inr (.inr (.inr ⟨hr, _, _, _, .inr rfl, h.symm⟩))
        · simp only [Host.Outcome.next.injEq] at h
          exact .inr (.inr (.inr ⟨hr, _, _, _, .inr rfl, h.symm⟩))
  · simp only [Host.Outcome.next.injEq] at h
    exact .inl h.symm

/-- A turn of the host stops only at a bus access while `RST` is asserted (R230). -/
theorem hostTurn_next {s : State} (h : s.inReset = false ∨ ∀ op, s.host[s.hostPc]? = some op → ∃ l, op = .rst l) :
    ∃ t, hostTurn s = .next t := by
  unfold hostTurn
  split
  · rename_i op hop
    cases op with
    | rst l => exact ⟨_, rfl⟩
    | write off size v =>
      rcases h with h | h
      · exact ⟨_, if_neg (by rw [h]; simp)⟩
      · obtain ⟨l, hl⟩ := h _ hop
        cases hl
    | read off size =>
      rcases h with h | h
      · exact ⟨_, if_neg (by rw [h]; simp)⟩
      · obtain ⟨l, hl⟩ := h _ hop
        cases hl
    | bnz off mask target =>
      rcases h with h | h
      · simp only [hostOp, h, Bool.false_eq_true, if_false]
        split <;> exact ⟨_, rfl⟩
      · obtain ⟨l, hl⟩ := h _ hop
        cases hl
  · exact ⟨_, rfl⟩

end Sys2Proof.Machine
end

