-- ==== Sys2Proof/Laws/Step.lean ====
section
/-! SUPPORT. What `exec` and `step` can do, said once; what every command leaves unchanged. -/
namespace Sys2Proof.Machine

/-- `Execute` of a command: its result before the completion write (R111). -/
def runOf : Instr → State → Result
  | .nop => runNop
  | .sreset => runSreset
  | .rleEnc => runRleEnc
  | .hufFreq => runHufFreq
  | .hufBuild => runHufBuild
  | .hufCodes => runHufCodes
  | .hufEnc => runHufEnc
  | .hufAll => runHufAll
  | .arcInit => runArcInit
  | .arcStep => runArcStep
  | .arcRun => runArcRun
  | .arcFinal => runArcFinal
  | .arcAll => runArcAll

/-- Every command answers a next state: its result with the completion write (R111). -/
theorem exec_eq_complete (i : Instr) (s : State) : exec i s = .next (complete (runOf i s)) := by cases i <;> rfl

theorem exec_next_iff {i : Instr} {s t : State} : exec i s = .next t ↔ t = complete (runOf i s) := by
  rw [exec_eq_complete, Host.Outcome.next.injEq, eq_comm]

/-- An error of a primitive completes with its code and no other change (R203). -/
theorem complete_fail (code : ErrCode) (s : State) : complete (fail code s) = s.completedWith code := rfl

theorem complete_succeed (s : State) : complete (succeed s) = s.completedWith .ok := rfl

/-! ## Each primitive: its errors, or its success (one lemma per primitive) -/

theorem runRleEnc_ok {s : State} (h : s.inputLength ≤ 256) : runRleEnc s =
    succeed { s.fill .outbuf (padTo Config.outBytes (rleEncode s.input)) with
      outLen := BitVec.ofNat 16 (rleEncode s.input).length } := by
  unfold runRleEnc
  exact if_neg (by show ¬ 256 < _; omega)

theorem runRleEnc_long {s : State} (h : 256 < s.inputLength) : runRleEnc s = fail .eLen s := by
  unfold runRleEnc
  exact if_pos h

theorem runHufFreq_ok {s : State} (h : s.inputLength ≤ 256) : runHufFreq s =
    succeed { s.fill .hufFreq (numberBytes (symbolCounts s.input)) with
      hufStage := .freq, hufNLeaf := 0, hufNNode := 0, hufRoot := 0, hufBitLen := 0 } := by
  unfold runHufFreq
  exact if_neg (by show ¬ 256 < _; omega)

theorem runHufFreq_long {s : State} (h : 256 < s.inputLength) : runHufFreq s = fail .eLen s := by
  unfold runHufFreq
  exact if_pos h

theorem runArcInit_long {s : State} (h : 256 < s.inputLength) : runArcInit s = fail .eLen s := by
  unfold runArcInit
  exact if_pos h

theorem runArcInit_ok {s : State} (h : s.inputLength ≤ 256) : runArcInit s =
    succeed { (s.fill .arcFreq (numberBytes (symbolCounts s.input))).fill .arcCum
        (numberBytes (prefixSums 0 (symbolCounts s.input))) with
      arcN := s.inLen, arcPos := 0,
      arcLow := wideOf 0, arcHigh := wideOf 1, arcScale := wideOf 1, arcMid := wideOf 0,
      arcState := .active } := by
  unfold runArcInit
  exact if_neg (by show ¬ 256 < _; omega)

theorem runArcStep_cases (s : State) :
    ((s.arcState = .idle ∨ s.arcN.toNat ≤ s.arcPos.toNat) ∧ runArcStep s = fail .eSeq s) ∨
    (s.arcState ≠ .idle ∧ s.arcPos.toNat < s.arcN.toNat ∧
      ((s.arcFreqAt (s.inByte s.arcPos.toNat).toNat = 0 ∧ runArcStep s = fail .eAlphabet s) ∨
       (s.arcFreqAt (s.inByte s.arcPos.toNat).toNat ≠ 0 ∧
        runArcStep s = succeed (s.narrow (s.inByte s.arcPos.toNat))))) := by
  unfold runArcStep
  split
  · rename_i h; exact .inl ⟨.inl h, rfl⟩
  · rename_i h
    split
    · rename_i h2; exact .inl ⟨.inr h2, rfl⟩
    · rename_i h2
      refine .inr ⟨h, by omega, ?_⟩
      simp only
      split
      · rename_i h3; exact .inl ⟨h3, rfl⟩
      · rename_i h3; exact .inr ⟨h3, rfl⟩

theorem runArcRun_cases (s : State) :
    (s.arcState = .idle ∧ runArcRun s = fail .eSeq s) ∨
    (s.arcState ≠ .idle ∧ (∃ c ∈ s.remaining, s.arcFreqAt c.toNat = 0) ∧ runArcRun s = fail .eAlphabet s) ∨
    (s.arcState ≠ .idle ∧ (∀ c ∈ s.remaining, s.arcFreqAt c.toNat ≠ 0) ∧
      runArcRun s = succeed (s.remaining.foldl State.narrow s)) := by
  unfold runArcRun
  split
  · rename_i h; exact .inl ⟨h, rfl⟩
  · rename_i h
    split
    · rename_i h2
      refine .inr (.inl ⟨h, ?_, rfl⟩)
      simpa using h2
    · rename_i h2
      refine .inr (.inr ⟨h, ?_, rfl⟩)
      simpa using h2

theorem runArcFinal_cases (s : State) :
    ((s.arcState = .idle ∨ s.arcPos ≠ s.arcN) ∧ runArcFinal s = fail .eSeq s) ∨
    (s.arcState ≠ .idle ∧ s.arcPos = s.arcN ∧
      runArcFinal s = succeed { s with arcMid := wideOf (s.arcLow.toNat + s.arcHigh.toNat), arcState := .final }) := by
  unfold runArcFinal
  split
  · rename_i h; exact .inl ⟨h, rfl⟩
  · rename_i h
    rw [not_or, not_not] at h
    exact .inr ⟨h.1, h.2, rfl⟩

theorem runHufBuild_early {s : State} (h : s.hufStage = .none) : runHufBuild s = fail .eSeq s := by
  unfold runHufBuild
  exact if_pos (by rw [h]; exact Nat.zero_lt_one)

theorem hufStage_pos {g : HufStage} (h : g ≠ .none) : 1 ≤ g.toNat := by cases g <;> simp_all [HufStage.toNat]

theorem runHufBuild_ok {s : State} (h : s.hufStage ≠ .none) : runHufBuild s =
    succeed { s.fill .hufNode ((huffmanNodes s.hufFreqAt).flatMap nodeBytes) with
      active := [],
      hufNLeaf := BitVec.ofNat 9 (leavesOf s.hufFreqAt).length,
      hufNNode := if (leavesOf s.hufFreqAt).length = 0 then 0 else BitVec.ofNat 10 (2 * (leavesOf s.hufFreqAt).length - 1),
      hufRoot := if (leavesOf s.hufFreqAt).length = 0 then 0 else BitVec.ofNat 9 (2 * (leavesOf s.hufFreqAt).length - 2),
      hufStage := .tree, hufBitLen := 0 } := by
  unfold runHufBuild
  exact if_neg (by have := hufStage_pos h; omega)

theorem runHufCodes_cases (s : State) :
    (s.hufStage.toNat < 2 ∧ runHufCodes s = fail .eSeq s) ∨
    (2 ≤ s.hufStage.toNat ∧ (∃ code ∈ s.codesOfTree, 32 < codeLength code) ∧ runHufCodes s = fail .eCodelen s) ∨
    (2 ≤ s.hufStage.toNat ∧ (∀ code ∈ s.codesOfTree, codeLength code ≤ 32) ∧
      runHufCodes s = succeed { (s.fill .hufClen (numberBytes (s.codesOfTree.map codeLength))).fill .hufCode
          (numberBytes (s.codesOfTree.map codeWord)) with
        hufStage := .codes, hufBitLen := 0 }) := by
  unfold runHufCodes
  split
  · rename_i h; exact .inl ⟨h, rfl⟩
  · rename_i h
    simp only
    split
    · rename_i h2
      refine .inr (.inl ⟨by omega, ?_, rfl⟩)
      simpa using h2
    · rename_i h2
      refine .inr (.inr ⟨by omega, ?_, rfl⟩)
      simpa using h2

theorem runHufEnc_cases (s : State) :
    (s.hufStage.toNat < 3 ∧ runHufEnc s = fail .eSeq s) ∨
    (3 ≤ s.hufStage.toNat ∧ 256 < s.inputLength ∧ runHufEnc s = fail .eLen s) ∨
    (3 ≤ s.hufStage.toNat ∧ s.inputLength ≤ 256 ∧ (∃ c ∈ s.input, s.hufClenAt c.toNat = 0) ∧
      runHufEnc s = fail .eAlphabet s) ∨
    (3 ≤ s.hufStage.toNat ∧ s.inputLength ≤ 256 ∧ (∀ c ∈ s.input, s.hufClenAt c.toNat ≠ 0) ∧ 2048 < s.encodedLength ∧
      runHufEnc s = fail .eOverflow s) ∨
    (3 ≤ s.hufStage.toNat ∧ s.inputLength ≤ 256 ∧ (∀ c ∈ s.input, s.hufClenAt c.toNat ≠ 0) ∧ s.encodedLength ≤ 2048 ∧
      runHufEnc s = succeed { s.fill .hbuf (packBits Config.hbufBytes s.encodedBits) with
        hufBitLen := BitVec.ofNat 16 s.encodedLength, hufStage := .enc }) := by
  unfold runHufEnc
  split
  · rename_i h; exact .inl ⟨h, rfl⟩
  · rename_i h
    have h : 3 ≤ s.hufStage.toNat := by omega
    split
    · rename_i h2; exact .inr (.inl ⟨h, h2, rfl⟩)
    · rename_i h2
      have h2 : s.inputLength ≤ 256 := by simpa using h2
      split
      · rename_i h3
        refine .inr (.inr (.inl ⟨h, h2, ?_, rfl⟩))
        simpa using h3
      · rename_i h3
        have h3 : ∀ c ∈ s.input, s.hufClenAt c.toNat ≠ 0 := by simpa using h3
        split
        · rename_i h4
          exact .inr (.inr (.inr (.inl ⟨h, h2, h3, h4, rfl⟩)))
        · rename_i h4
          exact .inr (.inr (.inr (.inr ⟨h, h2, h3, by simpa using h4, rfl⟩)))

/-! ## The steps of the machine -/

/-- Everything a step that answers a next state can do: complete the pending command, or one turn of the host. -/
theorem step_cases {s t : State} (h : step s = .next t) :
    (s.completionDue = true ∧ ∃ i, decode s.cmd = .ok i ∧ t = complete (runOf i s)) ∨
    (s.completionDue = true ∧ ∃ e, decode s.cmd = .error e ∧ t = s.completedWith .eIllegal) ∨
    (s.completionDue = false ∧ hostTurn s.tick = .next t) := by
  unfold step at h
  split at h
  · rename_i hd
    unfold completionStep at h
    split at h
    · rename_i i hi
      exact .inl ⟨hd, i, hi, exec_next_iff.1 h⟩
    · rename_i e he
      simp only [Host.Outcome.next.injEq] at h
      exact .inr (.inl ⟨hd, e, he, h.symm⟩)
  · rename_i hd
    exact .inr (.inr ⟨by simpa using hd, h⟩)

/-! ## Compound commands -/

theorem compound_nil (s : State) : compound [] s = succeed s := rfl

theorem compound_cons (p : State → Result) (ps : List (State → Result)) (s : State) :
    compound (p :: ps) s = if (p s).code = .ok then compound ps (p s).state else p s := rfl

/-- A property of the state that every primitive of a list keeps, whatever its code, is kept by their compound. -/
theorem compound_induct {P : State → Prop} {ps : List (State → Result)} {s : State} (h0 : P s)
    (hp : ∀ p ∈ ps, ∀ u, P u → P (p u).state) : P (compound ps s).state := by
  induction ps generalizing s with
  | nil => exact h0
  | cons p ps ih =>
    rw [compound_cons]
    split
    · exact ih (hp p List.mem_cons_self s h0) fun q hq => hp q (List.mem_cons_of_mem _ hq)
    · exact hp p List.mem_cons_self s h0

end Sys2Proof.Machine
end

