-- ==== Sys2Proof/Laws/Counts.lean ====
section
/-! SUPPORT. The symbol counts (R10) and what the tables hold after `HUF_FREQ` and `ARC_INIT` (R141, R172, R173). -/
namespace Sys2Proof.Machine

/-! ## Counts -/

/-- The 256 symbols in order. -/
def allSymbols : List Byte := (List.range 256).map fun c => BitVec.ofNat 8 c

theorem allSymbols_count (x : Byte) : allSymbols.count x = 1 := by
  have h : ∀ y : Fin 256, allSymbols.count (BitVec.ofFin y) = 1 := by decide +kernel
  exact h x.toFin

theorem symbolCounts_eq (input : List Byte) : symbolCounts input = allSymbols.map fun c => input.count c := by
  unfold symbolCounts allSymbols
  rw [List.map_map]
  rfl

theorem sum_map_count_cons (cs : List Byte) (x : Byte) (xs : List Byte) :
    (cs.map fun c => (x :: xs).count c).sum = (cs.map fun c => xs.count c).sum + cs.count x := by
  induction cs with
  | nil => rfl
  | cons c cs ih =>
    rw [List.map_cons, List.sum_cons, ih, List.map_cons, List.sum_cons]
    by_cases h : x = c
    · subst h
      rw [List.count_cons_self, List.count_cons_self]
      omega
    · rw [List.count_cons_of_ne h, List.count_cons_of_ne (fun e => h e.symm)]
      omega

/-- The counts add up to the length of the input (R141, R173). -/
theorem sum_symbolCounts (input : List Byte) : (symbolCounts input).sum = input.length := by
  rw [symbolCounts_eq]
  induction input with
  | nil => simp
  | cons x xs ih => rw [sum_map_count_cons, ih, allSymbols_count]; rfl

@[simp] theorem length_symbolCounts (input : List Byte) : (symbolCounts input).length = 256 := by
  simp [symbolCounts]

theorem symbolCounts_getElem (input : List Byte) {c : Nat} (h : c < (symbolCounts input).length) :
    (symbolCounts input)[c] = input.count (BitVec.ofNat 8 c) := by
  simp [symbolCounts]

@[simp] theorem length_input (s : State) : s.input.length = s.inputLength := by simp [State.input]

theorem symbolCounts_le (s : State) {c : Nat} (h : c < (symbolCounts s.input).length) :
    (symbolCounts s.input)[c] ≤ s.inputLength := by
  rw [symbolCounts_getElem, ← length_input]
  exact List.count_le_length

/-- The sum of a table given by its entries. -/
theorem sum_range_getElem (ns : List Nat) {c : Nat} (h : c ≤ ns.length) (f : Nat → Nat)
    (hf : ∀ d, (hd : d < ns.length) → f d = ns[d]) : ((List.range c).map f).sum = (ns.take c).sum := by
  have : (List.range c).map f = ns.take c := by
    apply List.ext_getElem
    · simp; omega
    · intro i h1 h2
      simp only [List.length_map, List.length_range] at h1
      simp [hf i (by omega)]
  rw [this]

/-! ## Running sums -/

@[simp] theorem length_prefixSums (acc : Nat) (ns : List Nat) : (prefixSums acc ns).length = ns.length := by
  induction ns generalizing acc with
  | nil => rfl
  | cons n ns ih => simp [prefixSums, ih]

theorem prefixSums_getElem (acc : Nat) (ns : List Nat) {c : Nat} (h : c < (prefixSums acc ns).length) :
    (prefixSums acc ns)[c] = acc + (ns.take c).sum := by
  induction ns generalizing acc c with
  | nil => simp [prefixSums] at h
  | cons n ns ih =>
    cases c with
    | zero => simp [prefixSums]
    | succ c =>
      have h' : c < (prefixSums (acc + n) ns).length := by simpa [prefixSums] using h
      simp only [prefixSums, List.getElem_cons_succ, ih _ h', List.take_succ_cons, List.sum_cons]
      omega

theorem sum_take_le (ns : List Nat) (c : Nat) : (ns.take c).sum ≤ ns.sum := by
  have h := congrArg List.sum (List.take_append_drop c ns)
  rw [List.sum_append] at h
  omega

/-! ## The tables after a command -/

/-- The frequency table after it was written with the counts of a legal input (R141). -/
theorem fill_counts_hufFreqAt (s u : State) (hn : s.inputLength ≤ 256) {c : Nat} (hc : c < 256) :
    ((u.fill .hufFreq (numberBytes (symbolCounts s.input))).hufFreqAt c).toNat = s.input.count (BitVec.ofNat 8 c) := by
  have hl : c < (symbolCounts s.input).length := by rw [length_symbolCounts]; exact hc
  rw [fill_hufFreqAt _ _ hl hc, BitVec.toNat_ofNat, Nat.mod_eq_of_lt, symbolCounts_getElem]
  have := symbolCounts_le s hl
  omega

theorem fill_counts_arcFreqAt (s u : State) (hn : s.inputLength ≤ 256) {c : Nat} (hc : c < 256) :
    ((u.fill .arcFreq (numberBytes (symbolCounts s.input))).arcFreqAt c).toNat = s.input.count (BitVec.ofNat 8 c) := by
  have hl : c < (symbolCounts s.input).length := by rw [length_symbolCounts]; exact hc
  rw [fill_arcFreqAt _ _ hl hc, BitVec.toNat_ofNat, Nat.mod_eq_of_lt, symbolCounts_getElem]
  have := symbolCounts_le s hl
  omega

theorem fill_sums_arcCumAt (s u : State) (hn : s.inputLength ≤ 256) {c : Nat} (hc : c < 256) :
    ((u.fill .arcCum (numberBytes (prefixSums 0 (symbolCounts s.input)))).arcCumAt c).toNat =
      ((symbolCounts s.input).take c).sum := by
  have hl : c < (prefixSums 0 (symbolCounts s.input)).length := by rw [length_prefixSums, length_symbolCounts]; exact hc
  rw [fill_arcCumAt _ _ hl hc, BitVec.toNat_ofNat, prefixSums_getElem, Nat.zero_add, Nat.mod_eq_of_lt]
  have := sum_take_le (symbolCounts s.input) c
  rw [sum_symbolCounts, length_input] at this
  omega

/-- After `HUF_FREQ` on a legal input the table holds the counts (R141). -/
theorem hufFreq_counts {s : State} (hn : s.inputLength ≤ 256) {c : Nat} (hc : c < 256) :
    ((complete (runHufFreq s)).hufFreqAt c).toNat = s.input.count (BitVec.ofNat 8 c) := by
  rw [runHufFreq_ok hn, ← fill_counts_hufFreqAt s s hn hc]
  rfl

/-- After `HUF_FREQ` on a legal input the counts add up to its length (R141). -/
theorem hufFreq_total {s : State} (hn : s.inputLength ≤ 256) :
    (complete (runHufFreq s)).hufFreqTotal = s.inputLength := by
  unfold State.hufFreqTotal
  rw [sum_range_getElem (symbolCounts s.input) (by simp), List.take_of_length_le (by simp), sum_symbolCounts, length_input]
  intro d hd
  rw [length_symbolCounts] at hd
  rw [hufFreq_counts hn hd, symbolCounts_getElem]

theorem ofNat_toNat_byte (c : Byte) : BitVec.ofNat 8 c.toNat = c := by simp

end Sys2Proof.Machine
end

