-- ==== Sys2Proof/Laws/Arith.lean ====
section
/-! SUPPORT. The arithmetic coder: its tables, the bounds of R171, and what a narrowing does to R48. -/
namespace Sys2Proof.Machine

/-! ## Observers depend on their bank only -/

theorem arcFreqAt_congr {s t : State} (h : t.arcFreq = s.arcFreq) (hr : t.resets = s.resets) (c : Nat) :
    t.arcFreqAt c = s.arcFreqAt c := by
  unfold State.arcFreqAt
  rw [bankWord_congr (b := .arcFreq) h hr]

theorem arcCumAt_congr {s t : State} (h : t.arcCum = s.arcCum) (hr : t.resets = s.resets) (c : Nat) :
    t.arcCumAt c = s.arcCumAt c := by
  unfold State.arcCumAt
  rw [bankWord_congr (b := .arcCum) h hr]

theorem arcFreqSum_congr {s t : State} (h : t.arcFreq = s.arcFreq) (hr : t.resets = s.resets) (c : Nat) :
    t.arcFreqSum c = s.arcFreqSum c := by
  unfold State.arcFreqSum
  simp only [arcFreqAt_congr h hr]

theorem inByte_congr {s t : State} (h : t.inbuf = s.inbuf) (hr : t.resets = s.resets) (i : Nat) :
    t.inByte i = s.inByte i := bankByte_congr (b := .inbuf) h hr _

theorem input_congr {s t : State} (hl : t.inLen = s.inLen) (h : t.inbuf = s.inbuf) (hr : t.resets = s.resets) :
    t.input = s.input := by
  unfold State.input State.inputLength
  rw [hl]
  exact List.map_congr_left fun i _ => inByte_congr h hr i

/-- What R48 depends on: the coder's registers and tables. -/
theorem ArithLive_congr {s t : State} (hs : s.ArithLive) (hregs : ArithRegistersUnchanged s t)
    (hf : t.arcFreq = s.arcFreq) (hc : t.arcCum = s.arcCum) (hr : t.resets = s.resets) : t.ArithLive := by
  obtain ⟨h1, h2, h3, h4, h5, h6, h7⟩ := hregs
  constructor
  · rw [h2]; exact hs.nBound
  · rw [h2, h3]; exact hs.posBound
  · rw [h2, h3, h6]; exact hs.scale
  · rw [h4, h5]; exact hs.lowHigh
  · rw [h5, h6]; exact hs.highScale
  · obtain ⟨syms, w1, w2, w3⟩ := hs.width
    refine ⟨syms, by rw [h3]; exact w1, fun c hcc => by rw [arcFreqAt_congr hf hr]; exact w2 c hcc, ?_⟩
    rw [h4, h5, w3]
    simp only [arcFreqAt_congr hf hr]
  · intro c hcc; rw [arcCumAt_congr hc hr, arcFreqSum_congr hf hr]; exact hs.cumTable c hcc
  · rw [arcFreqSum_congr hf hr, h2]; exact hs.freqTotal
  · rw [h1, h7]; exact hs.midActive
  · rw [h1, h4, h5, h7]; exact hs.midFinal
  · rw [h1, h2, h3]; exact hs.posFinal

/-! ## Sizes -/

theorem toNat_wideOf {n : Nat} (h : n < 2 ^ 2080) : (wideOf n).toNat = n := by
  unfold wideOf
  rw [BitVec.toNat_ofNat, Nat.mod_eq_of_lt h]

/-- The bound of R171: with at most 256 symbols, a scale is at most `2^2048`. -/
theorem pow_le_scaleBound {n p : Nat} (hn : n ≤ 256) (hp : p ≤ n) : n ^ p ≤ 2 ^ 2048 := by
  have h1 : n ^ p ≤ 256 ^ p := Nat.pow_le_pow_left hn p
  have h2 : 256 ^ p ≤ 256 ^ 256 := Nat.pow_le_pow_right (by omega) (by omega)
  have h3 : (2 ^ 8) ^ 256 = 2 ^ (8 * 256) := (Nat.pow_mul 2 8 256).symm
  omega

theorem scaleBound_lt : 2 ^ 2048 + 2 ^ 2048 < 2 ^ 2080 := by
  rw [← Nat.two_mul, ← Nat.pow_succ']
  exact Nat.pow_lt_pow_right (by omega) (by omega)

theorem ArithLive_scale_le {s : State} (h : s.ArithLive) : s.arcScale.toNat ≤ 2 ^ 2048 := by
  rw [h.scale]
  exact pow_le_scaleBound h.nBound h.posBound

/-- The midpoint fits its register (R171, R176). -/
theorem ArithLive_mid_fits {s : State} (h : s.ArithLive) :
    (wideOf (s.arcLow.toNat + s.arcHigh.toNat)).toNat = s.arcLow.toNat + s.arcHigh.toNat := by
  apply toNat_wideOf
  have h1 := ArithLive_scale_le h
  have h2 := h.lowHigh
  have h3 := h.highScale
  have h4 := scaleBound_lt
  generalize 2 ^ 2048 = x at *
  generalize 2 ^ 2080 = y at *
  omega

/-! ## The tables of R173 -/

theorem arcFreqSum_succ (s : State) (c : Nat) : s.arcFreqSum (c + 1) = s.arcFreqSum c + (s.arcFreqAt c).toNat := by
  unfold State.arcFreqSum
  rw [List.range_succ, List.map_append, List.sum_append]
  simp

theorem arcFreqSum_mono (s : State) {c d : Nat} (h : c ≤ d) : s.arcFreqSum c ≤ s.arcFreqSum d := by
  induction d, h using Nat.le_induction with
  | base => exact le_refl _
  | succ d _ ih => rw [arcFreqSum_succ]; omega

/-- The upper end of a symbol's range lies within `ARC_N` (R173). -/
theorem ArithLive_cum_add_freq {s : State} (h : s.ArithLive) {c : Nat} (hc : c < 256) :
    (s.arcCumAt c).toNat + (s.arcFreqAt c).toNat ≤ s.arcN.toNat := by
  rw [h.cumTable c hc, ← arcFreqSum_succ, ← h.freqTotal]
  exact arcFreqSum_mono s (by omega)

/-! ## One narrowing (R174) -/

/-- While R48 holds, nothing wraps in a narrowing: the three new numbers are exact. -/
theorem narrow_exact {s : State} (h : s.ArithLive) (hp : s.arcPos.toNat < s.arcN.toNat) (c : Byte) :
    (s.narrow c).arcPos.toNat = s.arcPos.toNat + 1 ∧
    (s.narrow c).arcScale.toNat = s.arcScale.toNat * s.arcN.toNat ∧
    (s.narrow c).arcLow.toNat =
      s.arcLow.toNat * s.arcN.toNat + (s.arcHigh.toNat - s.arcLow.toNat) * (s.arcCumAt c.toNat).toNat ∧
    (s.narrow c).arcHigh.toNat =
      s.arcLow.toNat * s.arcN.toNat +
        (s.arcHigh.toNat - s.arcLow.toNat) * ((s.arcCumAt c.toNat).toNat + (s.arcFreqAt c.toNat).toNat) := by
  have hN := h.nBound
  have hcf := ArithLive_cum_add_freq h (c := c.toNat) c.isLt
  have hlh := h.lowHigh
  have hhs := h.highScale
  have hscale : s.arcScale.toNat * s.arcN.toNat ≤ 2 ^ 2048 := by
    rw [h.scale, ← Nat.pow_succ]
    exact pow_le_scaleBound hN hp
  have hbig := scaleBound_lt
  have hhigh : s.arcLow.toNat * s.arcN.toNat +
      (s.arcHigh.toNat - s.arcLow.toNat) * ((s.arcCumAt c.toNat).toNat + (s.arcFreqAt c.toNat).toNat) ≤
      s.arcScale.toNat * s.arcN.toNat := by
    calc _ ≤ s.arcLow.toNat * s.arcN.toNat + (s.arcHigh.toNat - s.arcLow.toNat) * s.arcN.toNat :=
          Nat.add_le_add_left (Nat.mul_le_mul_left _ hcf) _
      _ = s.arcHigh.toNat * s.arcN.toNat := by rw [← Nat.add_mul]; congr 1; omega
      _ ≤ _ := Nat.mul_le_mul_right _ hhs
  have hlow : (s.arcHigh.toNat - s.arcLow.toNat) * (s.arcCumAt c.toNat).toNat ≤
      (s.arcHigh.toNat - s.arcLow.toNat) * ((s.arcCumAt c.toNat).toNat + (s.arcFreqAt c.toNat).toNat) :=
    Nat.mul_le_mul_left _ (by omega)
  have hfit : ∀ x, x ≤ s.arcScale.toNat * s.arcN.toNat → x < 2 ^ 2080 := by
    intro x hx
    generalize 2 ^ 2048 = y at *
    generalize 2 ^ 2080 = z at *
    omega
  refine ⟨?_, toNat_wideOf (hfit _ (le_refl _)), toNat_wideOf (hfit _ (by omega)), toNat_wideOf (hfit _ hhigh)⟩
  rw [narrow_arcPos, BitVec.toNat_add, Nat.mod_eq_of_lt]
  · rfl
  · show s.arcPos.toNat + 1 < 2 ^ 16
    omega

/-- A narrowing by a symbol of the model keeps R48 and multiplies the width by the symbol's frequency (R48, R178). -/
theorem narrow_live {s : State} (h : s.ArithLive) (hp : s.arcPos.toNat < s.arcN.toNat) {c : Byte}
    (hc : s.arcFreqAt c.toNat ≠ 0) :
    (s.narrow c).ArithLive ∧ (s.narrow c).arcHigh.toNat - (s.narrow c).arcLow.toNat =
      (s.arcHigh.toNat - s.arcLow.toNat) * (s.arcFreqAt c.toNat).toNat := by
  obtain ⟨e1, e2, e3, e4⟩ := narrow_exact h hp c
  have hf : 0 < (s.arcFreqAt c.toNat).toNat := by
    rw [Nat.pos_iff_ne_zero]
    intro h0
    exact hc (BitVec.eq_of_toNat_eq h0)
  have hcf := ArithLive_cum_add_freq h (c := c.toNat) c.isLt
  have hlh := h.lowHigh
  have hhs := h.highScale
  rw [Nat.mul_add] at e4
  have hw : 0 < (s.arcHigh.toNat - s.arcLow.toNat) * (s.arcFreqAt c.toNat).toNat := Nat.mul_pos (by omega) hf
  have hwidth : (s.narrow c).arcHigh.toNat - (s.narrow c).arcLow.toNat =
      (s.arcHigh.toNat - s.arcLow.toNat) * (s.arcFreqAt c.toNat).toNat := by
    rw [e3, e4]
    omega
  refine ⟨⟨h.nBound, ?_, ?_, ?_, ?_, ?_, ?_, ?_, h.midActive, ?_, ?_⟩, hwidth⟩
  · rw [e1]; exact hp
  · rw [e1, e2, h.scale]; exact (Nat.pow_succ _ _).symm
  · rw [e3, e4]; omega
  · rw [e2, e4, ← Nat.mul_add]
    calc _ ≤ s.arcLow.toNat * s.arcN.toNat + (s.arcHigh.toNat - s.arcLow.toNat) * s.arcN.toNat :=
          Nat.add_le_add_left (Nat.mul_le_mul_left _ hcf) _
      _ = s.arcHigh.toNat * s.arcN.toNat := by rw [← Nat.add_mul]; congr 1; omega
      _ ≤ _ := Nat.mul_le_mul_right _ hhs
  · obtain ⟨syms, w1, w2, w3⟩ := h.width
    refine ⟨c :: syms, ?_, ?_, ?_⟩
    · rw [e1, List.length_cons, w1]
    · intro d hd
      rcases List.mem_cons.1 hd with rfl | hd
      · exact hc
      · exact w2 d hd
    · rw [hwidth, w3, Nat.mul_comm]
      rfl
  · intro d hd
    rw [arcCumAt_congr (t := s.narrow c) (s := s) rfl rfl, arcFreqSum_congr (t := s.narrow c) (s := s) rfl rfl]
    exact h.cumTable d hd
  · rw [arcFreqSum_congr (t := s.narrow c) (s := s) rfl rfl]; exact h.freqTotal
  · intro hfin
    have := h.posFinal hfin
    rw [this] at hp
    exact absurd hp (Nat.lt_irrefl _)
  · intro hfin
    have := h.posFinal hfin
    rw [this] at hp
    exact absurd hp (Nat.lt_irrefl _)

/-! ## The whole rest of the input (R175) -/

/-- What a fold of narrowings leaves unchanged. -/
theorem foldl_narrow_frame (cs : List Byte) (s : State) :
    cs.foldl State.narrow s = { s with
      arcLow := (cs.foldl State.narrow s).arcLow, arcHigh := (cs.foldl State.narrow s).arcHigh,
      arcScale := (cs.foldl State.narrow s).arcScale, arcPos := (cs.foldl State.narrow s).arcPos } := by
  induction cs generalizing s with
  | nil => rfl
  | cons c cs ih =>
    rw [List.foldl_cons, ih]
    rfl

/-- Narrowing by symbols of the model, as many as are left at most, keeps R48 and multiplies the width by their
frequencies. -/
theorem foldl_narrow_live (cs : List Byte) {s : State} (h : s.ArithLive) (hl : s.arcPos.toNat + cs.length ≤ s.arcN.toNat)
    (hc : ∀ c ∈ cs, s.arcFreqAt c.toNat ≠ 0) :
    (cs.foldl State.narrow s).ArithLive ∧
    (cs.foldl State.narrow s).arcPos.toNat = s.arcPos.toNat + cs.length ∧
    (cs.foldl State.narrow s).arcHigh.toNat - (cs.foldl State.narrow s).arcLow.toNat =
      (s.arcHigh.toNat - s.arcLow.toNat) * (cs.map fun c => (s.arcFreqAt c.toNat).toNat).prod := by
  induction cs generalizing s with
  | nil => exact ⟨h, rfl, by simp⟩
  | cons c cs ih =>
    have hp : s.arcPos.toNat < s.arcN.toNat := by simp at hl; omega
    obtain ⟨hlive, hw⟩ := narrow_live h hp (hc c List.mem_cons_self)
    obtain ⟨e1, -, -, -⟩ := narrow_exact h hp c
    have hfr : ∀ d, (s.narrow c).arcFreqAt d = s.arcFreqAt d := arcFreqAt_congr rfl rfl
    obtain ⟨i1, i2, i3⟩ := ih hlive
      (by show (s.narrow c).arcPos.toNat + cs.length ≤ s.arcN.toNat; rw [e1]; simp at hl; omega)
      (fun d hd => by rw [hfr]; exact hc d (List.mem_cons_of_mem _ hd))
    refine ⟨i1, ?_, ?_⟩
    · rw [List.foldl_cons, i2, e1, List.length_cons]; omega
    · rw [List.foldl_cons, i3, hw, List.map_cons, List.prod_cons, Nat.mul_assoc]
      simp only [hfr]

@[simp] theorem length_remaining (s : State) : s.remaining.length = s.arcN.toNat - s.arcPos.toNat := by
  simp [State.remaining]

/-- With something left, the first of the remaining symbols stands at `INBUF[ARC_POS]`. -/
theorem remaining_cons {s : State} (h : s.arcPos.toNat < s.arcN.toNat) (c : Byte) :
    s.remaining = s.inByte s.arcPos.toNat :: (s.narrow c).remaining := by
  have hpos : (s.narrow c).arcPos.toNat = s.arcPos.toNat + 1 := by
    rw [narrow_arcPos, BitVec.toNat_add, Nat.mod_eq_of_lt]
    · rfl
    · show s.arcPos.toNat + 1 < 2 ^ 16
      have := s.arcN.isLt
      omega
  unfold State.remaining
  rw [hpos, narrow_arcN, show s.arcN.toNat - s.arcPos.toNat = (s.arcN.toNat - (s.arcPos.toNat + 1)) + 1 by omega,
    List.range'_succ, List.map_cons]
  congr 1

/-- After `ARC_INIT` on a legal input R48 holds (R172, R173). -/
theorem arcInit_live {s : State} (hn : s.inputLength ≤ 256) : (complete (runArcInit s)).ArithLive := by
  rw [runArcInit_ok hn]
  have hfreq : ∀ c, c < 256 → ((complete (succeed { (s.fill .arcFreq (numberBytes (symbolCounts s.input))).fill .arcCum
      (numberBytes (prefixSums 0 (symbolCounts s.input))) with
        arcN := s.inLen, arcPos := 0, arcLow := wideOf 0, arcHigh := wideOf 1, arcScale := wideOf 1, arcMid := wideOf 0,
        arcState := .active })).arcFreqAt c).toNat = s.input.count (BitVec.ofNat 8 c) := by
    intro c hc
    rw [← fill_counts_arcFreqAt s s hn hc, arcFreqAt_congr (c := c)]
    · rfl
    · exact (fill_resets _ _ _)
  have hsum : ∀ c, c ≤ 256 → State.arcFreqSum (complete (succeed { (s.fill .arcFreq (numberBytes (symbolCounts s.input))).fill .arcCum
      (numberBytes (prefixSums 0 (symbolCounts s.input))) with
        arcN := s.inLen, arcPos := 0, arcLow := wideOf 0, arcHigh := wideOf 1, arcScale := wideOf 1, arcMid := wideOf 0,
        arcState := .active })) c = ((symbolCounts s.input).take c).sum := by
    intro c hc
    refine sum_range_getElem _ (by rw [length_symbolCounts]; exact hc) _ fun d hd => ?_
    rw [length_symbolCounts] at hd
    rw [hfreq d hd, symbolCounts_getElem]
  have h1 : (wideOf 1).toNat = 1 := toNat_wideOf (Nat.one_lt_two_pow (by omega))
  have h0 : (wideOf 0).toNat = 0 := toNat_wideOf (Nat.two_pow_pos _)
  refine ⟨hn, Nat.zero_le _, ?_, ?_, ?_, ⟨[], rfl, by simp, ?_⟩, ?_, ?_, fun _ => h0, ?_, ?_⟩
  · show (wideOf 1).toNat = _ ^ 0
    rw [h1, Nat.pow_zero]
  · show (wideOf 0).toNat < (wideOf 1).toNat
    omega
  · show (wideOf 1).toNat ≤ (wideOf 1).toNat
    omega
  · show (wideOf 1).toNat - (wideOf 0).toNat = 1
    omega
  · intro c hc
    rw [hsum c (by omega), ← fill_sums_arcCumAt s (s.fill .arcFreq (numberBytes (symbolCounts s.input))) hn hc]
    rfl
  · rw [hsum 256 (le_refl _), List.take_of_length_le (by rw [length_symbolCounts]), sum_symbolCounts, length_input]
    rfl
  · intro h; cases h
  · intro h; cases h

/-- `ARC_FINAL` keeps R48 (R176). -/
theorem arcFinal_live {s : State} (h : s.ArithLive) : (complete (runArcFinal s)).ArithLive := by
  rcases runArcFinal_cases s with ⟨-, hr⟩ | ⟨-, hp, hr⟩
  · rw [hr]
    exact ArithLive_congr (t := complete (fail .eSeq s)) h ⟨rfl, rfl, rfl, rfl, rfl, rfl, rfl⟩ rfl rfl rfl
  · rw [hr]
    exact ⟨h.nBound, h.posBound, h.scale, h.lowHigh, h.highScale, h.width, h.cumTable, h.freqTotal, (fun hc => nomatch hc),
      fun _ => ArithLive_mid_fits h, fun _ => hp⟩

/-- `ARC_STEP` keeps R48 (R174). -/
theorem arcStep_live {s : State} (h : s.ArithLive) : (complete (runArcStep s)).ArithLive := by
  rcases runArcStep_cases s with ⟨-, hr⟩ | ⟨-, hp, ⟨-, hr⟩ | ⟨hf, hr⟩⟩
  · rw [hr]
    exact ArithLive_congr (t := complete (fail .eSeq s)) h ⟨rfl, rfl, rfl, rfl, rfl, rfl, rfl⟩ rfl rfl rfl
  · rw [hr]
    exact ArithLive_congr (t := complete (fail .eAlphabet s)) h ⟨rfl, rfl, rfl, rfl, rfl, rfl, rfl⟩ rfl rfl rfl
  · rw [hr]
    exact ArithLive_congr (t := complete (succeed (s.narrow _))) (narrow_live h hp hf).1
      ⟨rfl, rfl, rfl, rfl, rfl, rfl, rfl⟩ rfl rfl rfl

/-- `ARC_RUN` keeps R48 (R175). -/
theorem arcRun_live {s : State} (h : s.ArithLive) : (complete (runArcRun s)).ArithLive := by
  rcases runArcRun_cases s with ⟨-, hr⟩ | ⟨-, -, hr⟩ | ⟨-, hf, hr⟩
  · rw [hr]
    exact ArithLive_congr (t := complete (fail .eSeq s)) h ⟨rfl, rfl, rfl, rfl, rfl, rfl, rfl⟩ rfl rfl rfl
  · rw [hr]
    exact ArithLive_congr (t := complete (fail .eAlphabet s)) h ⟨rfl, rfl, rfl, rfl, rfl, rfl, rfl⟩ rfl rfl rfl
  · rw [hr]
    have hl : s.arcPos.toNat + s.remaining.length ≤ s.arcN.toNat := by
      have := h.posBound
      rw [length_remaining]
      omega
    exact ArithLive_congr (t := complete (succeed (s.remaining.foldl State.narrow s))) (foldl_narrow_live _ h hl hf).1
      ⟨rfl, rfl, rfl, rfl, rfl, rfl, rfl⟩ rfl rfl rfl

end Sys2Proof.Machine
end

