-- ==== Sys2Proof/Laws/Frames.lean ====
section
/-! SUPPORT. What each command leaves unchanged, composed from what the shared operations leave unchanged (R111, R203). -/
namespace Sys2Proof.Machine

/-! ## The interface -/

theorem InterfaceUnchanged.refl (s : State) : InterfaceUnchanged s s := by constructor <;> rfl

theorem InterfaceUnchanged.trans {a b c : State} (h : InterfaceUnchanged a b) (k : InterfaceUnchanged b c) :
    InterfaceUnchanged a c :=
  ⟨k.ie.trans h.ie, k.wob.trans h.wob, k.cmd.trans h.cmd, k.inLen.trans h.inLen, k.inbuf.trans h.inbuf,
    k.inReset.trans h.inReset, k.latency.trans h.latency, k.draws.trans h.draws, k.resets.trans h.resets,
    k.host.trans h.host, k.hostPc.trans h.hostPc, k.responses.trans h.responses⟩

theorem interface_fill {b : Bank} (hb : b ≠ .inbuf) (v : List Byte) (s : State) : InterfaceUnchanged s (s.fill b v) :=
  ⟨fill_ie .., fill_wob .., fill_cmd .., fill_inLen .., fill_bank_other (d := .inbuf) (Ne.symm hb) v s, fill_inReset ..,
    fill_latency .., fill_draws .., fill_resets .., fill_host .., fill_hostPc .., fill_responses ..⟩

theorem interface_complete {s : State} {r : Result} (h : InterfaceUnchanged s r.state) :
    InterfaceUnchanged s (complete r) := h.trans (by constructor <;> rfl)

/-! ## Two states with the same banks show the same bytes -/

/-- `t` holds the same memories as `s`. -/
def SameBanks (s t : State) : Prop := t.resets = s.resets ∧ ∀ b, t.bank b = s.bank b

theorem bytesUnchanged_of_sameBanks {s t : State} (h : SameBanks s t) : BytesUnchanged s t := fun _ =>
  byteAt_congr h.1 fun b _ => h.2 b

theorem sameBanks_complete (r : Result) : SameBanks r.state (complete r) := ⟨rfl, fun b => by cases b <;> rfl⟩

theorem byteAt_complete (r : Result) (a : Nat) : (complete r).byteAt a = r.state.byteAt a :=
  bytesUnchanged_of_sameBanks (sameBanks_complete r) a

/-- Overwriting a bank from its first offset on changes no byte outside its window. -/
theorem fill_byteAt_window (b : Bank) (vs : List Byte) (s : State) {a lo hi : Nat} (h : ¬(lo ≤ a ∧ a < hi))
    (hlo : lo ≤ b.base) (hhi : b.base + vs.length ≤ hi) : (s.fill b vs).byteAt a = s.byteAt a :=
  fill_byteAt_outside b vs s fun c => h ⟨by omega, by omega⟩

theorem length_padTo {n : Nat} {bytes : List Byte} (h : bytes.length ≤ n) : (padTo n bytes).length = n := by
  unfold padTo
  rw [List.length_append, List.length_replicate]
  omega

@[simp] theorem length_packBits (n : Nat) (bits : List Bool) : (packBits n bits).length = n := by
  induction n generalizing bits with
  | zero => rfl
  | succ n ih => rw [packBits, List.length_cons, ih]

@[simp] theorem length_codesOfTree (s : State) : s.codesOfTree.length = 256 := by
  simp [State.codesOfTree, codeTable]

/-! ## The primitives -/

/-- What a primitive's result can be: an error with nothing changed, or a success whose state is the old one with the
memories of one engine written and its registers set. -/
theorem interface_rleEnc (s : State) : InterfaceUnchanged s (runRleEnc s).state := by
  rcases Nat.lt_or_ge 256 s.inputLength with h | h
  · rw [runRleEnc_long h]; exact .refl s
  · rw [runRleEnc_ok h]; exact (interface_fill (b := .outbuf) (by decide) (padTo Config.outBytes (rleEncode s.input)) s).trans
      (by constructor <;> rfl)

theorem interface_hufFreq (s : State) : InterfaceUnchanged s (runHufFreq s).state := by
  rcases Nat.lt_or_ge 256 s.inputLength with h | h
  · rw [runHufFreq_long h]; exact .refl s
  · rw [runHufFreq_ok h]; exact (interface_fill (b := .hufFreq) (by decide) (numberBytes (symbolCounts s.input)) s).trans
      (by constructor <;> rfl)

theorem interface_hufBuild (s : State) : InterfaceUnchanged s (runHufBuild s).state := by
  by_cases h : s.hufStage = .none
  · rw [runHufBuild_early h]; exact .refl s
  · rw [runHufBuild_ok h]; exact (interface_fill (b := .hufNode) (by decide) ((huffmanNodes s.hufFreqAt).flatMap nodeBytes) s).trans
      (by constructor <;> rfl)

theorem interface_hufCodes (s : State) : InterfaceUnchanged s (runHufCodes s).state := by
  rcases runHufCodes_cases s with ⟨-, h⟩ | ⟨-, -, h⟩ | ⟨-, -, h⟩ <;> rw [h]
  · exact .refl s
  · exact .refl s
  · exact ((interface_fill (b := .hufClen) (by decide) (numberBytes (s.codesOfTree.map codeLength)) s).trans
      (interface_fill (b := .hufCode) (by decide) (numberBytes (s.codesOfTree.map codeWord)) _)).trans
      (by constructor <;> rfl)

theorem interface_hufEnc (s : State) : InterfaceUnchanged s (runHufEnc s).state := by
  rcases runHufEnc_cases s with ⟨-, h⟩ | ⟨-, -, h⟩ | ⟨-, -, -, h⟩ | ⟨-, -, -, -, h⟩ | ⟨-, -, -, -, h⟩ <;> rw [h]
  · exact .refl s
  · exact .refl s
  · exact .refl s
  · exact .refl s
  · exact (interface_fill (b := .hbuf) (by decide) (packBits Config.hbufBytes s.encodedBits) s).trans
      (by constructor <;> rfl)

theorem interface_arcInit (s : State) : InterfaceUnchanged s (runArcInit s).state := by
  rcases Nat.lt_or_ge 256 s.inputLength with h | h
  · rw [runArcInit_long h]; exact .refl s
  · rw [runArcInit_ok h]
    exact ((interface_fill (b := .arcFreq) (by decide) (numberBytes (symbolCounts s.input)) s).trans
      (interface_fill (b := .arcCum) (by decide) (numberBytes (prefixSums 0 (symbolCounts s.input))) _)).trans
      (by constructor <;> rfl)

theorem interface_arcStep (s : State) : InterfaceUnchanged s (runArcStep s).state := by
  rcases runArcStep_cases s with ⟨-, h⟩ | ⟨-, -, ⟨-, h⟩ | ⟨-, h⟩⟩ <;> rw [h]
  · exact .refl s
  · exact .refl s
  · constructor <;> rfl

theorem interface_foldl_narrow (cs : List Byte) (s : State) : InterfaceUnchanged s (cs.foldl State.narrow s) := by
  rw [foldl_narrow_frame]
  constructor <;> rfl

theorem interface_arcRun (s : State) : InterfaceUnchanged s (runArcRun s).state := by
  rcases runArcRun_cases s with ⟨-, h⟩ | ⟨-, -, h⟩ | ⟨-, -, h⟩ <;> rw [h]
  · exact .refl s
  · exact .refl s
  · exact interface_foldl_narrow _ s

theorem interface_arcFinal (s : State) : InterfaceUnchanged s (runArcFinal s).state := by
  rcases runArcFinal_cases s with ⟨-, h⟩ | ⟨-, -, h⟩ <;> rw [h]
  · exact .refl s
  · constructor <;> rfl

/-! ## The compounds -/

/-- A relation to the start that each primitive of `HUF_ALL` keeps holds at its end. -/
theorem hufAll_induct {P : State → Prop} {s : State} (h0 : P s) (h1 : ∀ u, P u → P (runHufFreq u).state)
    (h2 : ∀ u, P u → P (runHufBuild u).state) (h3 : ∀ u, P u → P (runHufCodes u).state)
    (h4 : ∀ u, P u → P (runHufEnc u).state) : P (runHufAll s).state := by
  refine compound_induct h0 fun p hp u hu => ?_
  simp only [List.mem_cons, List.not_mem_nil, or_false] at hp
  rcases hp with rfl | rfl | rfl | rfl
  · exact h1 u hu
  · exact h2 u hu
  · exact h3 u hu
  · exact h4 u hu

/-- A relation to the start that each primitive of `ARC_ALL` keeps holds at its end. -/
theorem arcAll_induct {P : State → Prop} {s : State} (h0 : P s) (h1 : ∀ u, P u → P (runArcInit u).state)
    (h2 : ∀ u, P u → P (runArcRun u).state) (h3 : ∀ u, P u → P (runArcFinal u).state) : P (runArcAll s).state := by
  refine compound_induct h0 fun p hp u hu => ?_
  simp only [List.mem_cons, List.not_mem_nil, or_false] at hp
  rcases hp with rfl | rfl | rfl
  · exact h1 u hu
  · exact h2 u hu
  · exact h3 u hu

/-- No command writes the interface (R111). -/
theorem interface_runOf (i : Instr) (s : State) : InterfaceUnchanged s (runOf i s).state := by
  cases i with
  | nop => exact .refl s
  | sreset => constructor <;> rfl
  | rleEnc => exact interface_rleEnc s
  | hufFreq => exact interface_hufFreq s
  | hufBuild => exact interface_hufBuild s
  | hufCodes => exact interface_hufCodes s
  | hufEnc => exact interface_hufEnc s
  | hufAll =>
    exact hufAll_induct (.refl s) (fun u h => h.trans (interface_hufFreq u)) (fun u h => h.trans (interface_hufBuild u))
      (fun u h => h.trans (interface_hufCodes u)) (fun u h => h.trans (interface_hufEnc u))
  | arcInit => exact interface_arcInit s
  | arcStep => exact interface_arcStep s
  | arcRun => exact interface_arcRun s
  | arcFinal => exact interface_arcFinal s
  | arcAll =>
    exact arcAll_induct (.refl s) (fun u h => h.trans (interface_arcInit u)) (fun u h => h.trans (interface_arcRun u))
      (fun u h => h.trans (interface_arcFinal u))

end Sys2Proof.Machine
end

