-- ==== Sys2Proof/Laws/Huffman.lean ====
section
/-! SUPPORT. The Huffman commands: what their observers depend on, the bits of a code and of the bitstring, and that a
primitive neither reads nor keeps the status bits a completion writes. -/
namespace Sys2Proof.Machine

/-! ## Observers depend on their bank only -/

theorem hufFreqAt_congr {s t : State} (h : t.hufFreq = s.hufFreq) (hr : t.resets = s.resets) :
    t.hufFreqAt = s.hufFreqAt := by
  funext c
  unfold State.hufFreqAt
  rw [bankWord_congr (b := .hufFreq) h hr]

theorem hufCodeAt_congr {s t : State} (h : t.hufCode = s.hufCode) (hr : t.resets = s.resets) :
    t.hufCodeAt = s.hufCodeAt := by
  funext c
  unfold State.hufCodeAt
  rw [bankWord_congr (b := .hufCode) h hr]

theorem hufClenAt_congr {s t : State} (h : t.hufClen = s.hufClen) (hr : t.resets = s.resets) :
    t.hufClenAt = s.hufClenAt := by
  funext c
  unfold State.hufClenAt
  rw [bankWord_congr (b := .hufClen) h hr]

theorem hufNodeAt_congr {s t : State} (h : t.hufNode = s.hufNode) (hr : t.resets = s.resets) :
    t.hufNodeAt = s.hufNodeAt := by
  funext i
  unfold State.hufNodeAt
  rw [bankWord_congr (b := .hufNode) h hr (0x4000 + 8 * i), bankWord_congr (b := .hufNode) h hr (0x4000 + 8 * i + 4)]

theorem codeBits_congr {s t : State} (h1 : t.hufCode = s.hufCode) (h2 : t.hufClen = s.hufClen)
    (hr : t.resets = s.resets) : t.codeBits = s.codeBits := by
  funext c
  unfold State.codeBits
  rw [hufClenAt_congr h2 hr, hufCodeAt_congr h1 hr]

theorem codesOfTree_congr {s t : State} (h : t.hufNode = s.hufNode) (hr : t.resets = s.resets)
    (hl : t.hufNLeaf = s.hufNLeaf) (hroot : t.hufRoot = s.hufRoot) : t.codesOfTree = s.codesOfTree := by
  unfold State.codesOfTree
  rw [hufNodeAt_congr h hr, hl, hroot]

theorem hbufByte_congr {s t : State} (h : t.hbuf = s.hbuf) (hr : t.resets = s.resets) : t.hbufByte = s.hbufByte := by
  funext b
  exact bankByte_congr (b := .hbuf) h hr _

/-! ## The status bits -/

/-- `s` with other status bits `BUSY`, `DONE` and `ERR`. -/
def State.withStatus (b d : Bool) (e : ErrCode) (s : State) : State := { s with busy := b, done := d, err := e }

theorem fill_withStatus (bank : Bank) (v : List Byte) (b d : Bool) (e : ErrCode) (s : State) :
    (s.withStatus b d e).fill bank v = (s.fill bank v).withStatus b d e := by cases bank <;> rfl

/-- Two results that complete to the same state with the same code. -/
def SameOutcome (r q : Result) : Prop := r.code = q.code ∧ complete r = complete q

theorem runHufBuild_withStatus (b d : Bool) (e : ErrCode) (s : State) :
    SameOutcome (runHufBuild (s.withStatus b d e)) (runHufBuild s) := by
  unfold runHufBuild
  rw [hufFreqAt_congr (t := s.withStatus b d e) (s := s) rfl rfl]
  simp only [fill_withStatus]
  by_cases h : s.hufStage.toNat < 1
  · have h' : (s.withStatus b d e).hufStage.toNat < 1 := h
    rw [if_pos h, if_pos h']; exact ⟨rfl, rfl⟩
  · have h' : ¬ (s.withStatus b d e).hufStage.toNat < 1 := h
    rw [if_neg h, if_neg h']; exact ⟨rfl, rfl⟩

theorem runHufCodes_withStatus (b d : Bool) (e : ErrCode) (s : State) :
    SameOutcome (runHufCodes (s.withStatus b d e)) (runHufCodes s) := by
  unfold runHufCodes
  rw [codesOfTree_congr (t := s.withStatus b d e) (s := s) rfl rfl rfl rfl]
  simp only [fill_withStatus]
  by_cases h : s.hufStage.toNat < 2
  · have h' : (s.withStatus b d e).hufStage.toNat < 2 := h
    rw [if_pos h, if_pos h']; exact ⟨rfl, rfl⟩
  · have h' : ¬ (s.withStatus b d e).hufStage.toNat < 2 := h
    rw [if_neg h, if_neg h']
    split
    · exact ⟨rfl, rfl⟩
    · exact ⟨rfl, rfl⟩

theorem runHufEnc_withStatus (b d : Bool) (e : ErrCode) (s : State) :
    SameOutcome (runHufEnc (s.withStatus b d e)) (runHufEnc s) := by
  have hin : (s.withStatus b d e).input = s.input := input_congr rfl rfl rfl
  have hcl : (s.withStatus b d e).hufClenAt = s.hufClenAt := hufClenAt_congr rfl rfl
  have hbits : (s.withStatus b d e).encodedBits = s.encodedBits := by
    unfold State.encodedBits
    rw [hin, codeBits_congr (t := s.withStatus b d e) (s := s) rfl rfl rfl]
  have hlen : (s.withStatus b d e).encodedLength = s.encodedLength := by
    unfold State.encodedLength
    rw [hin, hcl]
  unfold runHufEnc
  rw [hin, hcl, hbits, hlen, fill_withStatus]
  by_cases h : s.hufStage.toNat < 3
  · have h' : (s.withStatus b d e).hufStage.toNat < 3 := h
    rw [if_pos h, if_pos h']; exact ⟨rfl, rfl⟩
  · have h' : ¬ (s.withStatus b d e).hufStage.toNat < 3 := h
    rw [if_neg h, if_neg h']
    by_cases h2 : Config.maxLen < s.inputLength
    · have h2' : Config.maxLen < (s.withStatus b d e).inputLength := h2
      rw [if_pos h2, if_pos h2']; exact ⟨rfl, rfl⟩
    · have h2' : ¬ Config.maxLen < (s.withStatus b d e).inputLength := h2
      rw [if_neg h2, if_neg h2']
      split
      · exact ⟨rfl, rfl⟩
      · split
        · exact ⟨rfl, rfl⟩
        · exact ⟨rfl, rfl⟩

/-! ## The bits of a code -/

theorem codeValue_append (p : List Bool) (b : Bool) : codeValue (p ++ [b]) = 2 * codeValue p + b.toNat := by
  simp [codeValue]

theorem codeValue_lt (p : List Bool) : codeValue p < 2 ^ p.length := by
  induction p using List.reverseRecOn with
  | nil => simp [codeValue]
  | append_singleton p b ih =>
    rw [codeValue_append, List.length_append, List.length_singleton, Nat.pow_succ]
    cases b <;> simp <;> omega

/-- Bit `j` of a code, the first bit being the most significant of its value (R43). -/
theorem testBit_codeValue (p : List Bool) {j : Nat} (hj : j < p.length) :
    (codeValue p).testBit (p.length - 1 - j) = p[j] := by
  induction p using List.reverseRecOn with
  | nil => simp at hj
  | append_singleton p b ih =>
    rw [codeValue_append, List.length_append, List.length_singleton]
    by_cases h : j < p.length
    · rw [List.getElem_append_left h, ← ih h, show p.length + 1 - 1 - j = (p.length - 1 - j) + 1 by omega,
        Nat.testBit_succ]
      congr 1
      cases b <;> simp <;> omega
    · have : j = p.length := by simp at hj; omega
      subst this
      simp only [Nat.add_sub_cancel, Nat.sub_self, Nat.testBit_zero, List.getElem_concat_length]
      cases b <;> simp

/-! ## The bits of the bitstring -/

theorem getLsbD_packByte (bits : List Bool) {j : Nat} (hj : j < 8) :
    (packByte bits).getLsbD (7 - j) = bits[j]?.getD false := by
  have h : ∀ b0 b1 b2 b3 b4 b5 b6 b7 : Bool, ∀ k : Fin 8,
      (BitVec.ofNat 8 (([b0, b1, b2, b3, b4, b5, b6, b7].map Bool.toNat).foldl (fun acc b => 2 * acc + b) 0)).getLsbD (7 - k) =
        [b0, b1, b2, b3, b4, b5, b6, b7][k] := by decide +kernel
  have := h (bits[0]?.getD false) (bits[1]?.getD false) (bits[2]?.getD false) (bits[3]?.getD false)
    (bits[4]?.getD false) (bits[5]?.getD false) (bits[6]?.getD false) (bits[7]?.getD false) ⟨j, hj⟩
  have e : (packByte bits) = BitVec.ofNat 8 (([bits[0]?.getD false, bits[1]?.getD false, bits[2]?.getD false,
      bits[3]?.getD false, bits[4]?.getD false, bits[5]?.getD false, bits[6]?.getD false, bits[7]?.getD false].map
        Bool.toNat).foldl (fun acc b => 2 * acc + b) 0) := rfl
  rw [e, this]
  match j, hj with
  | 0, _ | 1, _ | 2, _ | 3, _ | 4, _ | 5, _ | 6, _ | 7, _ => rfl

theorem packBits_getElem (n : Nat) (bits : List Bool) {b : Nat} (hb : b < (packBits n bits).length) :
    (packBits n bits)[b] = packByte ((bits.drop (8 * b)).take 8) := by
  induction n generalizing bits b with
  | zero => simp [packBits] at hb
  | succ n ih =>
    cases b with
    | zero => simp [packBits]
    | succ b =>
      have hb' : b < (packBits n (bits.drop 8)).length := by simpa [packBits] using hb
      simp only [packBits, List.getElem_cons_succ]
      rw [ih _ hb', List.drop_drop, show 8 + 8 * b = 8 * (b + 1) by omega]

/-- Bit `j` of `HBUF` after a bitstring was written to it (R71, R149). -/
theorem fill_hbufBit (bits : List Bool) (s : State) {j : Nat} (hj : j < 2048) :
    (s.fill .hbuf (packBits Config.hbufBytes bits)).hbufBit j = bits[j]?.getD false := by
  have hb : j / 8 < (packBits Config.hbufBytes bits).length := by rw [length_packBits]; show j / 8 < 256; omega
  unfold State.hbufBit
  rw [fill_hbufByte _ _ hb (by omega), packBits_getElem, getLsbD_packByte _ (by omega), List.getElem?_take,
    if_pos (by omega), List.getElem?_drop, show 8 * (j / 8) + j % 8 = j by omega]

@[simp] theorem length_codeBits (s : State) (c : Byte) : (s.codeBits c).length = (s.hufClenAt c.toNat).toNat := by
  simp [State.codeBits]

/-- The bitstring has as many bits as the code lengths add up to (R149, R153). -/
theorem length_encodedBits (s : State) : s.encodedBits.length = s.encodedLength := by
  unfold State.encodedBits State.encodedLength
  rw [List.length_flatMap]
  simp

end Sys2Proof.Machine
end

