-- ==== Sys2Proof/Laws/Tree.lean ====
section
/-! SUPPORT. The merge loop of `HUF_BUILD`: its order (R143), what it does at each merge (R144, R145), and the invariants of
the node table it leaves (R49). -/
namespace Sys2Proof.Machine

/-! ## The merge order (R143) -/

theorem MergeKey.before_iff (a b : MergeKey) : a.before b = true ↔
    a.freq.toNat < b.freq.toNat ∨ (a.freq.toNat = b.freq.toNat ∧ a.index < b.index) := by
  simp [MergeKey.before]

theorem MergeKey.before_trans {a b c : MergeKey} (h1 : a.before b = true) (h2 : b.before c = true) :
    a.before c = true := by
  rw [before_iff] at *
  omega

theorem MergeKey.before_irrefl (a : MergeKey) : a.before a = false := by
  rw [← Bool.not_eq_true, before_iff]
  omega

theorem MergeKey.before_total (a b : MergeKey) : a = b ∨ a.before b = true ∨ b.before a = true := by
  rw [before_iff, before_iff]
  by_cases h : a.freq.toNat = b.freq.toNat ∧ a.index = b.index
  · left
    obtain ⟨fa, ia⟩ := a
    obtain ⟨fb, ib⟩ := b
    simp only at h
    rw [BitVec.eq_of_toNat_eq h.1, h.2]
  · right
    omega

/-- The least of a list and a start: it is one of them, and before every other. -/
theorem foldl_least_spec (ks : List MergeKey) (k : MergeKey) :
    (ks.foldl MergeKey.least k ∈ k :: ks) ∧
    ∀ x ∈ k :: ks, x = ks.foldl MergeKey.least k ∨ (ks.foldl MergeKey.least k).before x = true := by
  induction ks generalizing k with
  | nil => simp
  | cons y ks ih =>
    rw [List.foldl_cons]
    obtain ⟨h1, h2⟩ := ih (MergeKey.least k y)
    generalize hm : ks.foldl MergeKey.least (MergeKey.least k y) = m at *
    have hl : MergeKey.least k y = k ∨ MergeKey.least k y = y := by
      unfold MergeKey.least; split <;> simp
    have hk : k = MergeKey.least k y ∨ (MergeKey.least k y).before k = true := by
      unfold MergeKey.least
      split
      · rename_i h; exact .inr h
      · exact .inl rfl
    have hy : y = MergeKey.least k y ∨ (MergeKey.least k y).before y = true := by
      unfold MergeKey.least
      split
      · exact .inl rfl
      · rename_i h
        rcases MergeKey.before_total k y with e | e | e
        · exact .inl e.symm
        · exact .inr e
        · exact absurd e h
    have hlm := h2 _ List.mem_cons_self
    have via : ∀ x, (x = MergeKey.least k y ∨ (MergeKey.least k y).before x = true) → x = m ∨ m.before x = true := by
      intro x hx
      rcases hx with rfl | hx
      · exact hlm
      · rcases hlm with e | e
        · exact .inr (e ▸ hx)
        · exact .inr (MergeKey.before_trans e hx)
    constructor
    · rcases List.mem_cons.1 h1 with h | h
      · rcases hl with e | e <;> rw [h, e] <;> simp
      · simp [h]
    · intro x hx
      rcases List.mem_cons.1 hx with rfl | hx
      · exact via _ hk
      · rcases List.mem_cons.1 hx with rfl | hx
        · exact via _ hy
        · exact h2 x (List.mem_cons_of_mem _ hx)

/-- Extraction takes the element with the smallest key (R143). -/
theorem extractMin_spec {act : List MergeKey} {m : MergeKey} {rest : List MergeKey}
    (h : extractMin act = some (m, rest)) :
    m ∈ act ∧ act.Perm (m :: rest) ∧ ∀ k ∈ act, k = m ∨ m.before k = true := by
  cases act with
  | nil => cases h
  | cons k ks =>
    simp only [extractMin, Option.some.injEq, Prod.mk.injEq] at h
    obtain ⟨rfl, rfl⟩ := h
    obtain ⟨h1, h2⟩ := foldl_least_spec ks k
    exact ⟨h1, List.perm_cons_erase h1, h2⟩

theorem extractMin_none {act : List MergeKey} (h : extractMin act = none) : act = [] := by
  cases act with
  | nil => rfl
  | cons k ks => simp [extractMin] at h

/-! ## The loop (R145) -/

/-- One merge: the two smallest keys `a`, `b` leave the active set, the node over them enters it. -/
structure Merge (act : List MergeKey) (a b : MergeKey) (rest : List MergeKey) : Prop where
  perm : act.Perm (a :: b :: rest)
  first : ∀ k ∈ b :: rest, k = a ∨ a.before k = true
  second : ∀ k ∈ rest, k = b ∨ b.before k = true

theorem merge_of_extractMin {act act1 act2 : List MergeKey} {a b : MergeKey} (h1 : extractMin act = some (a, act1))
    (h2 : extractMin act1 = some (b, act2)) : Merge act a b act2 := by
  obtain ⟨-, p1, m1⟩ := extractMin_spec h1
  obtain ⟨-, p2, m2⟩ := extractMin_spec h2
  refine ⟨p1.trans (p2.cons a), fun k hk => m1 k ?_, fun k hk => m2 k ?_⟩
  · exact p1.mem_iff.2 (List.mem_cons_of_mem _ (p2.mem_iff.2 hk))
  · exact p2.mem_iff.2 (List.mem_cons_of_mem _ hk)

/-- What every merge keeps holds at the end of the loop, where at most one node is active. -/
theorem mergeLoop_induct {P : List MergeKey → List Node → Prop}
    (step : ∀ act nodes a b rest, P act nodes → Merge act a b rest →
      P (rest ++ [⟨a.freq + b.freq, nodes.length⟩]) (nodes ++ [parentNode a b]))
    (fuel : Nat) (act : List MergeKey) (nodes : List Node) (hf : act.length ≤ fuel) (h : P act nodes) :
    ∃ last, last.length ≤ 1 ∧ (1 ≤ act.length → last.length = 1) ∧ P last (mergeLoop fuel act nodes) := by
  induction fuel generalizing act nodes with
  | zero => exact ⟨act, by omega, by omega, h⟩
  | succ fuel ih =>
    unfold mergeLoop
    split
    · rename_i h1
      have := extractMin_none h1
      subst this
      exact ⟨[], by simp, by simp, h⟩
    · rename_i a act1 h1
      have l1 := (extractMin_spec h1).2.1.length_eq
      split
      · rename_i h2
        have := extractMin_none h2
        subst this
        exact ⟨act, by rw [l1]; simp, fun _ => by rw [l1]; rfl, h⟩
      · rename_i b act2 h2
        have l2 := (extractMin_spec h2).2.1.length_eq
        simp only [List.length_cons] at l1 l2
        obtain ⟨last, e1, e2, e3⟩ := ih (act2 ++ [⟨a.freq + b.freq, nodes.length⟩]) (nodes ++ [parentNode a b])
          (by simp only [List.length_append, List.length_singleton]; omega)
          (step act nodes a b act2 h (merge_of_extractMin h1 h2))
        exact ⟨last, e1, fun _ => e2 (by simp), e3⟩

/-! ## The shape of the node table -/

/-- The child of a node on an edge: left is `false`, right is `true` (R144). -/
def Node.child (n : Node) (e : Bool) : Nat := if e then n.right.toNat else n.left.toNat

/-- The shape of the node table between two merges, with `L` leaves. -/
structure MergeShape (L : Nat) (act : List MergeKey) (nodes : List Node) : Prop where
  count : act.length + nodes.length = 2 * L
  lower : L ≤ nodes.length
  nodup : (act.map MergeKey.index).Nodup
  keys : ∀ k ∈ act, ∃ n, nodes[k.index]? = some n ∧ n.freq = k.freq
  free : ∀ j, (∃ k ∈ act, k.index = j) ↔
    j < nodes.length ∧ ∀ i n e, L ≤ i → nodes[i]? = some n → n.child e ≠ j
  internal : ∀ i n, L ≤ i → nodes[i]? = some n → n.leaf = false ∧ n.sym = 0 ∧ ∀ e, n.child e < i
  parents : ∀ i i' n n' e e', L ≤ i → L ≤ i' → nodes[i]? = some n → nodes[i']? = some n' →
    n.child e = n'.child e' → i = i' ∧ e = e'

/-- The children of the node over two keys are their nodes, when the indices fit their fields. -/
theorem parentNode_child {a b : MergeKey} (ha : a.index < 512) (hb : b.index < 512) (e : Bool) :
    (parentNode a b).child e = if e then b.index else a.index := by
  cases e
  · show (BitVec.ofNat 9 a.index).toNat = a.index
    rw [BitVec.toNat_ofNat, Nat.mod_eq_of_lt ha]
  · show (BitVec.ofNat 9 b.index).toNat = b.index
    rw [BitVec.toNat_ofNat, Nat.mod_eq_of_lt hb]

theorem getElem?_concat {α : Type} {xs : List α} {x y : α} {i : Nat} (h : (xs ++ [x])[i]? = some y) :
    (i < xs.length ∧ xs[i]? = some y) ∨ (i = xs.length ∧ y = x) := by
  rcases Nat.lt_trichotomy i xs.length with hi | hi | hi
  · exact .inl ⟨hi, by rwa [List.getElem?_append_left hi] at h⟩
  · subst hi
    exact .inr ⟨rfl, by simpa using h.symm⟩
  · rw [List.getElem?_eq_none (by simp; omega)] at h
    cases h

/-- A key of the active set lies in the table. -/
theorem MergeShape.index_lt {L : Nat} {act : List MergeKey} {nodes : List Node} (h : MergeShape L act nodes)
    {k : MergeKey} (hk : k ∈ act) : k.index < nodes.length := ((h.free k.index).1 ⟨k, hk, rfl⟩).1

theorem MergeShape.step {L : Nat} (hL : L ≤ 256) {act : List MergeKey} {nodes : List Node} {a b : MergeKey}
    {rest : List MergeKey} (h : MergeShape L act nodes) (m : Merge act a b rest) :
    MergeShape L (rest ++ [⟨a.freq + b.freq, nodes.length⟩]) (nodes ++ [parentNode a b]) := by
  have hlen := m.perm.length_eq
  simp only [List.length_cons] at hlen
  have hcount := h.count
  have hlower := h.lower
  have ma : a ∈ act := m.perm.mem_iff.2 (by simp)
  have mb : b ∈ act := m.perm.mem_iff.2 (by simp)
  have mrest : ∀ k ∈ rest, k ∈ act := fun k hk => m.perm.mem_iff.2 (by simp [hk])
  have ia := h.index_lt ma
  have ib := h.index_lt mb
  have hchild := parentNode_child (a := a) (b := b) (by omega) (by omega)
  have hnd : ((a :: b :: rest).map MergeKey.index).Nodup := (m.perm.map _).nodup_iff.1 h.nodup
  simp only [List.map_cons, List.nodup_cons, List.mem_cons, List.mem_map, not_or, not_exists, not_and] at hnd
  obtain ⟨⟨hab, har⟩, hbr, hrn⟩ := hnd
  have freeOf : ∀ k ∈ act, ∀ i n e, L ≤ i → nodes[i]? = some n → n.child e ≠ k.index :=
    fun k hk => ((h.free k.index).1 ⟨k, hk, rfl⟩).2
  refine ⟨?_, ?_, ?_, ?_, ?_, ?_, ?_⟩
  · simp only [List.length_append, List.length_singleton]; omega
  · simp only [List.length_append, List.length_singleton]; omega
  · rw [List.map_append, List.nodup_append]
    refine ⟨hrn, by simp, ?_⟩
    intro x hx y hy
    simp only [List.map_cons, List.map_nil, List.mem_singleton] at hy
    obtain ⟨k, hk, rfl⟩ := List.mem_map.1 hx
    have := h.index_lt (mrest k hk)
    omega
  · intro k hk
    rcases List.mem_append.1 hk with hk | hk
    · obtain ⟨n, hn, hf⟩ := h.keys k (mrest k hk)
      exact ⟨n, by rw [List.getElem?_append_left (h.index_lt (mrest k hk))]; exact hn, hf⟩
    · simp only [List.mem_singleton] at hk
      subst hk
      exact ⟨parentNode a b, by simp, rfl⟩
  · intro j
    constructor
    · rintro ⟨k, hk, rfl⟩
      rcases List.mem_append.1 hk with hk | hk
      · have hkl := h.index_lt (mrest k hk)
        refine ⟨by simp only [List.length_append, List.length_singleton]; omega, fun i n e hi hn => ?_⟩
        rcases getElem?_concat hn with ⟨-, hn⟩ | ⟨rfl, rfl⟩
        · exact freeOf k (mrest k hk) i n e hi hn
        · rw [hchild]
          cases e
          · exact fun e => har k hk e.symm
          · exact fun e => hbr k hk e.symm
      · simp only [List.mem_singleton] at hk
        subst hk
        refine ⟨by simp, fun i n e hi hn => ?_⟩
        simp only
        rcases getElem?_concat hn with ⟨hil, hn⟩ | ⟨rfl, rfl⟩
        · have := (h.internal i n hi hn).2.2 e
          omega
        · rw [hchild]
          cases e <;> simp <;> omega
    · rintro ⟨hj, hfree⟩
      simp only [List.length_append, List.length_singleton] at hj
      by_cases hjn : j = nodes.length
      · exact ⟨_, List.mem_append_right _ (List.mem_singleton.2 rfl), hjn.symm⟩
      · obtain ⟨k, hk, rfl⟩ := (h.free j).2 ⟨by omega, fun i n e hi hn =>
          hfree i n e hi (by rw [List.getElem?_append_left (List.getElem?_eq_some_iff.1 hn).1]; exact hn)⟩
        have hnew : ∀ e, (parentNode a b).child e ≠ k.index := fun e =>
          hfree nodes.length _ e hlower (by simp)
        have hka : k ≠ a := by
          rintro rfl
          exact hnew false (by rw [hchild]; rfl)
        have hkb : k ≠ b := by
          rintro rfl
          exact hnew true (by rw [hchild]; rfl)
        have := m.perm.mem_iff.1 hk
        simp only [List.mem_cons, hka, hkb, false_or] at this
        exact ⟨k, List.mem_append_left _ this, rfl⟩
  · intro i n hi hn
    rcases getElem?_concat hn with ⟨-, hn⟩ | ⟨rfl, rfl⟩
    · exact h.internal i n hi hn
    · refine ⟨rfl, rfl, fun e => ?_⟩
      rw [hchild]
      cases e
      · exact ia
      · exact ib
  · intro i i' n n' e e' hi hi' hn hn' heq
    rcases getElem?_concat hn with ⟨-, hn⟩ | ⟨rfl, rfl⟩
    · rcases getElem?_concat hn' with ⟨-, hn'⟩ | ⟨rfl, rfl⟩
      · exact h.parents i i' n n' e e' hi hi' hn hn' heq
      · rw [hchild] at heq
        cases e'
        · exact absurd heq (freeOf a ma i n e hi hn)
        · exact absurd heq (freeOf b mb i n e hi hn)
    · rcases getElem?_concat hn' with ⟨-, hn'⟩ | ⟨rfl, rfl⟩
      · rw [hchild] at heq
        cases e
        · exact absurd heq.symm (freeOf a ma i' n' e' hi' hn')
        · exact absurd heq.symm (freeOf b mb i' n' e' hi' hn')
      · rw [hchild, hchild] at heq
        cases e <;> cases e' <;> simp_all

/-! ## The frequencies and the order of extraction -/

/-- The key of a node of the table. -/
def keyOf (nodes : List Node) (j : Nat) : MergeKey := ⟨((nodes[j]?.map Node.freq).getD 0), j⟩

theorem keyOf_append {nodes : List Node} {n : Node} {j : Nat} (h : j < nodes.length) :
    keyOf (nodes ++ [n]) j = keyOf nodes j := by
  unfold keyOf
  rw [List.getElem?_append_left h]

theorem keyOf_active {L : Nat} {act : List MergeKey} {nodes : List Node} (h : MergeShape L act nodes) {k : MergeKey}
    (hk : k ∈ act) : keyOf nodes k.index = k := by
  obtain ⟨n, hn, hf⟩ := h.keys k hk
  unfold keyOf
  rw [hn]
  obtain ⟨f, i⟩ := k
  simp only [Option.map_some, Option.getD_some, MergeKey.mk.injEq, and_true]
  exact hf

/-- The frequencies of the node table between two merges, with a total of `T`: every internal node has the sum of its
children's, and the keys are extracted in strictly rising order. -/
structure MergeOrder (L T : Nat) (act : List MergeKey) (nodes : List Node) : Prop where
  total : (act.map fun k => k.freq.toNat).sum = T
  sums : ∀ i n, L ≤ i → nodes[i]? = some n →
    n.freq.toNat = (keyOf nodes (n.child false)).freq.toNat + (keyOf nodes (n.child true)).freq.toNat
  within : ∀ i n, L ≤ i → nodes[i]? = some n →
    (keyOf nodes (n.child false)).before (keyOf nodes (n.child true)) = true
  across : ∀ i i' n n', L ≤ i → i < i' → nodes[i]? = some n → nodes[i']? = some n' →
    (keyOf nodes (n.child true)).before (keyOf nodes (n'.child false)) = true
  active : ∀ i n k, L ≤ i → nodes[i]? = some n → k ∈ act → (keyOf nodes (n.child true)).before k = true

theorem MergeOrder.step {L T : Nat} (hL : L ≤ 256) (hT : T < 2 ^ 16) {act : List MergeKey} {nodes : List Node}
    {a b : MergeKey} {rest : List MergeKey} (h : MergeShape L act nodes) (o : MergeOrder L T act nodes)
    (m : Merge act a b rest) :
    MergeOrder L T (rest ++ [⟨a.freq + b.freq, nodes.length⟩]) (nodes ++ [parentNode a b]) := by
  have hlen := m.perm.length_eq
  simp only [List.length_cons] at hlen
  have hcount := h.count
  have hlower := h.lower
  have ma : a ∈ act := m.perm.mem_iff.2 (by simp)
  have mb : b ∈ act := m.perm.mem_iff.2 (by simp)
  have mrest : ∀ k ∈ rest, k ∈ act := fun k hk => m.perm.mem_iff.2 (by simp [hk])
  have ia := h.index_lt ma
  have ib := h.index_lt mb
  have hchild := parentNode_child (a := a) (b := b) (by omega) (by omega)
  have hsum : a.freq.toNat + (b.freq.toNat + (rest.map fun k => k.freq.toNat).sum) = T := by
    have := (m.perm.map fun k : MergeKey => k.freq.toNat).sum_eq
    rw [o.total] at this
    simpa using this.symm
  have hadd : (a.freq + b.freq).toNat = a.freq.toNat + b.freq.toNat := by
    rw [BitVec.toNat_add, Nat.mod_eq_of_lt (by omega)]
  have hnd : ((a :: b :: rest).map MergeKey.index).Nodup := (m.perm.map _).nodup_iff.1 h.nodup
  simp only [List.map_cons, List.nodup_cons, List.mem_cons, List.mem_map, not_or, not_exists, not_and] at hnd
  obtain ⟨⟨hab, -⟩, hbr, -⟩ := hnd
  have old : ∀ i n e, L ≤ i → nodes[i]? = some n → keyOf (nodes ++ [parentNode a b]) (n.child e) = keyOf nodes (n.child e) := by
    intro i n e hi hn
    have := (h.internal i n hi hn).2.2 e
    have := (List.getElem?_eq_some_iff.1 hn).1
    exact keyOf_append (by omega)
  have newA : keyOf (nodes ++ [parentNode a b]) ((parentNode a b).child false) = a := by
    rw [hchild]
    exact (keyOf_append ia).trans (keyOf_active h ma)
  have newB : keyOf (nodes ++ [parentNode a b]) ((parentNode a b).child true) = b := by
    rw [hchild]
    exact (keyOf_append ib).trans (keyOf_active h mb)
  refine ⟨?_, ?_, ?_, ?_, ?_⟩
  · simp only [List.map_append, List.sum_append, List.map_cons, List.map_nil, List.sum_cons, List.sum_nil, hadd]
    omega
  · intro i n hi hn
    rcases getElem?_concat hn with ⟨-, hn⟩ | ⟨rfl, rfl⟩
    · rw [old i n _ hi hn, old i n _ hi hn]; exact o.sums i n hi hn
    · rw [newA, newB]; exact hadd
  · intro i n hi hn
    rcases getElem?_concat hn with ⟨-, hn⟩ | ⟨rfl, rfl⟩
    · rw [old i n _ hi hn, old i n _ hi hn]; exact o.within i n hi hn
    · rw [newA, newB]
      rcases m.first b (by simp) with e | e
      · exact absurd (by rw [e]) hab
      · exact e
  · intro i i' n n' hi hii hn hn'
    rcases getElem?_concat hn with ⟨hil, hn⟩ | ⟨rfl, rfl⟩
    · rw [old i n _ hi hn]
      rcases getElem?_concat hn' with ⟨-, hn'⟩ | ⟨rfl, rfl⟩
      · rw [old i' n' _ (by omega) hn']; exact o.across i i' n n' hi hii hn hn'
      · rw [newA]; exact o.active i n a hi hn ma
    · have := (List.getElem?_eq_some_iff.1 hn').1
      simp only [List.length_append, List.length_singleton] at this
      omega
  · intro i n k hi hn hk
    rcases List.mem_append.1 hk with hk | hk
    · rcases getElem?_concat hn with ⟨-, hn⟩ | ⟨rfl, rfl⟩
      · rw [old i n _ hi hn]; exact o.active i n k hi hn (mrest k hk)
      · rw [newB]
        rcases m.second k hk with e | e
        · exact absurd (by rw [e]) (hbr k hk)
        · exact e
    · simp only [List.mem_singleton] at hk
      subst hk
      have hb : b.before ⟨a.freq + b.freq, nodes.length⟩ = true := by
        rw [MergeKey.before_iff]
        simp only [hadd]
        omega
      rcases getElem?_concat hn with ⟨-, hn⟩ | ⟨rfl, rfl⟩
      · rw [old i n _ hi hn]
        exact MergeKey.before_trans (o.active i n b hi hn mb) hb
      · rw [newB]; exact hb

/-! ## The start and the end of the loop -/

theorem length_leavesOf (freq : Nat → BitVec 16) : (leavesOf freq).length ≤ 256 := by
  unfold leavesOf
  refine (List.length_filterMap_le _ _).trans ?_
  simp

theorem length_seedKeys (leaves : List Node) : (seedKeys leaves).length = leaves.length := by simp [seedKeys]

theorem seedKeys_getElem (leaves : List Node) {i : Nat} (h : i < (seedKeys leaves).length) :
    (seedKeys leaves)[i] = ⟨(leaves[i]'(by rwa [length_seedKeys] at h)).freq, i⟩ := by simp [seedKeys]

theorem map_index_seedKeys (leaves : List Node) : (seedKeys leaves).map MergeKey.index = List.range leaves.length := by
  apply List.ext_getElem
  · simp [seedKeys]
  · intro i h1 h2
    simp [seedKeys]

theorem mergeShape_start (leaves : List Node) : MergeShape leaves.length (seedKeys leaves) leaves := by
  have none : ∀ {i : Nat} {n : Node}, leaves.length ≤ i → leaves[i]? = some n → False := by
    intro i n hi hn
    rw [List.getElem?_eq_none hi] at hn
    cases hn
  refine ⟨by rw [length_seedKeys]; omega, le_refl _, ?_, ?_, ?_, fun i n hi hn => (none hi hn).elim,
    fun i i' n n' e e' hi hi' hn => (none hi hn).elim⟩
  · rw [map_index_seedKeys]; exact List.nodup_range
  · intro k hk
    obtain ⟨i, hi, rfl⟩ := List.getElem_of_mem hk
    rw [seedKeys_getElem]
    exact ⟨_, List.getElem?_eq_getElem _, rfl⟩
  · intro j
    constructor
    · rintro ⟨k, hk, rfl⟩
      have : k.index ∈ (seedKeys leaves).map MergeKey.index := List.mem_map_of_mem hk
      rw [map_index_seedKeys, List.mem_range] at this
      exact ⟨this, fun i n e hi hn => (none hi hn).elim⟩
    · rintro ⟨hj, -⟩
      have : j ∈ (seedKeys leaves).map MergeKey.index := by rw [map_index_seedKeys, List.mem_range]; exact hj
      obtain ⟨k, hk, e⟩ := List.mem_map.1 this
      exact ⟨k, hk, e⟩

theorem mergeOrder_start (leaves : List Node) :
    MergeOrder leaves.length ((leaves.map fun n => n.freq.toNat).sum) (seedKeys leaves) leaves := by
  have none : ∀ {i : Nat} {n : Node}, leaves.length ≤ i → leaves[i]? = some n → False := by
    intro i n hi hn
    rw [List.getElem?_eq_none hi] at hn
    cases hn
  refine ⟨?_, fun i n hi hn => (none hi hn).elim, fun i n hi hn => (none hi hn).elim,
    fun i i' n n' hi _ hn => (none hi hn).elim, fun i n k hi hn => (none hi hn).elim⟩
  congr 1
  apply List.ext_getElem
  · simp [seedKeys]
  · intro i h1 h2
    simp [seedKeys]

/-- Everything the node table of `HUF_BUILD` is: the leaves first, then the merges, each of the two smallest keys, until at
most one node has no parent (R142 to R146). -/
theorem huffmanNodes_spec (freq : Nat → BitVec 16) :
    ∃ last, last.length ≤ 1 ∧ (1 ≤ (leavesOf freq).length → last.length = 1) ∧
      MergeShape (leavesOf freq).length last (huffmanNodes freq) ∧
      (∃ made, huffmanNodes freq = leavesOf freq ++ made) ∧
      (((leavesOf freq).map fun n => n.freq.toNat).sum < 2 ^ 16 →
        MergeOrder (leavesOf freq).length (((leavesOf freq).map fun n => n.freq.toNat).sum) last (huffmanNodes freq)) := by
  have hL := length_leavesOf freq
  obtain ⟨last, h1, h2, h3, h4, h5⟩ := mergeLoop_induct
    (P := fun act nodes => MergeShape (leavesOf freq).length act nodes ∧ (∃ made, nodes = leavesOf freq ++ made) ∧
      (((leavesOf freq).map fun n => n.freq.toNat).sum < 2 ^ 16 →
        MergeOrder (leavesOf freq).length (((leavesOf freq).map fun n => n.freq.toNat).sum) act nodes))
    (fun act nodes a b rest ⟨p1, ⟨made, p2⟩, p3⟩ m =>
      ⟨p1.step hL m, ⟨made ++ [parentNode a b], by rw [p2, List.append_assoc]⟩, fun hT => (p3 hT).step hL hT p1 m⟩)
    (leavesOf freq).length (seedKeys (leavesOf freq)) (leavesOf freq) (by rw [length_seedKeys])
    ⟨mergeShape_start _, ⟨[], by simp⟩, fun _ => mergeOrder_start _⟩
  rw [length_seedKeys] at h2
  exact ⟨last, h1, h2, h3, h4, h5⟩

/-- The number of nodes: `2L - 1`, and 0 for `L = 0` (R145, R146). -/
theorem length_huffmanNodes (freq : Nat → BitVec 16) :
    (huffmanNodes freq).length = 2 * (leavesOf freq).length - 1 := by
  obtain ⟨last, h1, h2, h3, -⟩ := huffmanNodes_spec freq
  have := h3.count
  have := h3.lower
  by_cases h : 1 ≤ (leavesOf freq).length
  · have := h2 h
    omega
  · omega

/-- The first nodes are the leaves (R142). -/
theorem huffmanNodes_leaf (freq : Nat → BitVec 16) {m : Nat} (h : m < (leavesOf freq).length) :
    (huffmanNodes freq)[m]? = some (leavesOf freq)[m] := by
  obtain ⟨-, -, -, -, ⟨made, hm⟩, -⟩ := huffmanNodes_spec freq
  rw [hm, List.getElem?_append_left h, List.getElem?_eq_getElem h]

end Sys2Proof.Machine
end

