-- ==== Sys2Proof/Laws/Codes.lean ====
section
/-! SUPPORT. The codes of a Huffman tree (R147, R153): each leaf's code is its one path from the root, no code is a prefix
of another, decoding by walking the tree, how deep a leaf can lie (R151), and the total length of the codes (R150). -/
namespace Sys2Proof.Machine

/-! ## Trees and paths -/

/-- A node table is a tree over `L` leaves: what R49 says, apart from the symbols and the frequencies. -/
structure IsTree (L : Nat) (node : Nat → Node) : Prop where
  leaf : ∀ j, j < L → (node j).leaf = true
  inner : ∀ i, L ≤ i → i < 2 * L - 1 → (node i).leaf = false ∧ ∀ e, (node i).child e < i
  oneParent : ∀ i i' e e', L ≤ i → i < 2 * L - 1 → L ≤ i' → i' < 2 * L - 1 →
    (node i).child e = (node i').child e' → i = i' ∧ e = e'
  parent : ∀ j, j < 2 * L - 2 → ∃ i e, L ≤ i ∧ i < 2 * L - 1 ∧ (node i).child e = j

/-- Walking `p` from node `i` through internal nodes ends at node `j`. -/
inductive Path (L : Nat) (node : Nat → Node) : Nat → List Bool → Nat → Prop where
  | nil (i : Nat) : Path L node i [] i
  | cons {i j : Nat} {p : List Bool} (e : Bool) (inner : L ≤ i) (tail : Path L node ((node i).child e) p j) :
    Path L node i (e :: p) j

variable {L : Nat} {node : Nat → Node}

theorem Path.append {i j k : Nat} {p q : List Bool} (h : Path L node i p j) (g : Path L node j q k) :
    Path L node i (p ++ q) k := by
  induction h with
  | nil => exact g
  | cons e hi _ ih => exact .cons e hi (ih g)

/-- A path can be cut where its bits are cut. -/
theorem Path.split {i k : Nat} {p q : List Bool} (h : Path L node i (p ++ q) k) :
    ∃ j, Path L node i p j ∧ Path L node j q k := by
  induction p generalizing i with
  | nil => exact ⟨i, .nil i, h⟩
  | cons e p ih =>
    cases h with
    | cons _ hi t =>
      obtain ⟨j, h1, h2⟩ := ih t
      exact ⟨j, .cons e hi h1, h2⟩

theorem Path.deterministic {i j k : Nat} {p : List Bool} (h : Path L node i p j) (g : Path L node i p k) : j = k := by
  induction h with
  | nil => cases g; rfl
  | cons e hi _ ih => cases g with | cons _ _ t => exact ih t

/-- No path leaves a leaf. -/
theorem Path.from_leaf {i j : Nat} {p : List Bool} (hi : i < L) (h : Path L node i p j) : p = [] ∧ j = i := by
  cases h with
  | nil => exact ⟨rfl, rfl⟩
  | cons e h => omega

theorem Path.le (t : IsTree L node) {i j : Nat} {p : List Bool} (hi : i < 2 * L - 1) (h : Path L node i p j) :
    j + p.length ≤ i := by
  induction h with
  | nil => simp
  | @cons i j p e h _ ih =>
    have := (t.inner i h hi).2 e
    have := ih (by omega)
    simp only [List.length_cons]
    omega

/-- Every node has a path from the root. -/
theorem IsTree.path (t : IsTree L node) (n j : Nat) (hn : 2 * L - 2 - j ≤ n) (hj : j < 2 * L - 1) :
    ∃ p, Path L node (2 * L - 2) p j := by
  induction n generalizing j with
  | zero =>
    obtain rfl : j = 2 * L - 2 := by omega
    exact ⟨[], .nil _⟩
  | succ n ih =>
    by_cases h : j = 2 * L - 2
    · subst h; exact ⟨[], .nil _⟩
    · obtain ⟨i, e, h1, h2, rfl⟩ := t.parent j (by omega)
      have := (t.inner i h1 h2).2 e
      obtain ⟨p, hp⟩ := ih i (by omega) h2
      exact ⟨p ++ [e], hp.append (.cons e h1 (.nil _))⟩

/-- The last step of a path that has one. -/
theorem Path.last {i j : Nat} {p : List Bool} {e : Bool} (h : Path L node i (p ++ [e]) j) :
    ∃ k, Path L node i p k ∧ L ≤ k ∧ (node k).child e = j := by
  obtain ⟨k, h1, h2⟩ := h.split
  cases h2 with
  | cons _ hk t => cases t; exact ⟨k, h1, hk, rfl⟩

/-- A node has one path from the root. -/
theorem IsTree.path_unique (t : IsTree L node) (hL : 1 ≤ L) (p q : List Bool) (j : Nat)
    (h : Path L node (2 * L - 2) p j) (g : Path L node (2 * L - 2) q j) : p = q := by
  induction p using List.reverseRecOn generalizing q j with
  | nil =>
    cases h
    have := g.le t (by omega)
    exact (List.eq_nil_of_length_eq_zero (by omega)).symm
  | append_singleton p e ih =>
    have hle := h.le t (by omega)
    simp only [List.length_append, List.length_singleton] at hle
    obtain ⟨k, h1, h2, h3⟩ := h.last
    have hk := h1.le t (by omega)
    cases q using List.reverseRecOn with
    | nil => cases g; omega
    | append_singleton q e' =>
      obtain ⟨k', g1, g2, g3⟩ := g.last
      have hk' := g1.le t (by omega)
      obtain ⟨rfl, rfl⟩ := t.oneParent k k' e e' h2 (by omega) g2 (by omega) (h3.trans g3.symm)
      rw [ih q k h1 g1]

/-- No leaf's path is a prefix of another leaf's. -/
theorem Path.prefix_free {i j k : Nat} {p q : List Bool} (hj : j < L) (h : Path L node i p j) (g : Path L node i q k)
    (hpq : p <+: q) : j = k := by
  obtain ⟨r, rfl⟩ := hpq
  obtain ⟨m, h1, h2⟩ := g.split
  obtain rfl := h.deterministic h1
  exact (h2.from_leaf hj).2.symm

/-! ## The assignment of codes (R147) -/

/-- The codes assigned below node `i` are the paths from it to the leaves. -/
theorem mem_assignCodes (t : IsTree L node) (fuel i : Nat) (p : List Bool) (hf : i < fuel) (hi : i < 2 * L - 1) (c : Byte)
    (w : List Bool) : (c, w) ∈ assignCodes node fuel i p ↔
      ∃ q j, w = p ++ q ∧ j < L ∧ (node j).sym = c ∧ Path L node i q j := by
  induction fuel generalizing i p with
  | zero => omega
  | succ fuel ih =>
    unfold assignCodes
    by_cases hl : i < L
    · rw [if_pos (t.leaf i hl)]
      simp only [List.mem_singleton, Prod.mk.injEq]
      constructor
      · rintro ⟨rfl, rfl⟩
        exact ⟨[], i, by simp, hl, rfl, .nil i⟩
      · rintro ⟨q, j, rfl, hj, rfl, h⟩
        obtain ⟨rfl, rfl⟩ := h.from_leaf hl
        simp
    · obtain ⟨h1, h2⟩ := t.inner i (by omega) hi
      have child : ∀ e, (c, w) ∈ assignCodes node fuel ((node i).child e) (p ++ [e]) ↔
          ∃ q j, w = p ++ [e] ++ q ∧ j < L ∧ (node j).sym = c ∧ Path L node ((node i).child e) q j := fun e =>
        ih _ _ (by have := h2 e; omega) (by have := h2 e; omega)
      rw [if_neg (by rw [h1]; simp), List.mem_append]
      constructor
      · rintro (h | h)
        · obtain ⟨q, j, rfl, hj, hs, hp⟩ := (child false).1 h
          exact ⟨false :: q, j, by simp, hj, hs, .cons false (by omega) hp⟩
        · obtain ⟨q, j, rfl, hj, hs, hp⟩ := (child true).1 h
          exact ⟨true :: q, j, by simp, hj, hs, .cons true (by omega) hp⟩
      · rintro ⟨q, j, rfl, hj, hs, hp⟩
        cases hp with
        | nil => omega
        | @cons _ _ q e _ hp =>
          have := (child e).2 ⟨q, j, by simp, hj, hs, hp⟩
          cases e
          · exact .inl this
          · exact .inr this

theorem mem_of_lookup {α β : Type} [BEq α] [LawfulBEq α] {l : List (α × β)} {a : α} {b : β} (h : l.lookup a = some b) :
    (a, b) ∈ l := by
  induction l with
  | nil => cases h
  | cons x l ih =>
    obtain ⟨x, y⟩ := x
    rw [List.lookup_cons] at h
    split at h
    · rename_i he
      rw [eq_of_beq he]
      simp only [Option.some.injEq] at h
      simp [h]
    · exact List.mem_cons_of_mem _ (ih h)

theorem lookup_isSome {α β : Type} [BEq α] [LawfulBEq α] {l : List (α × β)} {a : α} {b : β} (h : (a, b) ∈ l) :
    ∃ b', l.lookup a = some b' := by
  induction l with
  | nil => cases h
  | cons x l ih =>
    obtain ⟨x, y⟩ := x
    rw [List.lookup_cons]
    split
    · exact ⟨y, rfl⟩
    · rename_i he
      rcases List.mem_cons.1 h with h | h
      · cases h; simp at he
      · exact ih h

/-- With two leaves or more, the code of `c` is the path from the root to the leaf of `c` (R147). -/
theorem codeFor_iff (t : IsTree L node) (hL : 2 ≤ L) (hL2 : L ≤ 256)
    (inj : ∀ j k, j < L → k < L → (node j).sym = (node k).sym → j = k) (c : Byte) (w : List Bool) :
    codeFor (codeAssignments L (2 * L - 2) node) c = some w ↔
      ∃ j, j < L ∧ (node j).sym = c ∧ Path L node (2 * L - 2) w j := by
  have hmem : ∀ w, (c, w) ∈ (assignCodes node (Config.nodeMax + 1) (2 * L - 2) []).reverse ↔
      ∃ j, j < L ∧ (node j).sym = c ∧ Path L node (2 * L - 2) w j := by
    intro w
    rw [List.mem_reverse, mem_assignCodes t _ _ _ (by show _ < 512; omega) (by omega)]
    constructor
    · rintro ⟨q, j, rfl, h1, h2, h3⟩
      exact ⟨j, h1, h2, by simpa using h3⟩
    · rintro ⟨j, h1, h2, h3⟩
      exact ⟨w, j, by simp, h1, h2, h3⟩
  unfold codeFor codeAssignments
  rw [if_neg (by omega), if_neg (by omega)]
  constructor
  · exact fun h => (hmem w).1 (mem_of_lookup h)
  · intro h
    obtain ⟨w', hw'⟩ := lookup_isSome ((hmem w).2 h)
    obtain ⟨j, h1, h2, h3⟩ := h
    obtain ⟨k, g1, g2, g3⟩ := (hmem w').1 (mem_of_lookup hw')
    obtain rfl := inj j k h1 g1 (h2.trans g2.symm)
    rw [hw', t.path_unique (by omega) w' w j g3 h3]

/-! ## Decoding by walking the tree (R153) -/

theorem treeWalk_path (t : IsTree L node) (hL : 2 ≤ L) (fuel : Nat) (bits : List Bool) {i j : Nat} {p : List Bool}
    (hp : p ≠ []) (hi : i < 2 * L - 1) (hj : j < L) (h : Path L node i p j) :
    treeWalk node (2 * L - 2) (p.length + fuel) i (p ++ bits) =
      (node j).sym :: treeWalk node (2 * L - 2) fuel (2 * L - 2) bits := by
  have hroot : (node (2 * L - 2)).leaf = false := (t.inner _ (by omega) (by omega)).1
  induction h with
  | nil => exact absurd rfl hp
  | @cons i j q e hLi tail ih =>
    have hc := (t.inner i hLi hi).2 e
    have hstep : (if e then (node i).right.toNat else (node i).left.toNat) = (node i).child e := rfl
    rw [List.length_cons, show q.length + 1 + fuel = (q.length + fuel) + 1 by omega, List.cons_append, treeWalk, hstep]
    simp only [hroot, Bool.false_eq_true, if_false]
    by_cases hl : (node i).child e < L
    · obtain ⟨rfl, rfl⟩ := tail.from_leaf hl
      rw [if_pos (t.leaf _ hl)]
      simp
    · rw [if_neg (by rw [(t.inner _ (by omega) (by omega)).1]; simp)]
      exact ih (by rintro rfl; cases tail; exact hl hj) (by omega) hj

/-- The walk over the concatenated codes of a sequence gives the sequence back, with two leaves or more. -/
theorem treeWalk_codes (t : IsTree L node) (hL : 2 ≤ L) (code : Byte → List Bool) (input : List Byte)
    (h : ∀ c ∈ input, ∃ j, j < L ∧ (node j).sym = c ∧ Path L node (2 * L - 2) (code c) j) :
    treeWalk node (2 * L - 2) (input.flatMap code).length (2 * L - 2) (input.flatMap code) = input := by
  induction input with
  | nil => rfl
  | cons c cs ih =>
    obtain ⟨j, h1, h2, h3⟩ := h c (by simp)
    rw [List.flatMap_cons, List.length_append, treeWalk_path t hL _ _ (by
      intro e
      rw [e] at h3
      cases h3
      omega) (by omega) h1 h3, ih fun d hd => h d (List.mem_cons_of_mem _ hd), h2]

/-- With one leaf every bit gives its symbol. -/
theorem treeWalk_single (root : Nat) (hroot : (node root).leaf = true) (bits : List Bool) :
    treeWalk node root bits.length root bits = List.replicate bits.length (node root).sym := by
  induction bits with
  | nil => rfl
  | cons b bits ih => rw [List.length_cons, treeWalk, if_pos hroot, ih, List.replicate_succ]

/-! ## Frequencies and depth (R151, R153) -/

/-- The merge key of a node of a table. -/
def nodeKey (node : Nat → Node) (j : Nat) : MergeKey := ⟨(node j).freq, j⟩

/-- The frequencies of a tree and the order in which its nodes were extracted (R143 to R145). -/
structure IsMerged (L : Nat) (node : Nat → Node) : Prop where
  positive : ∀ j, j < L → 0 < (node j).freq.toNat
  sums : ∀ i, L ≤ i → i < 2 * L - 1 →
    (node i).freq.toNat = (node ((node i).child false)).freq.toNat + (node ((node i).child true)).freq.toNat
  within : ∀ i, L ≤ i → i < 2 * L - 1 →
    (nodeKey node ((node i).child false)).before (nodeKey node ((node i).child true)) = true
  across : ∀ i i', L ≤ i → i < i' → i' < 2 * L - 1 →
    (nodeKey node ((node i).child true)).before (nodeKey node ((node i').child false)) = true

theorem IsMerged.freq_pos (t : IsTree L node) (m : IsMerged L node) (j : Nat) (hj : j < 2 * L - 1) :
    0 < (node j).freq.toNat := by
  induction j using Nat.strongRecOn with
  | ind j ih =>
    by_cases h : j < L
    · exact m.positive j h
    · have := (t.inner j (by omega) hj).2 false
      have := ih _ this (by omega)
      rw [m.sums j (by omega) hj]
      omega

theorem before_le {a b : MergeKey} (h : a.before b = true) : a.freq.toNat ≤ b.freq.toNat := by
  rw [MergeKey.before_iff] at h
  omega

/-- In one merge both children are at most `true`'s key and at least `false`'s. -/
theorem IsMerged.child_le (m : IsMerged L node) {i : Nat} (h1 : L ≤ i) (h2 : i < 2 * L - 1) (e : Bool) :
    (node ((node i).child false)).freq.toNat ≤ (node ((node i).child e)).freq.toNat ∧
    (node ((node i).child e)).freq.toNat ≤ (node ((node i).child true)).freq.toNat := by
  have := before_le (m.within i h1 h2)
  simp only [nodeKey] at this
  cases e <;> omega

/-- A node with a path of length `d` below it has a frequency of at least the Fibonacci number `F(d + 2)` (R151). -/
theorem IsMerged.fib_le (t : IsTree L node) (m : IsMerged L node) (d : Nat) : ∀ {i j : Nat} {p : List Bool},
    p.length = d → i < 2 * L - 1 → Path L node i p j → Nat.fib (d + 2) ≤ (node i).freq.toNat := by
  induction d using Nat.strongRecOn with
  | ind d ih =>
    intro i j p hd hi h
    cases h with
    | nil => subst hd; exact m.freq_pos t i hi
    | @cons _ _ q e hLi tail =>
      have hc := (t.inner i hLi hi).2
      have hs := m.sums i hLi hi
      cases tail with
      | nil =>
        subst hd
        have p1 := m.freq_pos t _ (show (node i).child false < 2 * L - 1 by have := hc false; omega)
        have p2 := m.freq_pos t _ (show (node i).child true < 2 * L - 1 by have := hc true; omega)
        show 2 ≤ _
        omega
      | @cons _ _ r e' hLc tail' =>
        have hcc := (t.inner _ hLc (by have := hc e; omega)).2
        obtain ⟨d, rfl⟩ : ∃ d', d = d' + 2 := ⟨r.length, by simpa using hd.symm⟩
        simp only [List.length_cons, Nat.add_right_cancel_iff] at hd
        have i1 := ih (d + 1) (by omega) (p := e' :: r) (by simp [hd]) (by have := hc e; omega) (.cons e' hLc tail')
        have i2 := ih d (by omega) hd (by have := hc e; have := hcc e'; omega) tail'
        have o1 := (m.child_le hLc (by have := hc e; omega) e').2
        have o2 := before_le (m.across ((node i).child e) i hLc (hc e) hi)
        simp only [nodeKey] at o2
        have o3 := (m.child_le hLi hi (!e)).1
        have hfib : Nat.fib (d + 2 + 2) = Nat.fib (d + 2) + Nat.fib (d + 1 + 2) := Nat.fib_add_two
        cases e
        · simp only [Bool.not_false] at o3
          omega
        · simp only [Bool.not_true] at o3
          omega

/-- With a total of at most 256 no leaf lies deeper than 11 (R151). -/
theorem IsMerged.depth_le (t : IsTree L node) (m : IsMerged L node) (hL : 1 ≤ L)
    (hT : (node (2 * L - 2)).freq.toNat ≤ 256) {j : Nat} {p : List Bool} (h : Path L node (2 * L - 2) p j) :
    p.length ≤ 11 := by
  by_contra hlt
  have h1 := m.fib_le t p.length rfl (by omega) h
  have h2 : Nat.fib 14 ≤ Nat.fib (p.length + 2) := Nat.fib_mono (by omega)
  have h3 : Nat.fib 14 = 377 := by decide
  omega

/-- A node has at least the frequency of every node below it. -/
theorem IsMerged.below_le (t : IsTree L node) (m : IsMerged L node) {i j : Nat} {p : List Bool} (hi : i < 2 * L - 1)
    (h : Path L node i p j) : (node j).freq.toNat ≤ (node i).freq.toNat := by
  induction h with
  | nil => exact le_refl _
  | @cons i j p e hLi _ ih =>
    have hc := (t.inner i hLi hi).2
    have := ih (by have := hc e; omega)
    have := m.sums i hLi hi
    cases e <;> omega

/-- Nodes extracted later lie no deeper. -/
theorem IsMerged.depth_antitone (t : IsTree L node) (m : IsMerged L node) (hL : 1 ≤ L) (q : List Bool) :
    ∀ {p : List Bool} {j k : Nat}, Path L node (2 * L - 2) p j → Path L node (2 * L - 2) q k →
      (nodeKey node j).before (nodeKey node k) = true → q.length ≤ p.length := by
  induction q using List.reverseRecOn with
  | nil => intro p j k _ _ _; simp
  | append_singleton q e' ih =>
    intro p j k h g hb
    have gl := g.le t (by omega)
    obtain ⟨k', g1, g2, g3⟩ := g.last
    have gl' := g1.le t (by omega)
    simp only [List.length_append, List.length_singleton] at gl
    cases p using List.reverseRecOn with
    | nil =>
      cases h
      have := m.below_le t (by omega) g
      rw [MergeKey.before_iff] at hb
      simp only [nodeKey] at hb
      omega
    | append_singleton p e =>
      obtain ⟨j', h1, h2, h3⟩ := h.last
      have hl' := h1.le t (by omega)
      simp only [List.length_append, List.length_singleton, Nat.add_le_add_iff_right]
      rcases Nat.lt_trichotomy j' k' with hjk | rfl | hjk
      · refine ih h1 g1 ?_
        have a := before_le (m.across j' k' h2 hjk (by omega))
        have s1 := m.sums j' h2 (by omega)
        have s2 := m.sums k' g2 (by omega)
        have w1 := (m.child_le h2 (by omega) false).2
        have w2 := (m.child_le g2 (by omega) true).1
        rw [MergeKey.before_iff]
        simp only [nodeKey] at a ⊢
        omega
      · rw [t.path_unique hL p q j' h1 g1]
      · exfalso
        have a := m.across k' j' g2 hjk (by omega)
        subst h3 g3
        have w1 := m.within j' h2 (by omega)
        have w2 := m.within k' g2 (by omega)
        simp only [MergeKey.before_iff, nodeKey] at a w1 w2 hb
        cases e <;> cases e' <;> omega

/-- A leaf of larger frequency has no longer code (R153). -/
theorem IsMerged.code_length_antitone (t : IsTree L node) (m : IsMerged L node) (hL : 1 ≤ L) {p q : List Bool} {j k : Nat}
    (h : Path L node (2 * L - 2) p j) (g : Path L node (2 * L - 2) q k)
    (hf : (node j).freq.toNat < (node k).freq.toNat) : q.length ≤ p.length := by
  refine m.depth_antitone t hL q h g ?_
  rw [MergeKey.before_iff]
  exact .inl hf

end Sys2Proof.Machine
end

