-- ==== Sys2Proof/Laws/Cost.lean ====
section
/-! SUPPORT. The node table of `HUF_BUILD` as a tree with its merge order (R49, R143 to R145), and the total length of the
codes: at most eight bits a symbol (R150). -/
namespace Sys2Proof.Machine

/-! ## The node table is a merged tree -/

/-- The symbols with a non-zero count, in ascending order (R142). -/
def symbolsOf (freq : Nat → BitVec 16) : List Nat := (List.range 256).filter fun c => 0 < (freq c).toNat

theorem leavesOf_eq (freq : Nat → BitVec 16) : leavesOf freq = (symbolsOf freq).map fun c => leafNode c (freq c) := by
  unfold leavesOf symbolsOf
  generalize List.range Config.nSym = l
  induction l with
  | nil => rfl
  | cons c l ih => by_cases h : 0 < (freq c).toNat <;> simp [h, ih]

theorem symbolsOf_lt {freq : Nat → BitVec 16} {c : Nat} (h : c ∈ symbolsOf freq) : c < 256 ∧ 0 < (freq c).toNat := by
  simpa [symbolsOf] using h

theorem nodup_symbolsOf (freq : Nat → BitVec 16) : (symbolsOf freq).Nodup := List.nodup_range.filter _

theorem sum_symbolsOf (freq : Nat → BitVec 16) :
    ((symbolsOf freq).map fun c => (freq c).toNat).sum = ((List.range 256).map fun c => (freq c).toNat).sum := by
  unfold symbolsOf
  generalize List.range 256 = l
  induction l with
  | nil => rfl
  | cons c l ih =>
    by_cases h : 0 < (freq c).toNat
    · simp [h, ih]
    · have : (freq c).toNat = 0 := by omega
      simp [this, ih]

theorem sum_leavesOf (freq : Nat → BitVec 16) :
    ((leavesOf freq).map fun n => n.freq.toNat).sum = ((List.range 256).map fun c => (freq c).toNat).sum := by
  rw [leavesOf_eq, List.map_map, ← sum_symbolsOf]
  rfl

theorem keyOf_eq_nodeKey {nodes : List Node} {node : Nat → Node} (hn : ∀ i, (h : i < nodes.length) → node i = nodes[i])
    {j : Nat} (h : j < nodes.length) : keyOf nodes j = nodeKey node j := by
  unfold keyOf nodeKey
  rw [hn j h, List.getElem?_eq_getElem h]
  rfl

section Table
variable {freq : Nat → BitVec 16} {node : Nat → Node}
  (hn : ∀ i, (h : i < (huffmanNodes freq).length) → node i = (huffmanNodes freq)[i])
include hn

theorem node_getElem? {i : Nat} (h : i < 2 * (symbolsOf freq).length - 1) : (huffmanNodes freq)[i]? = some (node i) := by
  have hl : i < (huffmanNodes freq).length := by rw [length_huffmanNodes, leavesOf_eq, List.length_map]; exact h
  rw [hn i hl, List.getElem?_eq_getElem hl]

/-- The first nodes are the leaves of the symbols in ascending order (R142). -/
theorem node_leaf {m : Nat} (h : m < (symbolsOf freq).length) :
    node m = leafNode (symbolsOf freq)[m] (freq (symbolsOf freq)[m]) := by
  have h1 := node_getElem? hn (i := m) (by omega)
  rw [huffmanNodes_leaf freq (by rw [leavesOf_eq, List.length_map]; exact h), Option.some.injEq] at h1
  rw [← h1]
  simp [leavesOf_eq]

theorem node_sym_injective {j k : Nat} (hj : j < (symbolsOf freq).length) (hk : k < (symbolsOf freq).length)
    (h : (node j).sym = (node k).sym) : j = k := by
  rw [node_leaf hn hj, node_leaf hn hk] at h
  have e := congrArg BitVec.toNat h
  simp only [leafNode, BitVec.toNat_ofNat] at e
  have h1 := (symbolsOf_lt (List.getElem_mem hj)).1
  have h2 := (symbolsOf_lt (List.getElem_mem hk)).1
  exact (nodup_symbolsOf freq).getElem_inj_iff.1 (by omega)

/-- The node table is a tree (R49). -/
theorem node_isTree : IsTree (symbolsOf freq).length node := by
  obtain ⟨last, h1, h2, h3, -⟩ := huffmanNodes_spec freq
  have hlen : (leavesOf freq).length = (symbolsOf freq).length := by rw [leavesOf_eq, List.length_map]
  rw [hlen] at h2 h3
  have get : ∀ {i : Nat}, i < 2 * (symbolsOf freq).length - 1 → (huffmanNodes freq)[i]? = some (node i) :=
    fun h => node_getElem? hn h
  have hlen2 : (huffmanNodes freq).length = 2 * (symbolsOf freq).length - 1 := by rw [length_huffmanNodes, hlen]
  refine ⟨?_, ?_, ?_, ?_⟩
  · intro j hj
    rw [node_leaf hn hj]
    rfl
  · intro i hi hi2
    obtain ⟨a, -, b⟩ := h3.internal i _ hi (get hi2)
    exact ⟨a, b⟩
  · intro i i' e e' a b c d he
    exact h3.parents i i' _ _ e e' a c (get b) (get d) he
  · intro j hj
    by_contra hno
    have hfree : ∀ k, k < 2 * (symbolsOf freq).length - 1 → (∀ i n e, (symbolsOf freq).length ≤ i →
        (huffmanNodes freq)[i]? = some n → n.child e ≠ k) → ∃ m ∈ last, m.index = k := fun k hk h =>
      (h3.free k).2 ⟨by omega, h⟩
    obtain ⟨m1, hm1, e1⟩ := hfree j (by omega) fun i n e hi hnn he => hno ⟨i, e, hi, by
      have := (List.getElem?_eq_some_iff.1 hnn).1; omega, by
      rw [get (by have := (List.getElem?_eq_some_iff.1 hnn).1; omega)] at hnn
      cases hnn; exact he⟩
    obtain ⟨m2, hm2, e2⟩ := hfree (2 * (symbolsOf freq).length - 2) (by omega) fun i n e hi hnn he => by
      have := (h3.internal i n hi hnn).2.2 e
      have := (List.getElem?_eq_some_iff.1 hnn).1
      omega
    match last, h1, hm1, hm2 with
    | [k], _, hm1, hm2 =>
      rw [List.mem_singleton] at hm1 hm2
      subst hm1 hm2
      omega

/-- The frequencies and the extraction order of the node table, and the root's frequency (R49, R143 to R145). -/
theorem node_isMerged (hT : ((List.range 256).map fun c => (freq c).toNat).sum < 2 ^ 16) :
    IsMerged (symbolsOf freq).length node ∧ (1 ≤ (symbolsOf freq).length →
      (node (2 * (symbolsOf freq).length - 2)).freq.toNat = ((List.range 256).map fun c => (freq c).toNat).sum) := by
  obtain ⟨last, h1, h2, h3, -, h5⟩ := huffmanNodes_spec freq
  have t := node_isTree hn
  have hlen : (leavesOf freq).length = (symbolsOf freq).length := by rw [leavesOf_eq, List.length_map]
  rw [sum_leavesOf, hlen] at h5
  rw [hlen] at h2 h3
  have o := h5 hT
  have hlen2 : (huffmanNodes freq).length = 2 * (symbolsOf freq).length - 1 := by rw [length_huffmanNodes, hlen]
  have get : ∀ {i : Nat}, i < 2 * (symbolsOf freq).length - 1 → (huffmanNodes freq)[i]? = some (node i) :=
    fun h => node_getElem? hn h
  have key : ∀ {i : Nat} (e : Bool), (symbolsOf freq).length ≤ i → i < 2 * (symbolsOf freq).length - 1 →
      keyOf (huffmanNodes freq) ((node i).child e) = nodeKey node ((node i).child e) := by
    intro i e ha hb
    exact keyOf_eq_nodeKey hn (by have := (t.inner i ha hb).2 e; omega)
  refine ⟨⟨?_, ?_, ?_, ?_⟩, ?_⟩
  · intro j hj
    rw [node_leaf hn hj]
    exact (symbolsOf_lt (List.getElem_mem hj)).2
  · intro i ha hb
    have := o.sums i _ ha (get hb)
    rwa [key false ha hb, key true ha hb] at this
  · intro i ha hb
    have := o.within i _ ha (get hb)
    rwa [key false ha hb, key true ha hb] at this
  · intro i i' ha hab hb
    have := o.across i i' _ _ ha hab (get (by omega)) (get hb)
    rwa [key true ha (by omega), key false (by omega) hb] at this
  · intro hL
    match last, h1, h2 hL, h3, o with
    | [k], _, _, h3, o =>
      have hk : k.index = 2 * (symbolsOf freq).length - 2 := by
        obtain ⟨m, hm, e⟩ := (h3.free (2 * (symbolsOf freq).length - 2)).2 ⟨by omega, fun i n e hi hnn he => by
          have := (h3.internal i n hi hnn).2.2 e
          have := (List.getElem?_eq_some_iff.1 hnn).1
          omega⟩
        rw [List.mem_singleton] at hm
        rw [← hm, e]
      obtain ⟨n, a, b⟩ := h3.keys k (by simp)
      rw [hk, get (by omega)] at a
      cases a
      rw [b, ← o.total]
      simp

end Table

/-! ## The cost of the merges (R150) -/

/-- The sum of the keys' frequencies. -/
def keySum (l : List MergeKey) : Nat := (l.map fun k => k.freq.toNat).sum

theorem keySum_perm {l l' : List MergeKey} (h : l.Perm l') : keySum l = keySum l' := (h.map _).sum_eq

@[simp] theorem keySum_cons (k : MergeKey) (l : List MergeKey) : keySum (k :: l) = k.freq.toNat + keySum l := rfl

@[simp] theorem keySum_append (l l' : List MergeKey) : keySum (l ++ l') = keySum l + keySum l' := by simp [keySum]

/-- Extracting the least key costs no more than one of any marked part of the active set. -/
theorem extract_marked {act U R rest : List MergeKey} {e : MergeKey} (hU : act.Perm (U ++ R)) (hp : act.Perm (e :: rest))
    (hmin : ∀ k ∈ act, e.freq.toNat ≤ k.freq.toNat) (hne : U ≠ []) :
    ∃ U' R', rest.Perm (U' ++ R') ∧ U.length = U'.length + 1 ∧ e.freq.toNat + keySum U' ≤ keySum U := by
  have he : e ∈ U ++ R := hU.mem_iff.1 (hp.mem_iff.2 (by simp))
  have hcons := hp.symm.trans hU
  rcases List.mem_append.1 he with heU | heR
  · have hU' := List.perm_cons_erase heU
    refine ⟨U.erase e, R, (List.perm_cons e).1 (hcons.trans (hU'.append_right R)), hU'.length_eq, ?_⟩
    rw [keySum_perm hU']
    exact le_refl _
  · obtain ⟨x, U', rfl⟩ := List.exists_cons_of_ne_nil hne
    have hR' := List.perm_cons_erase heR
    refine ⟨U', x :: R.erase e, ?_, rfl, ?_⟩
    · have h1 : (x :: U' ++ R).Perm (x :: U' ++ e :: R.erase e) := List.Perm.append_left (x :: U') hR'
      have h2 : (x :: U' ++ e :: R.erase e).Perm (e :: (x :: U' ++ R.erase e)) := List.perm_middle
      have h3 : (x :: U' ++ R.erase e).Perm (U' ++ x :: R.erase e) := List.perm_middle.symm
      exact (List.perm_cons e).1 (hcons.trans (h1.trans (h2.trans (h3.cons e))))
    · have := hmin x (hU.mem_iff.2 (by simp))
      simp only [keySum_cons]
      omega

/-- The frequencies of the nodes that the loop makes sum to at most `B + k × T`, for a total of `T`, a marked part `U` of
sum at most `B`, and at most `2^k` nodes left once `U` is used up: while two marked keys are left, a merge takes no more
than them; then at most half as many nodes are left, and all are marked again. -/
theorem mergeLoop_cost {T : Nat} (hT : T < 2 ^ 16) (fuel : Nat) : ∀ (act : List MergeKey) (nodes : List Node)
    (U R : List MergeKey) (B k : Nat), keySum act = T → act.Perm (U ++ R) → keySum U ≤ B →
    act.length ≤ 2 ^ k + U.length / 2 → act.length ≤ fuel →
    ∃ made, mergeLoop fuel act nodes = nodes ++ made ∧ (made.map fun n => n.freq.toNat).sum ≤ B + k * T := by
  induction fuel with
  | zero =>
    intro act nodes U R B k _ _ _ _ _
    exact ⟨[], by simp [mergeLoop], by simp⟩
  | succ fuel ih =>
    -- a merge while two marked keys are left
    have marked : ∀ (act : List MergeKey) (nodes : List Node) (U R : List MergeKey) (B k : Nat), keySum act = T →
        act.Perm (U ++ R) → keySum U ≤ B → act.length ≤ 2 ^ k + U.length / 2 → act.length ≤ fuel + 1 → 2 ≤ U.length →
        ∃ made, mergeLoop (fuel + 1) act nodes = nodes ++ made ∧ (made.map fun n => n.freq.toNat).sum ≤ B + k * T := by
      intro act nodes U R B k hsum hU hB hk hf h2
      unfold mergeLoop
      split
      · exact ⟨[], by simp, by simp⟩
      · rename_i a act1 h1
        split
        · exact ⟨[], by simp, by simp⟩
        · rename_i b act2 h2'
          obtain ⟨-, p1, m1⟩ := extractMin_spec h1
          obtain ⟨-, p2, m2⟩ := extractMin_spec h2'
          obtain ⟨U1, R1, q1, l1, c1⟩ := extract_marked hU p1 (fun k hk => by
            rcases m1 k hk with rfl | h
            · exact le_refl _
            · exact before_le h) (by intro e; rw [e] at h2; simp at h2)
          obtain ⟨U2, R2, q2, l2, c2⟩ := extract_marked q1 p2 (fun k hk => by
            rcases m2 k hk with rfl | h
            · exact le_refl _
            · exact before_le h) (by intro e; rw [e] at l1; simp at l1; omega)
          have hs1 := keySum_perm p1
          have hs2 := keySum_perm p2
          simp only [keySum_cons] at hs1 hs2
          have hadd : (a.freq + b.freq).toNat = a.freq.toNat + b.freq.toNat := by
            rw [BitVec.toNat_add, Nat.mod_eq_of_lt (by omega)]
          have e1 := p1.length_eq
          have e2 := p2.length_eq
          simp only [List.length_cons] at e1 e2
          obtain ⟨made, hm, hc⟩ := ih (act2 ++ [⟨a.freq + b.freq, nodes.length⟩]) (nodes ++ [parentNode a b]) U2
            (R2 ++ [⟨a.freq + b.freq, nodes.length⟩]) (B - (a.freq.toNat + b.freq.toNat)) k
            (by rw [keySum_append, keySum_cons, hadd]; simp only [keySum, List.map_nil, List.sum_nil] at *; omega)
            (by rw [← List.append_assoc]; exact q2.append_right _) (by omega)
            (by simp only [List.length_append, List.length_singleton]; omega)
            (by simp only [List.length_append, List.length_singleton]; omega)
          refine ⟨parentNode a b :: made, by rw [hm, List.append_assoc]; rfl, ?_⟩
          rw [List.map_cons, List.sum_cons]
          show (a.freq + b.freq).toNat + _ ≤ _
          omega
    intro act nodes U R B k hsum hU hB hk hf
    by_cases h2 : 2 ≤ U.length
    · exact marked act nodes U R B k hsum hU hB hk hf h2
    · by_cases hact : act.length ≤ 1
      · refine ⟨[], ?_, by simp⟩
        unfold mergeLoop
        split
        · simp
        · rename_i a act1 h1
          have e1 := (extractMin_spec h1).2.1.length_eq
          simp only [List.length_cons] at e1
          obtain rfl : act1 = [] := List.eq_nil_of_length_eq_zero (by omega)
          simp [extractMin]
      · have hk0 : act.length ≤ 2 ^ k := by omega
        obtain ⟨k, rfl⟩ : ∃ k', k = k' + 1 := by
          cases k with
          | zero => simp at hk0; omega
          | succ k => exact ⟨k, rfl⟩
        rw [Nat.pow_succ] at hk0
        obtain ⟨made, hm, hc⟩ := marked act nodes act [] T k hsum (by simp) (by omega) (by omega) hf (by omega)
        refine ⟨made, hm, hc.trans ?_⟩
        rw [Nat.add_mul, Nat.one_mul]
        omega

/-- The internal nodes' frequencies sum to at most eight times the total (R150). -/
theorem huffmanNodes_cost (freq : Nat → BitVec 16) (hT : ((List.range 256).map fun c => (freq c).toNat).sum < 2 ^ 16) :
    ∃ made, huffmanNodes freq = leavesOf freq ++ made ∧ (made.map fun n => n.freq.toNat).sum ≤
      8 * ((List.range 256).map fun c => (freq c).toNat).sum := by
  have hs : keySum (seedKeys (leavesOf freq)) = ((List.range 256).map fun c => (freq c).toNat).sum := by
    rw [← sum_leavesOf]
    exact (mergeOrder_start (leavesOf freq)).total
  obtain ⟨made, h1, h2⟩ := mergeLoop_cost hT (leavesOf freq).length (seedKeys (leavesOf freq)) (leavesOf freq) []
    (seedKeys (leavesOf freq)) 0 8 hs (by simp) (by simp [keySum])
    (by rw [length_seedKeys]; have := length_leavesOf freq; simpa using this) (by rw [length_seedKeys])
  exact ⟨made, h1, by omega⟩

/-! ## The cost of the merges is the cost of the codes -/

/-- The sum of the frequencies of the internal nodes below node `i`, itself included. -/
def depthCost (node : Nat → Node) : (fuel i : Nat) → Nat
  | 0, _ => 0
  | fuel + 1, i =>
    if (node i).leaf then 0
    else (node i).freq.toNat + depthCost node fuel ((node i).child false) + depthCost node fuel ((node i).child true)

/-- The frequency-weighted length of the codes assigned below node `i` (R147). -/
theorem sum_assignCodes {L : Nat} {node : Nat → Node} (t : IsTree L node) (m : IsMerged L node) (f : Byte → Nat)
    (hf : ∀ j, j < L → f (node j).sym = (node j).freq.toNat) (fuel i : Nat) (p : List Bool) (h1 : i < fuel)
    (h2 : i < 2 * L - 1) : ((assignCodes node fuel i p).map fun a => f a.1 * a.2.length).sum =
      (node i).freq.toNat * p.length + depthCost node fuel i := by
  induction fuel generalizing i p with
  | zero => omega
  | succ fuel ih =>
    unfold assignCodes depthCost
    by_cases hl : i < L
    · rw [if_pos (t.leaf i hl), if_pos (t.leaf i hl)]
      simp [hf i hl]
    · obtain ⟨a, b⟩ := t.inner i (by omega) h2
      have hs := m.sums i (by omega) h2
      have c0 := b false
      have c1 := b true
      rw [if_neg (by rw [a]; simp), if_neg (by rw [a]; simp), List.map_append, List.sum_append]
      have i0 := ih ((node i).child false) (p ++ [false]) (by omega) (by omega)
      have i1 := ih ((node i).child true) (p ++ [true]) (by omega) (by omega)
      simp only [List.length_append, List.length_singleton, Nat.mul_add, Nat.mul_one] at i0 i1
      show (List.map _ (assignCodes node fuel ((node i).child false) _)).sum +
        (List.map _ (assignCodes node fuel ((node i).child true) _)).sum = _
      rw [i0, i1, hs, Nat.add_mul]
      omega

/-- The cost depends on the nodes up to `i` only, and on no fuel above it. -/
theorem depthCost_congr {node node' : Nat → Node} {b : Nat}
    (hin : ∀ j, j ≤ b → (node j).leaf = false → ∀ e, (node j).child e < j) (fuel fuel' i : Nat) (h : i < fuel)
    (h' : i < fuel') (hb : i ≤ b) (heq : ∀ j, j ≤ i → node' j = node j) :
    depthCost node' fuel' i = depthCost node fuel i := by
  induction fuel generalizing fuel' i with
  | zero => omega
  | succ fuel ih =>
    obtain ⟨fuel', rfl⟩ : ∃ g, fuel' = g + 1 := ⟨fuel' - 1, by omega⟩
    unfold depthCost
    rw [heq i (le_refl _)]
    by_cases hl : (node i).leaf = true
    · rw [if_pos hl, if_pos hl]
    · have hc := hin i hb (by simpa using hl)
      have c0 := hc false
      have c1 := hc true
      rw [if_neg hl, if_neg hl, ih fuel' _ (by omega) (by omega) (by omega) fun j hj => heq j (by omega),
        ih fuel' _ (by omega) (by omega) (by omega) fun j hj => heq j (by omega)]

/-- A node table read with a leaf past its end. -/
def nodeOf (nodes : List Node) (i : Nat) : Node := nodes[i]?.getD (leafNode 0 0)

/-- What the merges have cost so far is the cost of the trees in the active set. -/
theorem depthCost_huffmanNodes (freq : Nat → BitVec 16) (hT : ((List.range 256).map fun c => (freq c).toNat).sum < 2 ^ 16)
    (hL : 1 ≤ (symbolsOf freq).length) : ∃ made, huffmanNodes freq = leavesOf freq ++ made ∧
      depthCost (nodeOf (huffmanNodes freq)) 512 (2 * (symbolsOf freq).length - 2) =
        (made.map fun n => n.freq.toNat).sum := by
  have hL256 := length_leavesOf freq
  have hlen : (leavesOf freq).length = (symbolsOf freq).length := by rw [leavesOf_eq, List.length_map]
  have hleaf : ∀ made j, j < (leavesOf freq).length → (nodeOf (leavesOf freq ++ made) j).leaf = true := by
    intro made j hj
    unfold nodeOf
    rw [List.getElem?_append_left hj]
    simp [leavesOf_eq, List.getElem?_eq_getElem (by rwa [hlen] at hj : j < (symbolsOf freq).length), leafNode]
  have hin : ∀ {act nodes}, MergeShape (leavesOf freq).length act nodes →
      (∃ made, nodes = leavesOf freq ++ made) → ∀ j, (nodeOf nodes j).leaf = false → ∀ e, (nodeOf nodes j).child e < j := by
    rintro act nodes h ⟨made, hm⟩ j hf e
    have hj : (leavesOf freq).length ≤ j := by
      by_contra hlt
      rw [hm, hleaf made j (by omega)] at hf
      cases hf
    unfold nodeOf at hf ⊢
    rcases hq : nodes[j]? with _ | n
    · rw [hq] at hf; exact absurd hf (by simp [leafNode])
    · exact (h.internal j n hj hq).2.2 e
  obtain ⟨last, h1, h2, h3, ⟨made, h4⟩, -, h6⟩ := mergeLoop_induct
    (P := fun act nodes => MergeShape (leavesOf freq).length act nodes ∧ (∃ made, nodes = leavesOf freq ++ made) ∧
      keySum act < 2 ^ 16 ∧
      (act.map fun k => depthCost (nodeOf nodes) 512 k.index).sum =
        ((nodes.drop (leavesOf freq).length).map fun n => n.freq.toNat).sum)
    (fun act nodes a b rest ⟨p1, ⟨made, p2⟩, p3, p4⟩ m => by
      have hcount := p1.count
      have hlower := p1.lower
      have hml := m.perm.length_eq
      simp only [List.length_cons] at hml
      have ma : a ∈ act := m.perm.mem_iff.2 (by simp)
      have mb : b ∈ act := m.perm.mem_iff.2 (by simp)
      have hks := keySum_perm m.perm
      simp only [keySum_cons] at hks
      have hadd : (a.freq + b.freq).toNat = a.freq.toNat + b.freq.toNat := by
        rw [BitVec.toNat_add, Nat.mod_eq_of_lt (by omega)]
      have old : ∀ k ∈ act, ∀ fuel, k.index < fuel →
          depthCost (nodeOf (nodes ++ [parentNode a b])) fuel k.index = depthCost (nodeOf nodes) 512 k.index := by
        intro k hk fuel hfuel
        have hi := p1.index_lt hk
        refine depthCost_congr (b := k.index) (fun j _ => hin p1 ⟨made, p2⟩ j) _ _ _ (by omega) hfuel (le_refl _) fun j hj => ?_
        unfold nodeOf
        rw [List.getElem?_append_left (by omega)]
      refine ⟨p1.step hL256 m, ⟨made ++ [parentNode a b], by rw [p2, List.append_assoc]⟩, ?_, ?_⟩
      · rw [keySum_append, keySum_cons, hadd]
        simp only [keySum, List.map_nil, List.sum_nil] at *
        omega
      · have ia := p1.index_lt ma
        have ib := p1.index_lt mb
        have hchild := parentNode_child (a := a) (b := b) (by omega) (by omega)
        have hnew : nodeOf (nodes ++ [parentNode a b]) nodes.length = parentNode a b := by simp [nodeOf]
        have hcost : depthCost (nodeOf (nodes ++ [parentNode a b])) 512 nodes.length =
            (a.freq + b.freq).toNat + depthCost (nodeOf nodes) 512 a.index + depthCost (nodeOf nodes) 512 b.index := by
          show depthCost _ (511 + 1) _ = _
          rw [depthCost, hnew, if_neg (by simp [parentNode]), hchild, hchild]
          simp only [Bool.false_eq_true, if_false, if_true]
          rw [old a ma 511 (by omega), old b mb 511 (by omega)]
          rfl
        have hsum := (m.perm.map fun k : MergeKey => depthCost (nodeOf nodes) 512 k.index).sum_eq
        simp only [List.map_cons, List.sum_cons] at hsum
        have hrest : (rest.map fun k => depthCost (nodeOf (nodes ++ [parentNode a b])) 512 k.index) =
            rest.map fun k => depthCost (nodeOf nodes) 512 k.index := List.map_congr_left fun k hk => by
          have mk : k ∈ act := m.perm.mem_iff.2 (by simp [hk])
          exact old k mk 512 (by have := p1.index_lt mk; omega)
        rw [List.map_append, List.sum_append, hrest, List.map_singleton, List.sum_singleton]
        simp only
        rw [hcost, List.drop_append_of_le_length hlower, List.map_append, List.sum_append, ← p4, hsum]
        simp only [List.map_singleton, List.sum_singleton, parentNode]
        omega)
    (leavesOf freq).length (seedKeys (leavesOf freq)) (leavesOf freq) (by rw [length_seedKeys])
    ⟨mergeShape_start _, ⟨[], by simp⟩, by
      rw [show keySum (seedKeys (leavesOf freq)) = _ from (mergeOrder_start (leavesOf freq)).total, sum_leavesOf]
      exact hT, by
      rw [List.drop_length]
      simp only [List.map_nil, List.sum_nil]
      refine List.sum_eq_zero fun x hx => ?_
      obtain ⟨k, hk, rfl⟩ := List.mem_map.1 hx
      have hi := (mergeShape_start (leavesOf freq)).index_lt hk
      have := hleaf [] k.index hi
      rw [List.append_nil] at this
      show depthCost _ (511 + 1) _ = 0
      rw [depthCost, if_pos this]⟩
  rw [length_seedKeys] at h2
  have hroot : ∃ k, last = [k] ∧ k.index = 2 * (symbolsOf freq).length - 2 := by
    match last, h1, h2 (by omega), h3 with
    | [k], _, _, h3 =>
      have hc := h3.count
      simp only [List.length_singleton] at hc
      refine ⟨k, rfl, ?_⟩
      obtain ⟨m, hm, e⟩ := (h3.free (2 * (symbolsOf freq).length - 2)).2 ⟨by omega, fun i n e hi hnn he => by
        have := (h3.internal i n hi hnn).2.2 e
        have := (List.getElem?_eq_some_iff.1 hnn).1
        omega⟩
      rw [List.mem_singleton] at hm
      rw [← hm, e]
  obtain ⟨k, rfl, hk⟩ := hroot
  refine ⟨made, h4, ?_⟩
  simp only [List.map_singleton, List.sum_singleton, hk] at h6
  have hd : (mergeLoop (leavesOf freq).length (seedKeys (leavesOf freq)) (leavesOf freq)).drop (leavesOf freq).length =
      made := by rw [h4]; simp
  rw [hd] at h6
  exact h6

end Sys2Proof.Machine
end

