-- ==== Sys2Proof/Laws/CodeTable.lean ====
section
/-! SUPPORT. The code table that a valid tree gives (R49, R147, R148): which symbols have a code, that codes are not empty
and no code is a prefix of another, and what the bits of the tables read after `HUF_CODES`. -/
namespace Sys2Proof.Machine

/-- The code that the node table gives for symbol `c` (R147). -/
def State.treeCode (s : State) (c : Byte) : Option (List Bool) :=
  codeFor (codeAssignments s.hufNLeaf.toNat s.hufRoot.toNat s.hufNodeAt) c

theorem codesOfTree_getElem (s : State) {c : Nat} (h : c < s.codesOfTree.length) :
    s.codesOfTree[c] = s.treeCode (BitVec.ofNat 8 c) := by
  simp [State.codesOfTree, codeTable, State.treeCode]

theorem codesOfTree_getD (s : State) (c : Byte) : s.codesOfTree[c.toNat]?.getD none = s.treeCode c := by
  have h : c.toNat < s.codesOfTree.length := by rw [length_codesOfTree]; exact c.isLt
  rw [List.getElem?_eq_getElem h, codesOfTree_getElem, ofNat_toNat_byte]
  rfl

theorem mem_codesOfTree (s : State) (code : Option (List Bool)) : code ∈ s.codesOfTree ↔ ∃ c : Byte, s.treeCode c = code := by
  constructor
  · intro h
    obtain ⟨c, hc, rfl⟩ := List.getElem_of_mem h
    exact ⟨BitVec.ofNat 8 c, (codesOfTree_getElem s hc).symm⟩
  · rintro ⟨c, rfl⟩
    rw [← codesOfTree_getD]
    have h : c.toNat < s.codesOfTree.length := by rw [length_codesOfTree]; exact c.isLt
    rw [List.getElem?_eq_getElem h]
    exact List.getElem_mem h

section Valid
variable {s : State} (h : s.TreeValid)
include h

theorem treeValid_isTree : IsTree s.hufNLeaf.toNat s.hufNodeAt := by
  have hn := h.nodeCount
  have hr := h.rootIndex
  have hl := h.leafCount
  refine ⟨?_, ?_, ?_, ?_⟩
  · intro j hj
    rw [h.leaves j (by omega)]
    rfl
  · intro i a b
    obtain ⟨x, -, y, -⟩ := h.internal i a (by omega)
    exact ⟨x, y⟩
  · intro i i' e e' a b a' b' he
    have lt : s.nodeChild i e < s.hufRoot.toNat := by
      have := (h.internal i a (by omega)).2.2.1 e
      omega
    obtain ⟨k, d, -, -, -, u⟩ := h.oneParent (s.nodeChild i e) lt
    obtain ⟨rfl, rfl⟩ := u i e a (by omega) rfl
    obtain ⟨rfl, rfl⟩ := u i' e' a' (by omega) he.symm
    exact ⟨rfl, rfl⟩
  · intro j hj
    obtain ⟨i, e, a, b, c, -⟩ := h.oneParent j (by omega)
    exact ⟨i, e, a, by omega, c⟩

/-- The symbol of a leaf. -/
theorem treeValid_sym {m : Nat} (hm : m < s.presentSymbols.length) :
    (s.hufNodeAt m).sym = BitVec.ofNat 8 s.presentSymbols[m] ∧ s.presentSymbols[m] < 256 := by
  rw [h.leaves m hm]
  exact ⟨rfl, (symbolsOf_lt (freq := s.hufFreqAt) (List.getElem_mem hm)).1⟩

theorem treeValid_sym_injective (j k : Nat) (hj : j < s.hufNLeaf.toNat) (hk : k < s.hufNLeaf.toNat)
    (he : (s.hufNodeAt j).sym = (s.hufNodeAt k).sym) : j = k := by
  rw [h.leafCount] at hj hk
  obtain ⟨a, a'⟩ := treeValid_sym h hj
  obtain ⟨b, b'⟩ := treeValid_sym h hk
  rw [a, b] at he
  have e := congrArg BitVec.toNat he
  simp only [BitVec.toNat_ofNat] at e
  exact (nodup_symbolsOf s.hufFreqAt).getElem_inj_iff.1 (by
    show s.presentSymbols[j] = s.presentSymbols[k]
    omega)

theorem treeValid_leafCount_le : s.hufNLeaf.toNat ≤ 256 := by
  rw [h.leafCount]
  exact (List.length_filter_le _ _).trans (by simp)

/-- A symbol occurs exactly when it has a leaf. -/
theorem treeValid_leaf_iff (c : Byte) :
    (∃ j, j < s.hufNLeaf.toNat ∧ (s.hufNodeAt j).sym = c) ↔ 0 < (s.hufFreqAt c.toNat).toNat := by
  rw [h.leafCount]
  constructor
  · rintro ⟨j, hj, rfl⟩
    obtain ⟨a, b⟩ := treeValid_sym h hj
    rw [a, BitVec.toNat_ofNat, Nat.mod_eq_of_lt b]
    exact (symbolsOf_lt (freq := s.hufFreqAt) (List.getElem_mem hj)).2
  · intro hc
    have hm : c.toNat ∈ s.presentSymbols := by
      have := c.isLt
      simpa [State.presentSymbols] using ⟨by omega, hc⟩
    obtain ⟨j, hj, e⟩ := List.getElem_of_mem hm
    exact ⟨j, hj, by rw [(treeValid_sym h hj).1, e, ofNat_toNat_byte]⟩

/-- The leaf of a symbol has its frequency. -/
theorem treeValid_leaf_freq {j : Nat} (hj : j < s.hufNLeaf.toNat) :
    (s.hufNodeAt j).freq = s.hufFreqAt (s.hufNodeAt j).sym.toNat := by
  rw [h.leafCount] at hj
  obtain ⟨a, b⟩ := treeValid_sym h hj
  rw [a, BitVec.toNat_ofNat, Nat.mod_eq_of_lt b, h.leaves j hj]
  rfl

/-- With two distinct symbols or more, the code of a symbol is the path to its leaf (R147). -/
theorem treeCode_iff (hL : 2 ≤ s.hufNLeaf.toNat) (c : Byte) (w : List Bool) : s.treeCode c = some w ↔
    ∃ j, j < s.hufNLeaf.toNat ∧ (s.hufNodeAt j).sym = c ∧
      Path s.hufNLeaf.toNat s.hufNodeAt (2 * s.hufNLeaf.toNat - 2) w j := by
  unfold State.treeCode
  rw [h.rootIndex]
  exact codeFor_iff (treeValid_isTree h) hL (treeValid_leafCount_le h) (treeValid_sym_injective h) c w

omit h in
/-- With one distinct symbol its code is the bit 0, and no other symbol has one (R148). -/
theorem treeCode_single (hL : s.hufNLeaf.toNat = 1) (c : Byte) :
    s.treeCode c = if c = (s.hufNodeAt 0).sym then some [false] else none := by
  unfold State.treeCode codeAssignments
  rw [hL, if_neg (by omega), if_pos rfl]
  show List.lookup c [((s.hufNodeAt 0).sym, [false])] = _
  rw [List.lookup_cons]
  by_cases hc : c = (s.hufNodeAt 0).sym
  · rw [if_pos hc, hc]
    simp
  · rw [if_neg hc]
    have : (c == (s.hufNodeAt 0).sym) = false := by simpa using hc
    rw [this]
    rfl

omit h in
theorem treeCode_empty (hL : s.hufNLeaf.toNat = 0) (c : Byte) : s.treeCode c = none := by
  unfold State.treeCode codeAssignments
  rw [hL]
  rfl

/-- The symbols with a code are the symbols that occur (R49). -/
theorem treeCode_isSome_iff (c : Byte) : (∃ w, s.treeCode c = some w) ↔ 0 < (s.hufFreqAt c.toNat).toNat := by
  have hleaf := treeValid_leaf_iff h c
  rw [← hleaf]
  rcases Nat.lt_or_ge 1 s.hufNLeaf.toNat with h2 | h1
  · constructor
    · rintro ⟨w, hw⟩
      obtain ⟨j, a, b, -⟩ := (treeCode_iff h h2 c w).1 hw
      exact ⟨j, a, b⟩
    · rintro ⟨j, a, b⟩
      obtain ⟨p, hp⟩ := (treeValid_isTree h).path _ j (le_refl _) (by omega)
      exact ⟨p, (treeCode_iff h h2 c p).2 ⟨j, a, b, hp⟩⟩
  · by_cases h0 : s.hufNLeaf.toNat = 0
    · constructor
      · rintro ⟨w, hw⟩
        rw [treeCode_empty h0] at hw
        cases hw
      · rintro ⟨j, a, -⟩
        omega
    · have h1 : s.hufNLeaf.toNat = 1 := by omega
      rw [treeCode_single h1]
      constructor
      · rintro ⟨w, hw⟩
        split at hw
        · rename_i hc
          exact ⟨0, by omega, hc.symm⟩
        · cases hw
      · rintro ⟨j, a, b⟩
        obtain rfl : j = 0 := by omega
        exact ⟨[false], if_pos b.symm⟩

/-- No code is empty. -/
theorem treeCode_ne_nil {c : Byte} {w : List Bool} (hw : s.treeCode c = some w) : w ≠ [] := by
  rcases Nat.lt_or_ge 1 s.hufNLeaf.toNat with h2 | h1
  · obtain ⟨j, a, -, b⟩ := (treeCode_iff h h2 c w).1 hw
    rintro rfl
    cases b
    omega
  · by_cases h0 : s.hufNLeaf.toNat = 0
    · rw [treeCode_empty h0] at hw
      cases hw
    · rw [treeCode_single (by omega)] at hw
      split at hw
      · cases hw; simp
      · cases hw

/-- No symbol's code is a prefix of another's (R49, R153). -/
theorem treeCode_prefix_free {c d : Byte} {v w : List Bool} (hc : s.treeCode c = some v) (hd : s.treeCode d = some w)
    (hp : v <+: w) : c = d := by
  rcases Nat.lt_or_ge 1 s.hufNLeaf.toNat with h2 | h1
  · obtain ⟨j, a, rfl, p⟩ := (treeCode_iff h h2 c v).1 hc
    obtain ⟨k, -, rfl, q⟩ := (treeCode_iff h h2 d w).1 hd
    rw [p.prefix_free a q hp]
  · by_cases h0 : s.hufNLeaf.toNat = 0
    · rw [treeCode_empty h0] at hc
      cases hc
    · rw [treeCode_single (by omega)] at hc hd
      split at hc
      · split at hd
        · rename_i a b
          rw [a, b]
        · cases hd
      · cases hc

end Valid

/-! ## The tables after `HUF_CODES` -/

/-- A code is read back bit by bit from its length and value (R43, R149). -/
theorem codeBits_of_tables {t : State} {c : Byte} {w : List Bool}
    (h1 : (t.hufClenAt c.toNat).toNat = w.length) (h2 : (t.hufCodeAt c.toNat).toNat = codeValue w) :
    t.codeBits c = w := by
  unfold State.codeBits
  rw [h1]
  apply List.ext_getElem
  · simp
  · intro j a b
    simp only [List.getElem_map, List.getElem_range]
    rw [← BitVec.testBit_toNat, h2, testBit_codeValue w (by omega)]

/-- What the tables hold after they were written with the codes of a tree, each of at most 32 bits (R147). -/
theorem tables_of_codes {s u : State} (hle : ∀ code ∈ s.codesOfTree, codeLength code ≤ 32)
    (h1 : u.hufClenAt = (s.fill .hufClen (numberBytes (s.codesOfTree.map codeLength))).hufClenAt)
    (h2 : u.hufCodeAt = (s.fill .hufCode (numberBytes (s.codesOfTree.map codeWord))).hufCodeAt) (c : Byte) :
    (u.hufClenAt c.toNat).toNat = codeLength (s.treeCode c) ∧ (u.hufCodeAt c.toNat).toNat = codeWord (s.treeCode c) ∧
      u.codeBits c = (s.treeCode c).getD [] := by
  have hlen : c.toNat < s.codesOfTree.length := by rw [length_codesOfTree]; exact c.isLt
  have hget : s.codesOfTree[c.toNat] = s.treeCode c := by rw [codesOfTree_getElem, ofNat_toNat_byte]
  have hl : codeLength (s.treeCode c) ≤ 32 := hle _ ((mem_codesOfTree s _).2 ⟨c, rfl⟩)
  have e1 : (u.hufClenAt c.toNat).toNat = codeLength (s.treeCode c) := by
    rw [h1, fill_hufClenAt _ _ (by rw [List.length_map]; exact hlen) c.isLt, List.getElem_map, hget, BitVec.toNat_ofNat,
      Nat.mod_eq_of_lt (by omega)]
  have hv : codeWord (s.treeCode c) < 2 ^ 32 := by
    cases hc : s.treeCode c with
    | none => exact Nat.two_pow_pos 32
    | some w =>
      rw [hc] at hl
      exact (codeValue_lt w).trans_le (Nat.pow_le_pow_right (by omega) hl)
  have e2 : (u.hufCodeAt c.toNat).toNat = codeWord (s.treeCode c) := by
    rw [h2, fill_hufCodeAt _ _ (by rw [List.length_map]; exact hlen) c.isLt, List.getElem_map, hget, BitVec.toNat_ofNat,
      Nat.mod_eq_of_lt hv]
  refine ⟨e1, e2, ?_⟩
  cases hc : s.treeCode c with
  | none =>
    rw [hc] at e1
    unfold State.codeBits
    rw [e1]
    rfl
  | some w =>
    rw [hc] at e1 e2 hl
    exact codeBits_of_tables e1 e2

/-- The code table written from a valid tree, each code of at most 32 bits, is valid (R49). -/
theorem codesValid_of_tables {s u : State} (h : s.TreeValid) (hle : ∀ code ∈ s.codesOfTree, codeLength code ≤ 32)
    (h1 : u.hufClenAt = (s.fill .hufClen (numberBytes (s.codesOfTree.map codeLength))).hufClenAt)
    (h2 : u.hufCodeAt = (s.fill .hufCode (numberBytes (s.codesOfTree.map codeWord))).hufCodeAt)
    (h3 : u.hufFreqAt = s.hufFreqAt) : u.CodesValid := by
  have tab := tables_of_codes hle h1 h2
  have pos : ∀ c : Byte, 0 < (u.hufClenAt c.toNat).toNat → ∃ w, s.treeCode c = some w := by
    intro c hc
    rw [(tab c).1] at hc
    cases e : s.treeCode c with
    | none => rw [e] at hc; exact absurd hc (by simp [codeLength])
    | some w => exact ⟨w, rfl⟩
  have byte : ∀ c, c < 256 → (BitVec.ofNat 8 c).toNat = c := fun c hc => by
    rw [BitVec.toNat_ofNat, Nat.mod_eq_of_lt hc]
  refine ⟨?_, ?_, ?_⟩
  · intro c hc
    have hsome := treeCode_isSome_iff h (BitVec.ofNat 8 c)
    rw [byte c hc] at hsome
    rw [h3, ← hsome]
    constructor
    · exact fun hp => pos _ (by rw [byte c hc]; exact hp)
    · rintro ⟨w, hw⟩
      have t := (tab (BitVec.ofNat 8 c)).1
      rw [byte c hc, hw] at t
      rw [t]
      exact List.length_pos_of_ne_nil (treeCode_ne_nil h hw)
  · intro c hc
    rw [← byte c hc, (tab _).1]
    exact hle _ ((mem_codesOfTree s _).2 ⟨_, rfl⟩)
  · intro c d hcd hc hd hp
    obtain ⟨v, hv⟩ := pos c hc
    obtain ⟨w, hw⟩ := pos d hd
    rw [(tab c).2.2, (tab d).2.2, hv, hw] at hp
    exact hcd (treeCode_prefix_free h hv hw hp)

/-! ## The total length of the codes (R150) -/

/-- The sum over the symbols of a sequence of the lengths listed for them is at most the sum over the list of count times
length. -/
theorem sum_listed_le (len : Byte → Nat) (as : List (Byte × List Bool)) (xs : List Byte)
    (hx : ∀ x ∈ xs, ∃ w, (x, w) ∈ as ∧ w.length = len x) :
    (xs.map len).sum ≤ (as.map fun a => xs.count a.1 * a.2.length).sum := by
  induction xs with
  | nil => simp
  | cons x xs ih =>
    have ih := ih fun y hy => hx y (by simp [hy])
    obtain ⟨w, hw, hl⟩ := hx x (by simp)
    have key : ∀ as : List (Byte × List Bool), (as.map fun a => (x :: xs).count a.1 * a.2.length).sum =
        (as.map fun a => xs.count a.1 * a.2.length).sum + (as.map fun a => if a.1 = x then a.2.length else 0).sum := by
      intro as
      induction as with
      | nil => rfl
      | cons a as ih2 =>
        simp only [List.map_cons, List.sum_cons]
        rw [ih2, List.count_cons]
        by_cases e : a.1 = x
        · rw [if_pos (by simp [e]), if_pos e, Nat.add_mul, Nat.one_mul]
          omega
        · rw [if_neg (by simpa using fun h => e h.symm), if_neg e, Nat.add_zero]
          omega
    have hmem : w.length ≤ (as.map fun a => if a.1 = x then a.2.length else 0).sum :=
      List.single_le_sum (by simp) _ (List.mem_map.2 ⟨(x, w), hw, by simp⟩)
    rw [key]
    simp only [List.map_cons, List.sum_cons]
    omega

/-- The codes of a sequence that has the tree's counts take at most eight bits a symbol (R150). -/
theorem treeCode_cost {s : State} (h : s.TreeValid) {input : List Byte}
    (hcount : ∀ c : Byte, (s.hufFreqAt c.toNat).toNat = input.count c)
    (hn : ∀ i, (h : i < (huffmanNodes s.hufFreqAt).length) → s.hufNodeAt i = (huffmanNodes s.hufFreqAt)[i])
    (htot : s.hufFreqTotal = input.length) (hlen : input.length ≤ 256) :
    (input.map fun c => codeLength (s.treeCode c)).sum ≤ 8 * input.length := by
  have hleafN : s.hufNLeaf.toNat = (symbolsOf s.hufFreqAt).length := h.leafCount
  have hsum : ((List.range 256).map fun c => (s.hufFreqAt c).toNat).sum = input.length := htot
  have hl256 := treeValid_leafCount_le h
  rcases Nat.lt_or_ge 1 s.hufNLeaf.toNat with h2 | h1
  · have tr := treeValid_isTree h
    have mg := (node_isMerged hn (by omega)).1
    rw [← hleafN] at mg
    obtain ⟨made, m1, m2⟩ := depthCost_huffmanNodes s.hufFreqAt (by omega) (by omega)
    obtain ⟨made', n1, n2⟩ := huffmanNodes_cost s.hufFreqAt (by omega)
    rw [n1] at m1
    obtain rfl := List.append_cancel_left m1
    have hcost : depthCost s.hufNodeAt 512 (2 * s.hufNLeaf.toNat - 2) =
        depthCost (nodeOf (huffmanNodes s.hufFreqAt)) 512 (2 * s.hufNLeaf.toNat - 2) := by
      refine (depthCost_congr (b := 2 * s.hufNLeaf.toNat - 2) ?_ 512 512 _ (by omega) (by omega) (le_refl _) ?_).symm
      · intro j hj hf e
        by_cases hlt : j < s.hufNLeaf.toNat
        · rw [tr.leaf j hlt] at hf
          cases hf
        · exact (tr.inner j (by omega) (by omega)).2 e
      · intro j hj
        have hlenN : j < (huffmanNodes s.hufFreqAt).length := by
          rw [length_huffmanNodes, leavesOf_eq, List.length_map]
          omega
        rw [hn j hlenN]
        unfold nodeOf
        rw [List.getElem?_eq_getElem hlenN]
        rfl
    have hassign := sum_assignCodes tr mg (fun c => input.count c) (fun j hj => by
      show List.count _ _ = _
      rw [← hcount, ← treeValid_leaf_freq h hj]) 512 (2 * s.hufNLeaf.toNat - 2) [] (by omega) (by omega)
    refine (sum_listed_le (fun c => codeLength (s.treeCode c)) (assignCodes s.hufNodeAt 512 (2 * s.hufNLeaf.toNat - 2) [])
      input fun x hx => ?_).trans ?_
    · obtain ⟨w, hw⟩ := (treeCode_isSome_iff h x).2 (by rw [hcount]; exact List.count_pos_iff.2 hx)
      obtain ⟨j, a, b, c⟩ := (treeCode_iff h h2 x w).1 hw
      exact ⟨w, (mem_assignCodes tr 512 _ [] (by omega) (by omega) x w).2 ⟨w, j, by simp, a, b, c⟩, by
        simp only [hw]
        rfl⟩
    · rw [hassign, hcost, hleafN, m2, List.length_nil, Nat.mul_zero, Nat.zero_add]
      omega
  · have short : ∀ c, codeLength (s.treeCode c) ≤ 1 := by
      intro c
      by_cases h0 : s.hufNLeaf.toNat = 0
      · rw [treeCode_empty h0]
        simp [codeLength]
      · rw [treeCode_single (by omega)]
        split <;> simp [codeLength]
    have all : ∀ xs : List Byte, (xs.map fun c => codeLength (s.treeCode c)).sum ≤ 8 * xs.length := by
      intro xs
      induction xs with
      | nil => simp
      | cons x xs ih =>
        simp only [List.map_cons, List.sum_cons, List.length_cons]
        have := short x
        omega
    exact all input

/-! ## The state after `HUF_BUILD` -/

/-- What `HUF_BUILD` leaves in the registers and the node memory (R145). -/
theorem runHufBuild_state {s : State} (h : s.hufStage ≠ .none) : (runHufBuild s).code = .ok ∧
    (runHufBuild s).state.hufFreqAt = s.hufFreqAt ∧
    (runHufBuild s).state.hufNLeaf.toNat = (symbolsOf s.hufFreqAt).length ∧
    (runHufBuild s).state.hufNNode.toNat = 2 * (symbolsOf s.hufFreqAt).length - 1 ∧
    (runHufBuild s).state.hufRoot.toNat = 2 * (symbolsOf s.hufFreqAt).length - 2 ∧
    (∀ i, (h : i < (huffmanNodes s.hufFreqAt).length) →
      (runHufBuild s).state.hufNodeAt i = (huffmanNodes s.hufFreqAt)[i]) ∧
    (runHufBuild s).state.hufStage = .tree := by
  have hl : (leavesOf s.hufFreqAt).length = (symbolsOf s.hufFreqAt).length := by rw [leavesOf_eq, List.length_map]
  have hle := length_leavesOf s.hufFreqAt
  rw [runHufBuild_ok h]
  refine ⟨rfl, ?_, ?_, ?_, ?_, ?_, rfl⟩
  · exact hufFreqAt_congr
      (fill_bank_other (b := .hufNode) (d := .hufFreq) (by decide) ((huffmanNodes s.hufFreqAt).flatMap nodeBytes) s)
      (fill_resets .hufNode ((huffmanNodes s.hufFreqAt).flatMap nodeBytes) s)
  · show (BitVec.ofNat 9 (leavesOf s.hufFreqAt).length).toNat = _
    rw [BitVec.toNat_ofNat, Nat.mod_eq_of_lt (by omega), hl]
  · show (if (leavesOf s.hufFreqAt).length = 0 then (0 : BitVec 10)
      else BitVec.ofNat 10 (2 * (leavesOf s.hufFreqAt).length - 1)).toNat = _
    split
    · show 0 = _
      omega
    · rw [BitVec.toNat_ofNat, Nat.mod_eq_of_lt (by omega), hl]
  · show (if (leavesOf s.hufFreqAt).length = 0 then (0 : BitVec 9)
      else BitVec.ofNat 9 (2 * (leavesOf s.hufFreqAt).length - 2)).toNat = _
    split
    · show 0 = _
      omega
    · rw [BitVec.toNat_ofNat, Nat.mod_eq_of_lt (by omega), hl]
  · intro i hi
    have := length_huffmanNodes s.hufFreqAt
    exact fill_hufNodeAt _ s hi (by omega)

/-- A state whose node memory holds the nodes of its frequency table, and whose registers count them, has a valid tree
(R49). -/
theorem treeValid_of_nodes {t : State} (hT : t.hufFreqTotal ≤ 256)
    (hleaf : t.hufNLeaf.toNat = (symbolsOf t.hufFreqAt).length)
    (hcount : t.hufNNode.toNat = 2 * (symbolsOf t.hufFreqAt).length - 1)
    (hroot : t.hufRoot.toNat = 2 * (symbolsOf t.hufFreqAt).length - 2)
    (hn : ∀ i, (h : i < (huffmanNodes t.hufFreqAt).length) → t.hufNodeAt i = (huffmanNodes t.hufFreqAt)[i]) :
    t.TreeValid := by
  have tr := node_isTree hn
  obtain ⟨mg, mroot⟩ := node_isMerged hn (by unfold State.hufFreqTotal at hT; omega)
  refine ⟨hleaf, by rw [hcount, hleaf], by rw [hroot, hleaf], fun m hm => node_leaf hn hm, ?_, ?_, ?_⟩
  · intro i a b
    rw [hleaf] at a
    rw [hcount] at b
    obtain ⟨x, y⟩ := tr.inner i a b
    refine ⟨x, ?_, y, mg.sums i a b⟩
    obtain ⟨_, _, _, sh, -⟩ := huffmanNodes_spec t.hufFreqAt
    exact (sh.internal i _ (by rw [leavesOf_eq, List.length_map]; exact a) (node_getElem? hn b)).2.1
  · intro j hj
    rw [hroot] at hj
    obtain ⟨i, e, a, b, c⟩ := tr.parent j hj
    refine ⟨i, e, by omega, by omega, c, fun i' e' a' b' c' => ?_⟩
    exact tr.oneParent i' i e' e (by omega) (by omega) a b (Eq.trans c' c.symm)
  · intro hL
    rw [hroot]
    exact mroot (by omega)

end Sys2Proof.Machine
end

