-- ==== Sys2Proof/Laws/PerInstr.lean ====
section
/-! SUPPORT. Family RoundTrip: the word of a command (the column `match` of R93) decodes to that command, and its
reserved bits are zero (R91, R92). -/
namespace Sys2Proof.Laws

/-- The word of `i` is legal and decodes to `i`. -/
def RoundTrip.Statement (i : Instr) : Prop := wordWellFormed (encode i) = true ∧ decode (encode i) = .ok i

theorem RoundTrip.nop : RoundTrip.Statement .nop := ⟨rfl, rfl⟩
theorem RoundTrip.sreset : RoundTrip.Statement .sreset := ⟨rfl, rfl⟩
theorem RoundTrip.rleEnc : RoundTrip.Statement .rleEnc := ⟨rfl, rfl⟩
theorem RoundTrip.hufFreq : RoundTrip.Statement .hufFreq := ⟨rfl, rfl⟩
theorem RoundTrip.hufBuild : RoundTrip.Statement .hufBuild := ⟨rfl, rfl⟩
theorem RoundTrip.hufCodes : RoundTrip.Statement .hufCodes := ⟨rfl, rfl⟩
theorem RoundTrip.hufEnc : RoundTrip.Statement .hufEnc := ⟨rfl, rfl⟩
theorem RoundTrip.hufAll : RoundTrip.Statement .hufAll := ⟨rfl, rfl⟩
theorem RoundTrip.arcInit : RoundTrip.Statement .arcInit := ⟨rfl, rfl⟩
theorem RoundTrip.arcStep : RoundTrip.Statement .arcStep := ⟨rfl, rfl⟩
theorem RoundTrip.arcRun : RoundTrip.Statement .arcRun := ⟨rfl, rfl⟩
theorem RoundTrip.arcFinal : RoundTrip.Statement .arcFinal := ⟨rfl, rfl⟩
theorem RoundTrip.arcAll : RoundTrip.Statement .arcAll := ⟨rfl, rfl⟩

end Sys2Proof.Laws
end

