-- ==== Sys2Proof/Laws/Rle.lean ====
section
/-! SUPPORT. The run-length encoder: what a run and a literal are (R121, R122), and how many bytes a token takes (R127). -/
namespace Sys2Proof.Machine

/-! ## Runs (R121) -/

theorem leadingEqual_replicate (c : Byte) (r : Nat) (rest : List Byte) (h : rest.head? ≠ some c) :
    leadingEqual c (List.replicate r c ++ rest) = r := by
  induction r with
  | zero =>
    cases rest with
    | nil => rfl
    | cons d t =>
      have : d ≠ c := fun e => h (by simp [e])
      simp [leadingEqual, this]
  | succ r ih => simp [List.replicate_succ, leadingEqual, ih]

/-- A sequence is its leading run of `c` followed by a rest that does not begin with `c`. -/
theorem leadingEqual_split (c : Byte) (l : List Byte) :
    l = List.replicate (leadingEqual c l) c ++ l.drop (leadingEqual c l) ∧ (l.drop (leadingEqual c l)).head? ≠ some c := by
  induction l with
  | nil => simp [leadingEqual]
  | cons d t ih =>
    unfold leadingEqual
    split
    · rename_i h
      subst h
      refine ⟨?_, by simpa using ih.2⟩
      simpa [List.replicate_succ] using ih.1
    · rename_i h
      simp [h]

theorem leadingEqual_le (c : Byte) (l : List Byte) : leadingEqual c l ≤ l.length := by
  induction l with
  | nil => simp [leadingEqual]
  | cons d t ih => unfold leadingEqual; split <;> simp; omega

/-! ## Literals (R122) -/

theorem literalLength_le (cap : Nat) (l : List Byte) : literalLength cap l ≤ cap ∧ literalLength cap l ≤ l.length := by
  induction cap generalizing l with
  | zero => simp [literalLength]
  | succ cap ih =>
    match l with
    | [] => simp [literalLength]
    | [c] => simp [literalLength]
    | c :: d :: t =>
      unfold literalLength
      split
      · simp
      · have := ih (d :: t)
        simp only [List.length_cons] at this ⊢
        omega

/-- No symbol of the literal equals its successor. -/
theorem literalLength_noRun (cap : Nat) (l : List Byte) {j : Nat} (hj : j < literalLength cap l) (h1 : j + 1 < l.length) :
    l[j]? ≠ l[j + 1]? := by
  induction cap generalizing l j with
  | zero => simp [literalLength] at hj
  | succ cap ih =>
    match l with
    | [] => simp at h1
    | [c] => simp at h1
    | c :: d :: t =>
      unfold literalLength at hj
      split at hj
      · omega
      · rename_i hcd
        cases j with
        | zero => simpa using hcd
        | succ j => simpa using ih (d :: t) (by omega) (by simpa using h1)

/-- The literal ends at the end of the sequence, at the cap, or right before two equal symbols. -/
theorem literalLength_stops (cap : Nat) (l : List Byte) :
    l.drop (literalLength cap l) = [] ∨ literalLength cap l = cap ∨
      ∃ c rest, l.drop (literalLength cap l) = c :: c :: rest := by
  induction cap generalizing l with
  | zero => exact .inr (.inl (by cases l <;> rfl))
  | succ cap ih =>
    match l with
    | [] => exact .inl rfl
    | [c] => exact .inl rfl
    | c :: d :: t =>
      unfold literalLength
      split
      · rename_i h
        subst h
        exact .inr (.inr ⟨c, t, rfl⟩)
      · rcases ih (d :: t) with h | h | h
        · exact .inl (by simpa using h)
        · exact .inr (.inl (by omega))
        · exact .inr (.inr (by simpa using h))

/-- The length of a literal is fixed by what R122 asks of it. -/
theorem literalLength_eq (syms rest : List Byte) (cap : Nat) (hcap : syms.length ≤ cap)
    (noRun : ∀ j, j + 1 < (syms ++ rest.take 1).length → j < syms.length →
      (syms ++ rest.take 1)[j]? ≠ (syms ++ rest.take 1)[j + 1]?)
    (stops : rest = [] ∨ syms.length = cap ∨ ∃ c rest', rest = c :: c :: rest') :
    literalLength cap (syms ++ rest) = syms.length := by
  induction syms generalizing cap with
  | nil =>
    rcases stops with rfl | h | ⟨c, rest', rfl⟩
    · cases cap <;> rfl
    · have : cap = 0 := by simpa using h.symm
      subst this
      cases rest <;> rfl
    · cases cap with
      | zero => rfl
      | succ cap => simp [literalLength]
  | cons a syms ih =>
    obtain ⟨cap, rfl⟩ : ∃ k, cap = k + 1 := ⟨cap - 1, by simp at hcap; omega⟩
    have ih' := ih cap (by simpa using hcap)
      (fun j h1 h2 => by
        have := noRun (j + 1) (by simpa using h1) (by simpa using h2)
        simpa using this)
      (by rcases stops with h | h | h
          · exact .inl h
          · exact .inr (.inl (by simpa using h))
          · exact .inr (.inr h))
    cases hs : syms ++ rest with
    | nil =>
      rw [List.append_eq_nil_iff] at hs
      obtain ⟨rfl, rfl⟩ := hs
      rfl
    | cons d t =>
      have hne : a ≠ d := by
        have h0 := noRun 0
        cases syms with
        | nil =>
          have hr : rest = d :: t := hs
          subst hr
          simpa using h0
        | cons b syms =>
          have hb : b = d := by simp at hs; exact hs.1
          subst hb
          simpa using h0
      rw [hs] at ih'
      simp only [List.cons_append, hs, literalLength, if_neg hne, ih', List.length_cons]

/-! ## The tokens -/

/-- Enough fuel is enough. -/
theorem rleTokens_fuel (n : Nat) (l : List Byte) (h : l.length ≤ n) : rleTokens n l = rleTokens l.length l := by
  induction n using Nat.strongRecOn generalizing l with
  | ind n ih =>
    match n, l with
    | 0, [] => rfl
    | n + 1, [] => rfl
    | 0, c :: t => simp at h
    | n + 1, c :: t =>
      have hlen : t.length ≤ n := by simpa using h
      simp only [rleTokens, List.length_cons]
      split
      · rename_i hr
        have hd : ((c :: t).drop (leadingEqual c t + 1)).length ≤ t.length := by
          rw [List.length_drop, List.length_cons]; omega
        rw [ih n (by omega) _ (by omega)]
        by_cases he : t.length = n
        · rw [he, ih n (by omega) _ (by omega)]
        · rw [ih t.length (by omega) _ hd]
      · have hj : 1 ≤ literalLength Config.litCap (c :: t) := by
          rename_i hr
          cases t with
          | nil => exact le_refl 1
          | cons d t =>
            have hcd : c ≠ d := by
              intro e
              subst e
              simp [leadingEqual] at hr
            show 1 ≤ literalLength (254 + 1) (c :: d :: t)
            rw [literalLength, if_neg hcd]
            omega
        have hd : ((c :: t).drop (literalLength Config.litCap (c :: t))).length ≤ t.length := by
          rw [List.length_drop, List.length_cons]; omega
        rw [ih n (by omega) _ (by omega)]
        by_cases he : t.length = n
        · rw [he, ih n (by omega) _ (by omega)]
        · rw [ih t.length (by omega) _ hd]

/-- The first token of a sequence that begins with a run of `c` of length `r + 1 ≥ 2`. -/
theorem rleTokens_run (c : Byte) (t : List Byte) (h : 1 ≤ leadingEqual c t) :
    rleTokens (c :: t).length (c :: t) = .run (leadingEqual c t + 1) c ::
      rleTokens (t.drop (leadingEqual c t)).length (t.drop (leadingEqual c t)) := by
  rw [List.length_cons, rleTokens, if_pos (by omega)]
  rw [show (c :: t).drop (leadingEqual c t + 1) = t.drop (leadingEqual c t) from rfl, rleTokens_fuel]
  rw [List.length_drop]
  omega

/-- The first token of a sequence that does not begin with a run. -/
theorem rleTokens_literal (c : Byte) (t : List Byte) (h : leadingEqual c t = 0) :
    rleTokens (c :: t).length (c :: t) =
      .literal ((c :: t).take (literalLength Config.litCap (c :: t))) ::
        rleTokens ((c :: t).drop (literalLength Config.litCap (c :: t))).length
          ((c :: t).drop (literalLength Config.litCap (c :: t))) := by
  have hj : 1 ≤ literalLength Config.litCap (c :: t) := by
    cases t with
    | nil => exact le_refl 1
    | cons d t =>
      have hcd : c ≠ d := by
        intro e
        subst e
        simp [leadingEqual] at h
      show 1 ≤ literalLength (254 + 1) (c :: d :: t)
      rw [literalLength, if_neg hcd]
      omega
  rw [List.length_cons, rleTokens, if_neg (by omega)]
  simp only
  rw [rleTokens_fuel]
  rw [List.length_drop, List.length_cons]
  omega

/-! ## Sizes (R127) -/

theorem length_decDigits (fuel k : Nat) (acc : List Byte) (d : Nat) (hk : k < 10 ^ (d + 1)) :
    (decDigits fuel k acc).length ≤ acc.length + d + 1 := by
  induction fuel generalizing k acc d with
  | zero => simp only [decDigits]; omega
  | succ fuel ih =>
    simp only [decDigits]
    split
    · simp only [List.length_cons]; omega
    · rename_i h
      cases d with
      | zero => exact absurd (Nat.div_eq_of_lt (by simpa using hk)) h
      | succ d =>
        have := ih (k / 10) (BitVec.ofNat 8 (0x30 + k % 10) :: acc) d
          (by rw [Nat.div_lt_iff_lt_mul (by omega), ← Nat.pow_succ]; exact hk)
        simp only [List.length_cons] at this
        omega

/-- A number below 10, 100 or 1000 is spelt in one, two or three digits. -/
theorem length_dec {k d : Nat} (hk : k < 10 ^ (d + 1)) : (dec k).length ≤ d + 1 := by
  have := length_decDigits (k + 1) k [] d hk
  unfold dec
  simpa using this

theorem length_joinTokens (ts : List Token) :
    (joinTokens ts).length = (ts.map fun t => (spellToken t).length).sum + 2 * (ts.length - 1) := by
  induction ts with
  | nil => rfl
  | cons t ts ih =>
    cases ts with
    | nil => simp [joinTokens]
    | cons u ts =>
      simp only [joinTokens, List.length_append, ih, List.map_cons, List.sum_cons, List.length_cons, List.length_nil]
      omega

end Sys2Proof.Machine
end

