-- ==== Sys2Proof/Tests/Slice0.lean ====
section
/-! SUPPORT. Tests: words written out from the opcode map, the spec's vectors (95_test_vectors.md, cited as V<n>), and a
concrete witness for the hypotheses of every statement that has some. -/
namespace Sys2Proof.Tests
open Sys2Proof.Machine

-- The kernel evaluates the tests one at a time.
set_option Elab.async false

/-! ## Small states -/

/-- The bytes of a text (ASCII). -/
def ascii (t : String) : List Byte := t.toList.map fun c => BitVec.ofNat 8 c.toNat

/-- Reset, then the input loaded: `load "..."` (R99). -/
def loaded (bytes : List Byte) : State :=
  { State.reset with inbuf := storedCells .inbuf 0x1000 bytes, inLen := BitVec.ofNat 16 bytes.length }

/-- The state after a command was executed. -/
def ran (i : Instr) (s : State) : State := complete (runOf i s)

/-- The state after the commands of a list were executed, one after another. -/
def ranAll (is : List Instr) (s : State) : State := is.foldl (fun t i => ran i t) s

/-- A host that has one operation to perform. -/
def withHost (op : HostOp) (s : State) : State := { s with host := [op], hostPc := 0 }

/-- A pending command with `n` steps left. -/
def pendingFor (n : Nat) (w : Word) (s : State) : State := { s with busy := true, cmd := w, latency := n }

/-! ## Well-formedness and decoding -/

/-- R92: a word whose reserved bits are not zero is refused (V14). -/
theorem test_wf_reserved_bits : rsvZero 0x00000110 = false ∧ wordWellFormed 0x00000110 = false := by decide
/-- R94: a word whose opcode is unassigned is refused (V13, V15). -/
theorem test_wf_unassigned : opcAssigned 0x00000099 = false ∧ wordWellFormed 0x0000002E = false ∧
    wordWellFormed 0x00000034 = false ∧ wordWellFormed 0x000000FF = false ∧ wordWellFormed 0x00000002 = false := by decide
/-- R96: every command is well formed. -/
theorem test_wf_commands : ∀ i : Instr, i.wellFormed = true := by intro i; cases i <;> rfl

/-- R90, R93: RSV = 0 in bits [31:8], OPC in bits [7:0]. -/
theorem test_decode_control : decode 0b00000000000000000000000000000000 = .ok .nop ∧
    decode 0b00000000000000000000000000000001 = .ok .sreset := by decide
theorem test_decode_rle : decode 0b00000000000000000000000000010000 = .ok .rleEnc := by decide
theorem test_decode_huffman : decode 0b00000000000000000000000000100000 = .ok .hufFreq ∧
    decode 0b00000000000000000000000000100001 = .ok .hufBuild ∧
    decode 0b00000000000000000000000000100010 = .ok .hufCodes ∧
    decode 0b00000000000000000000000000100011 = .ok .hufEnc ∧
    decode 0b00000000000000000000000000101111 = .ok .hufAll := by decide
theorem test_decode_arith : decode 0b00000000000000000000000000110000 = .ok .arcInit ∧
    decode 0b00000000000000000000000000110001 = .ok .arcStep ∧
    decode 0b00000000000000000000000000110010 = .ok .arcRun ∧
    decode 0b00000000000000000000000000110011 = .ok .arcFinal ∧
    decode 0b00000000000000000000000000111111 = .ok .arcAll := by decide
/-- V13, V14, V15. -/
theorem test_decode_illegal : decode 0x00000110 = .error .reservedBits ∧ decode 0x00000123 = .error .reservedBits ∧
    decode 0x00000099 = .error .unassignedOpcode ∧ decode 0x0000002E = .error .unassignedOpcode ∧
    decode 0x80000000 = .error .reservedBits := by decide
theorem test_decode_table_word : decodeTableWord 32 0x2F = some .hufAll ∧ decodeTableWord 8 0x33 = some .arcFinal ∧
    decodeTableWord 32 0x110 = none := by decide

/-- R6: the derived constraints on the parameters. -/
theorem test_parameter_constraints : 7 * Config.maxLen - 2 ≤ Config.outBytes ∧ 8 * Config.maxLen ≤ Config.hbufBits ∧
    2 * Config.nSym - 1 ≤ Config.nodeMax ∧ Config.maxLen ≤ 0xFFFF := by decide

/-! ## The bus (V1 to V9, V16, V17) -/

/-- V1. -/
theorem test_id_param : (busRead 0x000 4 State.reset).1 = .data 0x54564431 ∧
    (busRead 0x004 4 State.reset).1 = .data 0x41200100 := by decide
/-- V3, V4, V5: a read-only write, `CTRL` and `IN_LEN`. -/
theorem test_register_writes : busWrite 0x000 4 0x12345678 State.reset = (.ack, State.reset) ∧
    (busRead 0x008 4 (busWrite 0x008 4 0xFFFFFFFF State.reset).2).1 = .data 1 ∧
    (busRead 0x014 4 (busWrite 0x014 4 0xABCD1234 State.reset).2).1 = .data 0x1234 :=
  ⟨rfl, by decide, by decide⟩
/-- V7, V8. -/
theorem test_bus_errors : (busRead 0x1100 4 State.reset).1 = .fault .busError ∧
    (busRead 0x7FFC 4 State.reset).1 = .fault .busError ∧ (busRead 0x0002 4 State.reset).1 = .fault .busError ∧
    (busWrite 0x1001 4 1 State.reset).1 = .fault .busError := by decide
/-- V9. -/
theorem test_inbuf_word : (busRead 0x1000 4 (busWrite 0x1000 4 0x64636261 State.reset).2).1 = .data 0x64636261 ∧
    (busWrite 0x1000 4 0x64636261 State.reset).2.inByte 1 = 0x62 := by decide +kernel
/-- V16, V17. -/
theorem test_busy_write : (busWrite 0x1000 4 0 (pendingFor 2 0x3F State.reset)).2.wob = true ∧
    (busWrite 0x1000 4 0 (pendingFor 2 0x3F State.reset)).2.inbuf = [] ∧
    (busRead 0x00C 4 (pendingFor 2 0x3F State.reset)).1 = .data 1 := by decide +kernel

/-! ## The commands -/

/-- V10. -/
theorem test_nop : (ran .nop { State.reset with ie := true, busy := true }).statusWord = 2 ∧
    (ran .nop { State.reset with ie := true, busy := true }).irq = true := by decide
/-- V13. -/
theorem test_illegal : (match step (State.reset.withFetchWord 32 0x99) with
    | .next t => t.statusWord == 0x12 && t.cmd == 0x99
    | _ => false) = true := by decide +kernel
/-- V19: the tables are kept. -/
theorem test_sreset : (ranAll [.arcAll, .sreset] (loaded (ascii "ab"))).arcState = .idle ∧
    (ranAll [.arcAll, .sreset] (loaded (ascii "ab"))).arcScale = 0 ∧
    (ranAll [.arcAll, .sreset] (loaded (ascii "ab"))).bankWord .arcFreq 0x5184 = 1 := by decide +kernel
/-- V28. -/
theorem test_rle_mixed : (ran .rleEnc (loaded (ascii "abcdde"))).outLen = 19 ∧
    (ran .rleEnc (loaded (ascii "abcdde"))).bankWord .outbuf 0x1808 = 0x642A3220 := by decide +kernel
/-- V32: the literal cap. -/
theorem test_rle_literal_cap : (rleEncode ((List.range 256).map fun i => if i % 2 = 0 then 0x61 else 0x62)).length = 268 := by
  decide +kernel
/-- V40. -/
theorem test_huf_freq : (ran .hufFreq (loaded (ascii "aaab"))).bankWord .hufFreq 0x584 = 3 ∧
    (ran .hufFreq (loaded (ascii "aaab"))).bankWord .hufFreq 0x588 = 1 := by decide +kernel
/-- V48: a leaf wins a tie against an internal node ("xyzz": node 4 is (z, node 3)). -/
theorem test_huf_tie : (huffmanNodes fun c => if c = 0x78 then 1 else if c = 0x79 then 1 else if c = 0x7A then 2 else 0).drop 3 =
    [⟨false, 0, 2, 0, 1⟩, ⟨false, 0, 4, 2, 3⟩] := by decide +kernel
/-- V45: one distinct symbol gets the code "0". -/
theorem test_huf_single : codeAssignments 1 0 (fun _ => ⟨true, 0x61, 4, 0, 0⟩) = [(0x61, [false])] := by decide
/-- V61. -/
theorem test_arc_init : (ran .arcInit (loaded (ascii "aab"))).bankWord .arcFreq 0x5184 = 2 ∧
    (ran .arcInit (loaded (ascii "aab"))).bankWord .arcCum 0x5588 = 2 := by decide +kernel
/-- V62: the third step. -/
theorem test_arc_step : (ranAll [.arcInit, .arcStep, .arcStep, .arcStep] (loaded (ascii "aab"))).arcLow.toNat = 8 ∧
    (ranAll [.arcInit, .arcStep, .arcStep, .arcStep] (loaded (ascii "aab"))).arcHigh.toNat = 12 := by decide +kernel
/-- V70: the input is read when a step narrows it. -/
theorem test_arc_run :
    (ran .arcRun ((ran .arcInit (loaded (ascii "ab"))).writeInWord 0x1000 0x00006262)).arcLow.toNat = 3 ∧
    (ran .arcRun ((ran .arcInit (loaded (ascii "ab"))).writeInWord 0x1000 0x00006263)).err = .eAlphabet := by
  decide +kernel
/-- V63: too early, and the midpoint. -/
theorem test_arc_final : (ranAll [.arcInit, .arcFinal] (loaded (ascii "aab"))).err = .eSeq ∧
    (ranAll [.arcInit, .arcRun, .arcFinal] (loaded (ascii "aab"))).arcMid.toNat = 20 := by decide +kernel
/-- V65. -/
theorem test_arc_all : (ran .arcAll (loaded (ascii "abc"))).arcMid.toNat = 11 ∧
    (ran .arcAll (loaded (ascii "abc"))).arcScale.toNat = 27 := by decide +kernel

/-- R100: the step of an accepted command is its execution; `ARC_ALL` on the empty input (V60). -/
theorem test_step_runs : (match step (State.reset.withFetchWord 32 0x3F) with
    | .next t => t.arcMid == 1 && t.arcState == .final && t.statusWord == 2
    | _ => false) = true := by decide +kernel

/-! ## Witnesses: for every statement with hypotheses, a state and operands that meet them -/

theorem test_witness_DecodeAndEncodeAgree : Instr.arcAll.wellFormed = true ∧ decode 0x3F = .ok .arcAll := by decide

theorem test_witness_IllegalWordsAreTheReservedAndUnassigned :
    rsvField 0xFFFFFF00 ≠ 0 ∧ (rsvField 0xFF = 0 ∧ opcField 0xFF ∉ assignedOpcodes) ∧
    (rsvField 0x3F = 0 ∧ opcField 0x3F ∈ assignedOpcodes) := by decide

theorem test_witness_StepExecutesThePendingCommand :
    (pendingFor 0 0x2F State.reset).inReset = false ∧ (pendingFor 0 0x2F State.reset).busy = true ∧
    (pendingFor 0 0x2F State.reset).latency = 0 ∧ decode (pendingFor 0 0x2F State.reset).cmd = .ok .hufAll := by decide

theorem test_witness_IllegalCommandReportsIllegal :
    (pendingFor 0 0x110 State.reset).inReset = false ∧ (pendingFor 0 0x110 State.reset).busy = true ∧
    (pendingFor 0 0x110 State.reset).latency = 0 ∧ rsvField (pendingFor 0 0x110 State.reset).cmd ≠ 0 ∧
    opcField (pendingFor 0 0x99 State.reset).cmd ∉ assignedOpcodes ∧ State.reset.wob = false := by decide

theorem test_witness_CommandWriteIsAcceptedOnlyWhenIdle :
    State.reset.busy = false ∧ (pendingFor 1 0x10 State.reset).busy = true := by decide

theorem test_witness_PendingCommandCompletes :
    (pendingFor 3 0x3F State.reset).inReset = false ∧ (pendingFor 3 0x3F State.reset).busy = true ∧
    (pendingFor 3 0x3F State.reset).host[(pendingFor 3 0x3F State.reset).hostPc]? = none ∧
    (let s := withHost (.bnz 0x1100 1 0) (pendingFor 3 0x3F State.reset)
     s.inReset = false ∧ s.busy = true ∧ s.host[s.hostPc]? ≠ none ∧ HostOp.rst true ∉ s.host) := by decide

/-- The control invariant of a small state whose memories list nothing. -/
theorem controlInv_of_empty {s : State} (h1 : ¬(s.busy = true ∧ s.done = true)) (h2 : s.busy = true → s.err = .ok)
    (h3 : s.active = []) (h4 : s.inReset = true → s.busy = false) (hm : ∀ b, s.bank b = []) : s.ControlInv :=
  ⟨h1, h2, h3, h4, fun b => by rw [hm b]; rfl⟩

theorem test_witness_HostCannotDisturbAPendingCommand :
    let s := withHost (.write 0x014 4 7) (pendingFor 1 0x3F State.reset)
    s.ControlInv ∧ s.busy = true ∧ 0 < s.latency ∧ s.host[s.hostPc]? ≠ some (.rst true) :=
  ⟨controlInv_of_empty (by decide) (by decide) rfl (by decide) (by intro b; cases b <;> rfl), rfl, by decide, by decide⟩

theorem test_witness_PrimitiveErrorsArePrecise :
    exec .hufBuild State.reset = .next (ran .hufBuild State.reset) ∧ (ran .hufBuild State.reset).err ≠ .ok := ⟨rfl, by decide⟩

theorem test_witness_EnginesAreIndependent :
    exec .rleEnc State.reset = .next (ran .rleEnc State.reset) ∧ exec .hufFreq State.reset = .next (ran .hufFreq State.reset) ∧
    exec .arcInit State.reset = .next (ran .arcInit State.reset) := ⟨rfl, rfl, rfl⟩

theorem test_witness_NopOnlyCompletes : State.reset.wob = false := rfl

theorem test_witness_RleEncWritesTheEncodedString :
    (loaded (ascii "1112")).inputLength ≤ 256 ∧ ({ State.reset with inLen := 256 } : State).inputLength ≤ 256 := by decide

theorem test_witness_RleEncReportsOnlyLengthErrors :
    256 < ({ State.reset with inLen := 257 } : State).inputLength ∧
    ({ State.reset with inLen := 256 } : State).inputLength ≤ 256 := by decide

theorem test_witness_RleTokensAreTheSegmentation :
    Segmentation [0x61, 0x62, 0x62] [.literal [0x61], .run 2 0x62] := by
  refine Segmentation.literal [0x61] [0x62, 0x62] _ (by decide) (by decide) ?_ (.inr (.inr ⟨0x62, [], rfl⟩)) ?_
  · intro j h1 h2
    have : j = 0 := by simpa using h2
    subst this
    decide
  · exact Segmentation.run 2 0x62 [] _ (by decide) (by decide) .done

/-- The segmentation "a", then a run of two "b", and the digits of 0, of 10 and of 255. -/
theorem test_witness_RleTokensAreSpelledAndJoined :
    Segmentation [0x61, 0x62, 0x62] [.literal [0x61], .run 2 0x62] ∧ (dec 0).head? = some 0x30 ∧
    dec 10 = [0x31, 0x30] ∧ dec 255 = [0x32, 0x35, 0x35] :=
  ⟨test_witness_RleTokensAreTheSegmentation, by decide, by decide, by decide⟩

theorem test_witness_RleOutputFitsTheBuffer :
    1 ≤ [0x61#8].length ∧ (List.replicate 256 0x61#8).length ≤ 256 := by decide +kernel

theorem test_witness_HufFreqTabulatesTheCounts :
    256 < ({ State.reset with inLen := 257 } : State).inputLength ∧ (loaded (ascii "aaab")).inputLength ≤ 256 := by decide

theorem test_witness_HufBuildWritesTheNodeTable :
    State.reset.hufStage = .none ∧ (ran .hufFreq (loaded (ascii "aaab"))).hufStage ≠ .none := by decide +kernel

theorem test_witness_HufBuildMergesTheTwoSmallestKeys :
    (ran .hufFreq (loaded (ascii "aaab"))).hufStage ≠ .none ∧
    (ran .hufFreq (loaded (ascii "aaab"))).hufFreqTotal ≤ 256 :=
  ⟨by decide, (hufFreq_total (s := loaded (ascii "aaab")) (by decide)).trans_le (by decide)⟩

/-- A node table, reached by no run, whose node `i` has the leaf 0 on its left and node `i - 1` on its right: the leaf
stands at depth 40. -/
def chain : State :=
  (State.reset.fill .hufNode ((leafNode 0x61 1 :: (List.range 40).map fun i => (⟨false, 0, 1, 0, BitVec.ofNat 9 i⟩ : Node)).flatMap
    nodeBytes)).clearEngines

theorem test_witness_HufCodesWritesTheCodeTable :
    State.reset.hufStage.toNat < 2 ∧
    (let deep := { chain with hufStage := .tree, hufNLeaf := 2, hufRoot := 40 }
     2 ≤ deep.hufStage.toNat ∧ ∃ code ∈ deep.codesOfTree, 32 < codeLength code) ∧
    (let flat := { chain with hufStage := .tree, hufNLeaf := 2, hufRoot := 1 }
     2 ≤ flat.hufStage.toNat ∧ ∀ code ∈ flat.codesOfTree, codeLength code ≤ 32) := by decide +kernel

/-- Stage 3 with an input of `n` symbols 'a' and a code of `len` bits for 'a'. -/
def coded (n len : Nat) : State :=
  { (loaded (List.replicate n 0x61)).fill .hufClen (numberBytes (List.replicate 256 len)) with hufStage := .codes }

theorem test_witness_HufEncWritesTheBitstring :
    3 ≤ (coded 2 32).hufStage.toNat ∧ (coded 2 32).inputLength ≤ 256 ∧
    (∀ c ∈ (coded 2 32).input, (coded 2 32).hufClenAt c.toNat ≠ 0) ∧ (coded 2 32).encodedLength ≤ 2048 := by
  decide +kernel

theorem test_witness_HufEncErrorsInOrder :
    State.reset.hufStage.toNat < 3 ∧
    (let s := { State.reset with hufStage := .codes, inLen := 257 }
     3 ≤ s.hufStage.toNat ∧ 256 < s.inputLength) ∧
    (3 ≤ (coded 1 0).hufStage.toNat ∧ (coded 1 0).inputLength ≤ 256 ∧
      ∃ c ∈ (coded 1 0).input, (coded 1 0).hufClenAt c.toNat = 0) ∧
    (3 ≤ (coded 65 32).hufStage.toNat ∧ (coded 65 32).inputLength ≤ 256 ∧
      (∀ c ∈ (coded 65 32).input, (coded 65 32).hufClenAt c.toNat ≠ 0) ∧ 2048 < (coded 65 32).encodedLength) := by
  decide +kernel

theorem test_witness_HufAllSucceedsOnEveryLegalInput :
    256 < ({ State.reset with inLen := 257 } : State).inputLength ∧
    ({ State.reset with inLen := 256 } : State).inputLength ≤ 256 ∧ (loaded (ascii "aaab")).inputLength ≤ 256 := by decide

theorem test_witness_SingleSymbolGetsTheCodeZero :
    1 ≤ (loaded (ascii "aa")).inputLength ∧ (loaded (ascii "aa")).inputLength ≤ 256 ∧
    ∀ d ∈ (loaded (ascii "aa")).input, d = 0x61 := by decide +kernel

theorem test_witness_HuffmanStageTransitions :
    exec .hufFreq State.reset = .next (ran .hufFreq State.reset) ∧
    ((pendingFor 0 0x99 State.reset).completionDue = true ∧ wordWellFormed (pendingFor 0 0x99 State.reset).cmd = false ∧
      ∃ t, step (pendingFor 0 0x99 State.reset) = .next t) ∧ true ≠ State.reset.inReset ∧
    false ≠ ({ State.reset with inReset := true } : State).inReset :=
  ⟨rfl, ⟨by decide, by decide, _, rfl⟩, by decide, by decide⟩

theorem test_witness_ArcInitOpensTheUnitInterval :
    256 < ({ State.reset with inLen := 300 } : State).inputLength ∧ (loaded (ascii "aab")).inputLength ≤ 256 := by decide

theorem test_witness_ArcStepNarrowsByOneSymbol :
    State.reset.arcState = .idle ∧
    (let s := (ran .arcInit (loaded (ascii "ab"))).writeInWord 0x1000 0x00006263
     s.arcState ≠ .idle ∧ s.arcPos.toNat < s.arcN.toNat ∧ s.arcFreqAt (s.inByte s.arcPos.toNat).toNat = 0) ∧
    (let s := ran .arcInit (loaded (ascii "ab"))
     s.arcState ≠ .idle ∧ s.arcPos.toNat < s.arcN.toNat ∧ s.arcFreqAt (s.inByte s.arcPos.toNat).toNat ≠ 0 ∧ s.ArithLive) := by
  refine ⟨rfl, ?_, ?_⟩
  · decide +kernel
  · refine ⟨?_, ?_, ?_, arcInit_live (by decide)⟩ <;> decide +kernel

theorem test_witness_ArcStepNarrowsMonotonically :
    let s := ran .arcInit (loaded (ascii "ab"))
    s.ArithLive ∧ exec .arcStep s = .next (ran .arcStep s) ∧ (ran .arcStep s).err = .ok :=
  ⟨arcInit_live (by decide), rfl, by decide +kernel⟩

theorem test_witness_ArcRunIsRepeatedSteps :
    State.reset.arcState = .idle ∧
    (let s := (ran .arcInit (loaded (ascii "ab"))).writeInWord 0x1000 0x00006361
     s.arcState ≠ .idle ∧ s.arcPos.toNat ≤ 1 ∧ 1 < s.arcN.toNat ∧ s.arcFreqAt (s.inByte 1).toNat = 0) ∧
    (let s := ran .arcInit State.reset
     s.arcState ≠ .idle ∧ s.arcN.toNat ≤ s.arcPos.toNat) ∧
    (let s := ran .arcInit (loaded (ascii "ab"))
     s.arcState ≠ .idle ∧ (∀ i, s.arcPos.toNat ≤ i → i < s.arcN.toNat → s.arcFreqAt (s.inByte i).toNat ≠ 0) ∧
       s.arcPos.toNat < s.arcN.toNat) := by
  refine ⟨rfl, by decide +kernel, by decide +kernel, by decide +kernel, ?_, by decide +kernel⟩
  intro i _ hi
  exact (by decide +kernel : ∀ j, j < 2 → (ran .arcInit (loaded (ascii "ab"))).arcFreqAt
    ((ran .arcInit (loaded (ascii "ab"))).inByte j).toNat ≠ 0) i hi

theorem test_witness_ArcRunNarrowsByEverySymbolLeft :
    let s := ran .arcInit (loaded (ascii "ab"))
    s.arcState ≠ .idle ∧ s.ArithLive ∧ ∀ c ∈ s.remaining, s.arcFreqAt c.toNat ≠ 0 := by
  refine ⟨by decide +kernel, arcInit_live (by decide), by decide +kernel⟩

theorem test_witness_ArcFinalWritesTheMidpoint :
    State.reset.arcState = .idle ∧
    (let s := ran .arcInit State.reset
     s.arcState ≠ .idle ∧ s.arcPos = s.arcN ∧ s.ArithLive ∧ s.arcN = 0) ∧
    (let s := ranAll [.arcInit, .arcFinal] State.reset
     s.ArithLive ∧ s.arcState = .final) :=
  ⟨rfl, ⟨by decide +kernel, by decide +kernel, arcInit_live (by decide), by decide +kernel⟩,
    arcFinal_live (arcInit_live (s := State.reset) (by decide)), by decide +kernel⟩

theorem test_witness_ArcAllEncodesTheInput :
    256 < ({ State.reset with inLen := 257 } : State).inputLength ∧
    ({ State.reset with inLen := 256 } : State).inputLength ≤ 256 ∧ (loaded (ascii "aab")).inputLength ≤ 256 := by decide

theorem test_witness_EmptyInputGivesTheNeutralInterval : State.reset.inLen = 0 := rfl

theorem test_witness_SingleSymbolKeepsTheUnitInterval :
    1 ≤ (loaded (ascii "aa")).inputLength ∧ (loaded (ascii "aa")).inputLength ≤ 256 ∧
    ∀ d ∈ (loaded (ascii "aa")).input, d = 0x61 := by decide +kernel

/-- The first and the last offset of every unmapped range, and the offsets beside them. -/
theorem test_witness_BusErrorsAreExactlyTheIllegalAccesses :
    [0x1100, 0x17FC, 0x2100, 0x3FFC, 0x5800, 0x5FFC, 0x6800, 0x7FFC, 0x8000].all (fun off => locate off == none) = true ∧
    [0x000, 0x038, 0x03C, 0x3FC, 0x400, 0x10FC, 0x1800, 0x20FC, 0x4000, 0x57FC, 0x6000, 0x67FC].all
      (fun off => off % 4 == 0 && locate off != none) = true := by decide +kernel

theorem test_witness_HostStepPerformsItsNextOperation :
    State.reset.inReset = false ∧ State.reset.completionDue = false ∧ State.reset.host[State.reset.hostPc]? = none ∧
    (let s := withHost (.write 0x014 4 7) State.reset
     s.inReset = false ∧ s.completionDue = false ∧ s.host[s.hostPc]? = some (.write 0x014 4 7)) ∧
    (let s := withHost (.write 0x1100 4 7) State.reset
     s.host[s.hostPc]? = some (.write 0x1100 4 7) ∧ (busWrite 0x1100 4 7 State.reset).1 = .fault .busError) ∧
    (let s := withHost (.read 0x0002 4) State.reset
     s.inReset = false ∧ s.completionDue = false ∧ s.host[s.hostPc]? = some (.read 0x0002 4) ∧
       (busRead 0x0002 4 State.reset).1 = .fault .busError) ∧
    (let s := withHost (.bnz 0x00C 0x1 0) (pendingFor 2 0x3F State.reset)
     s.inReset = false ∧ s.completionDue = false ∧ s.host[s.hostPc]? = some (.bnz 0x00C 0x1 0) ∧
       (busRead 0x00C 4 { s with latency := s.latency - 1 }).1 = .data 1) ∧
    (let s := withHost (.bnz 0x1100 0x1 0) (pendingFor 2 0x3F State.reset)
     s.inReset = false ∧ s.completionDue = false ∧ s.host[s.hostPc]? = some (.bnz 0x1100 0x1 0) ∧
       (busRead 0x1100 4 { s with latency := s.latency - 1 }).1 = .fault .busError) := by decide

/-- R66, R218: a branch answered with a bus error leaves the pending command, and the machine goes on. -/
theorem test_branch_bus_error_goes_on :
    ∃ t, step (withHost (.bnz 0x1100 1 0) (pendingFor 2 0x3F State.reset)) = .next t ∧ t.busy = true ∧ t.cmd = 0x3F ∧
      t.latency = 1 ∧ t.responses = [.fault .busError] := ⟨_, rfl, rfl, rfl, rfl, rfl⟩

/-- The way a step stops. -/
theorem test_witness_StepStopsOnlyAtAForbiddenHostAccess :
    step (withHost (.read 0x00C 4) { State.reset with inReset := true }) = .fault .accessInReset := rfl

theorem test_witness_ReadOnlyLocationsIgnoreWrites :
    (0x004 % 4 = 0 ∧ 0x004 < 8) ∧ (0x018 % 4 = 0 ∧ 0xFFC % 4 = 0 ∧ 0x018 ≤ 0xFFC ∧ 0xFFC < 0x1000) ∧
    (0x20FC % 4 = 0 ∧ 0x1800 ≤ 0x20FC ∧ 0x20FC < 0x2100) ∧ (0x57FC % 4 = 0 ∧ 0x4000 ≤ 0x57FC ∧ 0x57FC < 0x5800) ∧
    (0x67FC % 4 = 0 ∧ 0x6000 ≤ 0x67FC ∧ 0x67FC < 0x6800) := by decide

theorem test_witness_ReadsOfResultsWhileBusyAreFreeDraws :
    (pendingFor 2 0x3F State.reset).busy = true ∧ (0x038 % 4 = 0 ∧ 0x018 ≤ 0x038 ∧ 0x038 < 0x03C) ∧
    State.reset.busy = false ∧ 255 < 256 ∧ 511 < 512 ∧ (0x3FC % 4 = 0 ∧ 0x03C ≤ 0x3FC ∧ 0x3FC < 0x400) ∧
    (0x10FC % 4 = 0 ∧ 0x1000 ≤ 0x10FC ∧ 0x10FC < 0x1100) := by decide

theorem test_witness_WritesWhileBusyOnlySetWob :
    (pendingFor 2 0x3F State.reset).busy = true ∧ (0x67FC % 4 = 0 ∧ 0x6000 ≤ 0x67FC ∧ 0x67FC < 0x6800) ∧ 0x10FC % 4 = 0 ∧ 0x1000 ≤ 0x10FC ∧ 0x10FC < 0x1100 := by decide

theorem test_witness_InLenHoldsTheLowHalf : State.reset.busy = false := rfl

theorem test_witness_InbufWordWriteStoresFourBytes : State.reset.busy = false ∧ 63 < 64 ∧ 511 < 512 := by decide

theorem test_witness_BitstringOrderInBusWords : State.reset.busy = false ∧ 2047 < 2048 := by decide

theorem test_witness_WideWindowRebuildsTheNumber : State.reset.busy = false ∧
    (0x6600, State.reset.arcMid) ∈ [(0x6000, State.reset.arcLow), (0x6200, State.reset.arcHigh), (0x6400, State.reset.arcScale),
      (0x6600, State.reset.arcMid)] := ⟨rfl, by simp⟩

theorem test_witness_HardwareResetAbandonsAndRedraws :
    (let s := withHost (.rst true) (pendingFor 1 0x3F State.reset)
     s.completionDue = false ∧ s.host[s.hostPc]? = some (.rst true) ∧ true ≠ s.inReset) ∧
    (let s := withHost (.rst false) { State.reset with inReset := true }
     s.completionDue = false ∧ s.host[s.hostPc]? = some (.rst false) ∧ false ≠ s.inReset) ∧
    (let s := withHost (.rst false) (pendingFor 1 0x3F State.reset)
     s.completionDue = false ∧ s.host[s.hostPc]? = some (.rst false) ∧ false = s.inReset) := by decide

/-- Log entry 19: the level that `RST` already has drops neither `WOB` nor a pending command. -/
theorem test_repeated_rst_level : ({ State.reset with wob := true } : State).setRst false = { State.reset with wob := true } :=
  rfl

theorem test_witness_InvariantsHoldAtReset : true ≠ State.reset.inReset ∧
    false ≠ ({ State.reset with inReset := true } : State).inReset := by decide

/-- A pending `HUF_FREQ` completes: a step of the machine from a state of the control invariant. -/
theorem test_witness_StepKeepsControlInv :
    (pendingFor 0 0x20 State.reset).ControlInv ∧ ∃ t, step (pendingFor 0 0x20 State.reset) = .next t ∧ t.hufStage = .freq :=
  ⟨controlInv_of_empty (by decide) (by decide) rfl (by decide) (by intro b; cases b <;> rfl), _, rfl, by decide +kernel⟩

theorem test_witness_StepKeepsRangeInv :
    (pendingFor 0 0x10 State.reset).RangeInv ∧ ∃ t, step (pendingFor 0 0x10 State.reset) = .next t :=
  ⟨by constructor <;> decide, _, rfl⟩

theorem test_witness_StepKeepsArithInv :
    (ran .arcInit (loaded (ascii "ab"))).ArithInv ∧
    (pendingFor 0 0x32 (ran .arcInit (loaded (ascii "ab")))).ArithInv ∧
    ∃ t, step (pendingFor 0 0x32 (ran .arcInit (loaded (ascii "ab")))) = .next t :=
  ⟨fun _ => arcInit_live (by decide),
    fun _ => ArithLive_congr (arcInit_live (s := loaded (ascii "ab")) (by decide)) ⟨rfl, rfl, rfl, rfl, rfl, rfl, rfl⟩ rfl rfl rfl,
    _, rfl⟩

theorem test_witness_StepKeepsHuffmanInv :
    (pendingFor 0 0x20 (loaded (ascii "ab"))).HuffmanInv ∧
    ∃ t, step (pendingFor 0 0x20 (loaded (ascii "ab"))) = .next t ∧ t.hufStage = .freq :=
  ⟨⟨fun h => absurd h (by decide), fun h => absurd h (by decide), fun h => absurd h (by decide)⟩, _, rfl, by decide +kernel⟩

/-! ## The whole Huffman pipeline, evaluated once stage by stage and once as `HUF_ALL`; what follows from it -/

/-- V41, V42, V43 on "aaab": a node of the tree, a code, a length and the bitstring; each stage reports `OK`. -/
theorem test_huf_staged :
    let a := ran .hufFreq (loaded (ascii "aaab"))
    let b := ran .hufBuild a
    let c := ran .hufCodes b
    let d := ran .hufEnc c
    a.err = .ok ∧ b.err = .ok ∧ c.err = .ok ∧
    d.bankWord .hufNode 0x4010 = 0x00000004 ∧ d.bankWord .hufNode 0x4014 = 0x00000001 ∧ d.hufCodeAt 0x61 = 1 ∧
      d.hufClenAt 0x62 = 1 ∧ d.bankWord .hbuf 0x2000 = 0xE0 := by
  decide +kernel

/-- V43 by `HUF_ALL`, with two symbols of different counts. -/
theorem test_huf_all :
    (ran .hufAll (loaded (ascii "aaab"))).err = .ok ∧ (ran .hufAll (loaded (ascii "aaab"))).hufBitLen = 4 ∧
    (ran .hufAll (loaded (ascii "aaab"))).bankWord .hbuf 0x2000 = 0xE0 := by
  decide +kernel

theorem test_witness_CompoundCommandsRunTheirPrimitives :
    (let s := loaded (ascii "aaab")
     let a := ran .hufFreq s
     let b := ran .hufBuild a
     let c := ran .hufCodes b
     exec .hufFreq s = .next a ∧ a.err = .ok ∧ exec .hufBuild a = .next b ∧ b.err = .ok ∧ exec .hufCodes b = .next c ∧
       c.err = .ok ∧ exec .hufEnc c = .next (ran .hufEnc c)) ∧
    (let s := loaded (ascii "ab")
     let a := ran .arcInit s
     let b := ran .arcRun a
     exec .arcInit s = .next a ∧ a.err = .ok ∧ exec .arcRun a = .next b ∧ b.err = .ok ∧
       exec .arcFinal b = .next (ran .arcFinal b)) ∧
    (let s := { State.reset with inLen := 257 }
     exec .hufFreq s = .next (ran .hufFreq s) ∧ (ran .hufFreq s).err ≠ .ok ∧ exec .arcInit s = .next (ran .arcInit s) ∧
       (ran .arcInit s).err ≠ .ok ∧ (runHufFreq s).code ≠ .ok) ∧ (runNop State.reset).code = .ok := by
  refine ⟨⟨rfl, test_huf_staged.1, rfl, test_huf_staged.2.1, rfl, test_huf_staged.2.2.1, rfl⟩,
    ⟨rfl, ?_, rfl, ?_, rfl⟩, ⟨rfl, ?_, rfl, ?_, ?_⟩, ?_⟩ <;> decide +kernel

theorem test_witness_HufAllIsLossless :
    exec .hufAll (loaded (ascii "aaab")) = .next (ran .hufAll (loaded (ascii "aaab"))) ∧
    (ran .hufAll (loaded (ascii "aaab"))).err = .ok := ⟨rfl, test_huf_all.1⟩

theorem test_witness_MoreFrequentSymbolsHaveNoLongerCodes :
    exec .hufAll (loaded (ascii "aaab")) = .next (ran .hufAll (loaded (ascii "aaab"))) ∧
    (ran .hufAll (loaded (ascii "aaab"))).err = .ok ∧
    (loaded (ascii "aaab")).input.count 0x62 < (loaded (ascii "aaab")).input.count 0x61 ∧
    0 < (loaded (ascii "aaab")).input.count 0x62 := ⟨rfl, test_huf_all.1, by decide +kernel, by decide +kernel⟩

theorem test_witness_HufAllDependsOnTheInputOnly :
    let s := loaded (ascii "aaab")
    let s' := { loaded (ascii "aaab") with ie := true, outLen := 5, hufStage := .codes }
    s.inLen = s'.inLen ∧ s.input = s'.input ∧ exec .hufAll s = .next (ran .hufAll s) ∧
    exec .hufAll s' = .next (ran .hufAll s') ∧ (ran .hufAll s).err = .ok := ⟨rfl, rfl, rfl, rfl, test_huf_all.1⟩

end Sys2Proof.Tests
end

section
/-! SUPPORT. The engines are independent of each other (R1, R42 to R46), and the result of `HUF_ALL` is a function of the
input (R16, R153). -/
namespace Sys2Proof.Machine

/-! ## A command writes the memories of its own engine only -/

/-- Overwriting a bank changes no byte outside the bank's window, however many bytes are given. -/
theorem fill_byteAt_outside_bank (b : Bank) (vs : List Byte) (s : State) {a : Nat}
    (h : ¬(b.base ≤ a ∧ a < b.base + b.size)) : (s.fill b vs).byteAt a = s.byteAt a := by
  unfold State.byteAt
  split
  · rename_i d hd
    have hdb : d ≠ b := by
      rintro rfl
      exact h (bankAt_window hd)
    exact fill_bankByte_other hdb vs s a
  · rfl

theorem HuffmanRegistersUnchanged.refl (s : State) : HuffmanRegistersUnchanged s s := by constructor <;> rfl

theorem HuffmanRegistersUnchanged.trans {a b c : State} (h : HuffmanRegistersUnchanged a b)
    (k : HuffmanRegistersUnchanged b c) : HuffmanRegistersUnchanged a c :=
  ⟨k.stage.trans h.stage, k.nLeaf.trans h.nLeaf, k.nNode.trans h.nNode, k.root.trans h.root, k.bitLen.trans h.bitLen,
    k.active.trans h.active⟩

theorem HuffmanRegistersUnchanged.fill (b : Bank) (vs : List Byte) (s : State) :
    HuffmanRegistersUnchanged s (s.fill b vs) := by constructor <;> simp

theorem ArithRegistersUnchanged.refl (s : State) : ArithRegistersUnchanged s s := by constructor <;> rfl

theorem ArithRegistersUnchanged.trans {a b c : State} (h : ArithRegistersUnchanged a b)
    (k : ArithRegistersUnchanged b c) : ArithRegistersUnchanged a c :=
  ⟨k.state.trans h.state, k.n.trans h.n, k.pos.trans h.pos, k.low.trans h.low, k.high.trans h.high,
    k.scale.trans h.scale, k.mid.trans h.mid⟩

theorem ArithRegistersUnchanged.fill (b : Bank) (vs : List Byte) (s : State) :
    ArithRegistersUnchanged s (s.fill b vs) := by constructor <;> simp

/-- The offset lies in the window of a memory of the Huffman engine (R42 to R44). -/
def HuffmanOffset (a : Nat) : Prop :=
  (0x400 ≤ a ∧ a < 0x1000) ∨ (0x2000 ≤ a ∧ a < 0x2100) ∨ (0x4000 ≤ a ∧ a < 0x5000)

/-- What a step of the run-length encoder leaves unchanged of the other engines. -/
structure RleFrame (s t : State) : Prop where
  huffman : HuffmanRegistersUnchanged s t
  arith : ArithRegistersUnchanged s t
  bytes : BytesUnchangedOutside 0x1800 0x2000 s t

/-- What a step of the Huffman engine leaves unchanged of the other engines. -/
structure HuffmanFrame (s t : State) : Prop where
  outLen : t.outLen = s.outLen
  arith : ArithRegistersUnchanged s t
  bytes : ∀ a, ¬HuffmanOffset a → t.byteAt a = s.byteAt a

/-- What a step of the arithmetic coder leaves unchanged of the other engines. -/
structure ArithFrame (s t : State) : Prop where
  outLen : t.outLen = s.outLen
  huffman : HuffmanRegistersUnchanged s t
  bytes : BytesUnchangedOutside 0x5000 0x5800 s t

/-! ### The run-length encoder -/

theorem RleFrame.refl (s : State) : RleFrame s s := ⟨.refl s, .refl s, fun _ _ => rfl⟩

theorem RleFrame.complete {s : State} {r : Result} (h : RleFrame s r.state) : RleFrame s (complete r) :=
  ⟨h.huffman.trans (by constructor <;> rfl), h.arith.trans (by constructor <;> rfl),
    fun a ha => (byteAt_complete r a).trans (h.bytes a ha)⟩

theorem rleFrame_rleEnc (s : State) : RleFrame s (runRleEnc s).state := by
  rcases Nat.lt_or_ge 256 s.inputLength with h | h
  · rw [runRleEnc_long h]; exact .refl s
  · rw [runRleEnc_ok h]
    exact ⟨(HuffmanRegistersUnchanged.fill .outbuf (padTo Config.outBytes (rleEncode s.input)) s).trans
        (by constructor <;> rfl),
      (ArithRegistersUnchanged.fill .outbuf (padTo Config.outBytes (rleEncode s.input)) s).trans
        (by constructor <;> rfl),
      fun a ha => fill_byteAt_outside_bank .outbuf _ s ha⟩

/-! ### The Huffman engine -/

theorem HuffmanFrame.refl (s : State) : HuffmanFrame s s := ⟨rfl, .refl s, fun _ _ => rfl⟩

theorem HuffmanFrame.trans {a b c : State} (h : HuffmanFrame a b) (k : HuffmanFrame b c) : HuffmanFrame a c :=
  ⟨k.outLen.trans h.outLen, h.arith.trans k.arith, fun x hx => (k.bytes x hx).trans (h.bytes x hx)⟩

theorem HuffmanFrame.complete {s : State} {r : Result} (h : HuffmanFrame s r.state) : HuffmanFrame s (complete r) :=
  h.trans ⟨rfl, by constructor <;> rfl, fun a _ => byteAt_complete r a⟩

/-- The window of a memory of the Huffman engine (R61). -/
theorem huffmanOffset_of_window {b : Bank} (hb : b ∈ [Bank.hufFreq, .hufCode, .hufClen, .hbuf, .hufNode]) {a : Nat}
    (h : b.base ≤ a ∧ a < b.base + b.size) : HuffmanOffset a := by
  unfold HuffmanOffset
  simp only [List.mem_cons, List.not_mem_nil, or_false] at hb
  rcases hb with rfl | rfl | rfl | rfl | rfl <;> simp only [Bank.base, Bank.size] at h <;> omega

/-- Overwriting a memory of the Huffman engine is in its frame. -/
theorem HuffmanFrame.fill {b : Bank} (hb : b ∈ [Bank.hufFreq, .hufCode, .hufClen, .hbuf, .hufNode]) (vs : List Byte)
    (s : State) : HuffmanFrame s (s.fill b vs) :=
  ⟨fill_outLen b vs s, .fill b vs s, fun _ ha => fill_byteAt_outside_bank b vs s fun h => ha (huffmanOffset_of_window hb h)⟩

theorem huffmanFrame_hufFreq (s : State) : HuffmanFrame s (runHufFreq s).state := by
  rcases Nat.lt_or_ge 256 s.inputLength with h | h
  · rw [runHufFreq_long h]; exact .refl s
  · rw [runHufFreq_ok h]
    exact (HuffmanFrame.fill (b := .hufFreq) (by decide) (numberBytes (symbolCounts s.input)) s).trans
      ⟨rfl, by constructor <;> rfl, fun _ _ => rfl⟩

theorem huffmanFrame_hufBuild (s : State) : HuffmanFrame s (runHufBuild s).state := by
  by_cases h : s.hufStage = .none
  · rw [runHufBuild_early h]; exact .refl s
  · rw [runHufBuild_ok h]
    exact (HuffmanFrame.fill (b := .hufNode) (by decide) ((huffmanNodes s.hufFreqAt).flatMap nodeBytes) s).trans
      ⟨rfl, by constructor <;> rfl, fun _ _ => rfl⟩

theorem huffmanFrame_hufCodes (s : State) : HuffmanFrame s (runHufCodes s).state := by
  rcases runHufCodes_cases s with ⟨-, h⟩ | ⟨-, -, h⟩ | ⟨-, -, h⟩ <;> rw [h]
  · exact .refl s
  · exact .refl s
  · exact ((HuffmanFrame.fill (b := .hufClen) (by decide) (numberBytes (s.codesOfTree.map codeLength)) s).trans
      (HuffmanFrame.fill (b := .hufCode) (by decide) (numberBytes (s.codesOfTree.map codeWord)) _)).trans
      ⟨rfl, by constructor <;> rfl, fun _ _ => rfl⟩

theorem huffmanFrame_hufEnc (s : State) : HuffmanFrame s (runHufEnc s).state := by
  rcases runHufEnc_cases s with ⟨-, h⟩ | ⟨-, -, h⟩ | ⟨-, -, -, h⟩ | ⟨-, -, -, -, h⟩ | ⟨-, -, -, -, h⟩ <;> rw [h]
  · exact .refl s
  · exact .refl s
  · exact .refl s
  · exact .refl s
  · exact (HuffmanFrame.fill (b := .hbuf) (by decide) (packBits Config.hbufBytes s.encodedBits) s).trans
      ⟨rfl, by constructor <;> rfl, fun _ _ => rfl⟩

theorem huffmanFrame_hufAll (s : State) : HuffmanFrame s (runHufAll s).state :=
  hufAll_induct (.refl s) (fun u h => h.trans (huffmanFrame_hufFreq u)) (fun u h => h.trans (huffmanFrame_hufBuild u))
    (fun u h => h.trans (huffmanFrame_hufCodes u)) (fun u h => h.trans (huffmanFrame_hufEnc u))

/-! ### The arithmetic coder -/

theorem ArithFrame.refl (s : State) : ArithFrame s s := ⟨rfl, .refl s, fun _ _ => rfl⟩

theorem ArithFrame.trans {a b c : State} (h : ArithFrame a b) (k : ArithFrame b c) : ArithFrame a c :=
  ⟨k.outLen.trans h.outLen, h.huffman.trans k.huffman, fun x hx => (k.bytes x hx).trans (h.bytes x hx)⟩

theorem ArithFrame.complete {s : State} {r : Result} (h : ArithFrame s r.state) : ArithFrame s (complete r) :=
  h.trans ⟨rfl, by constructor <;> rfl, fun a _ => byteAt_complete r a⟩

/-- Overwriting a table of the arithmetic coder is in its frame. -/
theorem ArithFrame.fill {b : Bank} (hb : b = .arcFreq ∨ b = .arcCum) (vs : List Byte) (s : State) :
    ArithFrame s (s.fill b vs) := by
  refine ⟨fill_outLen b vs s, .fill b vs s, fun a ha => fill_byteAt_outside_bank b vs s ?_⟩
  rcases hb with rfl | rfl <;> simp only [Bank.base, Bank.size] <;> omega

theorem arithFrame_arcInit (s : State) : ArithFrame s (runArcInit s).state := by
  rcases Nat.lt_or_ge 256 s.inputLength with h | h
  · rw [runArcInit_long h]; exact .refl s
  · rw [runArcInit_ok h]
    exact ((ArithFrame.fill (.inl rfl) (numberBytes (symbolCounts s.input)) s).trans
      (ArithFrame.fill (.inr rfl) (numberBytes (prefixSums 0 (symbolCounts s.input))) _)).trans
      ⟨rfl, by constructor <;> rfl, fun _ _ => rfl⟩

/-- Narrowing writes four registers of the arithmetic coder and no memory. -/
theorem arithFrame_foldl_narrow (cs : List Byte) (s : State) : ArithFrame s (cs.foldl State.narrow s) := by
  rw [foldl_narrow_frame]
  exact ⟨rfl, by constructor <;> rfl, fun _ _ => rfl⟩

theorem arithFrame_arcStep (s : State) : ArithFrame s (runArcStep s).state := by
  rcases runArcStep_cases s with ⟨-, h⟩ | ⟨-, -, ⟨-, h⟩ | ⟨-, h⟩⟩ <;> rw [h]
  · exact .refl s
  · exact .refl s
  · exact arithFrame_foldl_narrow [s.inByte s.arcPos.toNat] s

theorem arithFrame_arcRun (s : State) : ArithFrame s (runArcRun s).state := by
  rcases runArcRun_cases s with ⟨-, h⟩ | ⟨-, -, h⟩ | ⟨-, -, h⟩ <;> rw [h]
  · exact .refl s
  · exact .refl s
  · exact arithFrame_foldl_narrow s.remaining s

theorem arithFrame_arcFinal (s : State) : ArithFrame s (runArcFinal s).state := by
  rcases runArcFinal_cases s with ⟨-, h⟩ | ⟨-, -, h⟩ <;> rw [h]
  · exact .refl s
  · exact ⟨rfl, by constructor <;> rfl, fun _ _ => rfl⟩

theorem arithFrame_arcAll (s : State) : ArithFrame s (runArcAll s).state :=
  arcAll_induct (.refl s) (fun u h => h.trans (arithFrame_arcInit u)) (fun u h => h.trans (arithFrame_arcRun u))
    (fun u h => h.trans (arithFrame_arcFinal u))

/-! ### The frames by command -/

theorem rleFrame_exec {i : Instr} {s t : State} (hi : i ∈ [Instr.nop, .rleEnc]) (h : exec i s = .next t) :
    RleFrame s t := by
  obtain rfl := exec_next_iff.1 h
  refine RleFrame.complete ?_
  simp only [List.mem_cons, List.not_mem_nil, or_false] at hi
  rcases hi with rfl | rfl
  · exact .refl s
  · exact rleFrame_rleEnc s

theorem huffmanFrame_exec {i : Instr} {s t : State} (hi : i ∈ [Instr.hufFreq, .hufBuild, .hufCodes, .hufEnc, .hufAll])
    (h : exec i s = .next t) : HuffmanFrame s t := by
  obtain rfl := exec_next_iff.1 h
  refine HuffmanFrame.complete ?_
  simp only [List.mem_cons, List.not_mem_nil, or_false] at hi
  rcases hi with rfl | rfl | rfl | rfl | rfl
  · exact huffmanFrame_hufFreq s
  · exact huffmanFrame_hufBuild s
  · exact huffmanFrame_hufCodes s
  · exact huffmanFrame_hufEnc s
  · exact huffmanFrame_hufAll s

theorem arithFrame_exec {i : Instr} {s t : State} (hi : i ∈ [Instr.arcInit, .arcStep, .arcRun, .arcFinal, .arcAll])
    (h : exec i s = .next t) : ArithFrame s t := by
  obtain rfl := exec_next_iff.1 h
  refine ArithFrame.complete ?_
  simp only [List.mem_cons, List.not_mem_nil, or_false] at hi
  rcases hi with rfl | rfl | rfl | rfl | rfl
  · exact arithFrame_arcInit s
  · exact arithFrame_arcStep s
  · exact arithFrame_arcRun s
  · exact arithFrame_arcFinal s
  · exact arithFrame_arcAll s

/-- Settles O13: each primitive keeps its engine's frame, and a compound keeps what its primitives keep. -/
theorem enginesAreIndependent : Obligations.EnginesAreIndependent := by
  refine ⟨fun i s t hi h => ?_, fun i s t hi h => ?_, fun i s t hi h => ?_⟩
  · obtain ⟨hhuf, harc, hbytes⟩ := rleFrame_exec hi h
    exact ⟨hhuf, harc, hbytes⟩
  · obtain ⟨hout, harc, hbytes⟩ := huffmanFrame_exec hi h
    exact ⟨hout, harc, fun a h1 h2 h3 => hbytes a (by rintro (k | k | k); exacts [h1 k, h2 k, h3 k])⟩
  · obtain ⟨hout, hhuf, hbytes⟩ := arithFrame_exec hi h
    exact ⟨hout, hhuf, hbytes⟩

/-! ## The result of `HUF_ALL` is a function of the input -/

/-! ### A bank written as a whole keeps nothing of what it held -/

/-- Outside its window a bank stores no byte and reads 0. -/
theorem bankByte_outside {b : Bank} {a : Nat} (h : ¬(b.base ≤ a ∧ a < b.base + b.size)) (s : State) :
    s.bankByte b a = 0 := by
  have hm : byteMask b a = 0 := by unfold byteMask; exact if_neg h
  unfold State.bankByte
  exact if_pos hm

/-- The bytes of a bank after it was overwritten as a whole depend on the bytes given only. -/
theorem fill_bankByte_whole {b : Bank} {vs : List Byte} (h : b.size ≤ vs.length) (s s' : State) (a : Nat) :
    (s.fill b vs).bankByte b a = (s'.fill b vs).bankByte b a := by
  by_cases ha : b.base ≤ a ∧ a < b.base + b.size
  · rw [fill_bankByte_self, fill_bankByte_self, if_pos (by omega), if_pos (by omega)]
  · rw [bankByte_outside ha, bankByte_outside ha]

theorem fill_bankWord_whole {b : Bank} {vs : List Byte} (h : b.size ≤ vs.length) (s s' : State) (a : Nat) :
    (s.fill b vs).bankWord b a = (s'.fill b vs).bankWord b a := by
  unfold State.bankWord
  simp only [fill_bankByte_whole h s s']

theorem fill_hufFreqAt_whole {vs : List Byte} (h : Bank.size .hufFreq ≤ vs.length) (s s' : State) :
    (s.fill .hufFreq vs).hufFreqAt = (s'.fill .hufFreq vs).hufFreqAt := by
  funext c
  unfold State.hufFreqAt
  rw [fill_bankWord_whole h s s']

theorem fill_hufCodeAt_whole {vs : List Byte} (h : Bank.size .hufCode ≤ vs.length) (s s' : State) :
    (s.fill .hufCode vs).hufCodeAt = (s'.fill .hufCode vs).hufCodeAt := by
  funext c
  exact fill_bankWord_whole h s s' _

theorem fill_hufClenAt_whole {vs : List Byte} (h : Bank.size .hufClen ≤ vs.length) (s s' : State) :
    (s.fill .hufClen vs).hufClenAt = (s'.fill .hufClen vs).hufClenAt := by
  funext c
  unfold State.hufClenAt
  rw [fill_bankWord_whole h s s']

theorem fill_hbufByte_whole {vs : List Byte} (h : Bank.size .hbuf ≤ vs.length) (s s' : State) :
    (s.fill .hbuf vs).hbufByte = (s'.fill .hbuf vs).hbufByte := by
  funext b
  exact fill_bankByte_whole h s s' _

/-! ### The codes depend on the nodes of the tree only -/

/-- The codes assigned below a node of a tree depend on the nodes of the tree only (R147). -/
theorem assignCodes_congr {L : Nat} {node node' : Nat → Node} (t : IsTree L node)
    (heq : ∀ j, j < 2 * L - 1 → node' j = node j) (fuel : Nat) {i : Nat} (hi : i < 2 * L - 1) (p : List Bool) :
    assignCodes node' fuel i p = assignCodes node fuel i p := by
  induction fuel generalizing i p with
  | zero => rfl
  | succ fuel ih =>
    unfold assignCodes
    rw [heq i hi]
    by_cases hl : i < L
    · rw [if_pos (t.leaf i hl), if_pos (t.leaf i hl)]
    · obtain ⟨-, hchild⟩ := t.inner i (by omega) hi
      have hleft : (node i).left.toNat < 2 * L - 1 := (hchild false).trans hi
      have hright : (node i).right.toNat < 2 * L - 1 := (hchild true).trans hi
      rw [ih hleft, ih hright]

theorem codeAssignments_congr {L : Nat} {node node' : Nat → Node} (t : IsTree L node)
    (heq : ∀ j, j < 2 * L - 1 → node' j = node j) :
    codeAssignments L (2 * L - 2) node' = codeAssignments L (2 * L - 2) node := by
  unfold codeAssignments
  split
  · rfl
  · rename_i h0
    split
    · rw [heq 0 (by omega)]
    · exact assignCodes_congr t heq _ (by omega) []

/-! ### Runs side by side -/

/-- Two results with the same code, whose states are related by `R` when the code is `OK`. -/
def SameResult (R : State → State → Prop) (r r' : Result) : Prop := r.code = r'.code ∧ (r.code = .ok → R r.state r'.state)

theorem SameResult.fail (R : State → State → Prop) {e : ErrCode} (he : e ≠ .ok) (s s' : State) :
    SameResult R (fail e s) (fail e s') := ⟨rfl, fun h => absurd h he⟩

theorem SameResult.succeed {R : State → State → Prop} {s s' : State} (h : R s s') :
    SameResult R (succeed s) (succeed s') := ⟨rfl, fun _ => h⟩

/-- Compounds go side by side when their first primitives do and their rests do from there on (R118). -/
theorem SameResult.compound_cons {Q R : State → State → Prop} {p : State → Result} {ps : List (State → Result)}
    {s s' : State} (hp : SameResult Q (p s) (p s'))
    (hps : ∀ u u', Q u u' → SameResult R (compound ps u) (compound ps u')) :
    SameResult R (compound (p :: ps) s) (compound (p :: ps) s') := by
  obtain ⟨hcode, hstate⟩ := hp
  rw [Machine.compound_cons, Machine.compound_cons, ← hcode]
  by_cases hok : (p s).code = .ok
  · rw [if_pos hok, if_pos hok]
    exact hps _ _ (hstate hok)
  · rw [if_neg hok, if_neg hok]
    exact ⟨hcode, fun h => absurd h hok⟩

/-- The same input (R10). -/
structure SameInput (s s' : State) : Prop where
  inLen : s.inLen = s'.inLen
  input : s.input = s'.input

/-- The same Huffman registers (R33 to R37). -/
structure SameHuffmanRegisters (s s' : State) : Prop where
  stage : s.hufStage = s'.hufStage
  nLeaf : s.hufNLeaf = s'.hufNLeaf
  nNode : s.hufNNode = s'.hufNNode
  root : s.hufRoot = s'.hufRoot
  bitLen : s.hufBitLen = s'.hufBitLen

/-- What two runs of `HUF_ALL` on the same input agree on after `HUF_FREQ`. -/
structure SameCounts (s s' : State) : Prop extends SameInput s s', SameHuffmanRegisters s s' where
  freq : s.hufFreqAt = s'.hufFreqAt

/-- What they agree on after `HUF_BUILD`: the valid node entries too, and so the codes of the tree. -/
structure SameTree (s s' : State) : Prop extends SameCounts s s' where
  node : ∀ i, i < s.hufNNode.toNat → s.hufNodeAt i = s'.hufNodeAt i
  codes : s.codesOfTree = s'.codesOfTree

/-- What they agree on after `HUF_CODES`: the code tables too. -/
structure SameCodeTables (s s' : State) : Prop extends SameTree s s' where
  code : s.hufCodeAt = s'.hufCodeAt
  clen : s.hufClenAt = s'.hufClenAt

/-- What they agree on after `HUF_ENC`: `HBUF` too. -/
structure SameEncoding (s s' : State) : Prop extends SameCodeTables s s' where
  hbuf : s.hbufByte = s'.hbufByte

/-- Commands do not write the input (R111). -/
theorem SameInput.of_interface {s s' t t' : State} (h : SameInput s s') (k : InterfaceUnchanged s t)
    (k' : InterfaceUnchanged s' t') : SameInput t t' :=
  ⟨k.inLen.trans (h.inLen.trans k'.inLen.symm),
    (input_congr k.inLen k.inbuf k.resets).trans (h.input.trans (input_congr k'.inLen k'.inbuf k'.resets).symm)⟩

theorem SameInput.inputLength {s s' : State} (h : SameInput s s') : s.inputLength = s'.inputLength :=
  congrArg BitVec.toNat h.inLen

theorem sameCounts_hufFreq {s s' : State} (h : SameInput s s') :
    SameResult SameCounts (runHufFreq s) (runHufFreq s') := by
  have hin := h.of_interface (interface_hufFreq s) (interface_hufFreq s')
  have hlen := h.inputLength
  rcases Nat.lt_or_ge 256 s.inputLength with hn | hn
  · rw [runHufFreq_long hn, runHufFreq_long (hlen ▸ hn)]
    exact .fail _ (by decide) s s'
  · rw [runHufFreq_ok hn, runHufFreq_ok (hlen ▸ hn)] at hin ⊢
    rw [← h.input] at hin ⊢
    exact .succeed ⟨hin, ⟨rfl, rfl, rfl, rfl, rfl⟩, fill_hufFreqAt_whole (by simp [Bank.size]) s s'⟩

section Build
variable {s s' : State} (hs : s.hufStage ≠ .none) (hs' : s'.hufStage ≠ .none) (hf : s.hufFreqAt = s'.hufFreqAt)
include hs hs' hf

/-- The valid node entries that `HUF_BUILD` writes depend on the frequency table only (R145). -/
theorem hufNodeAt_hufBuild {i : Nat} (hi : i < 2 * (symbolsOf s.hufFreqAt).length - 1) :
    (runHufBuild s).state.hufNodeAt i = (runHufBuild s').state.hufNodeAt i := by
  obtain ⟨-, -, -, -, -, hnode, -⟩ := runHufBuild_state hs
  obtain ⟨-, -, -, -, -, hnode', -⟩ := runHufBuild_state hs'
  rw [← hf] at hnode'
  have hlt : i < (huffmanNodes s.hufFreqAt).length := by
    rw [length_huffmanNodes, leavesOf_eq, List.length_map]
    exact hi
  rw [hnode i hlt, hnode' i hlt]

/-- The codes of the tree that `HUF_BUILD` makes depend on the frequency table only (R145, R147). -/
theorem codesOfTree_hufBuild : (runHufBuild s).state.codesOfTree = (runHufBuild s').state.codesOfTree := by
  obtain ⟨-, -, hleaf, -, hroot, hnode, -⟩ := runHufBuild_state hs
  obtain ⟨-, -, hleaf', -, hroot', -, -⟩ := runHufBuild_state hs'
  rw [← hf] at hleaf' hroot'
  unfold State.codesOfTree
  rw [hleaf, hroot, hleaf', hroot',
    codeAssignments_congr (node_isTree hnode) fun j hj => (hufNodeAt_hufBuild hs hs' hf hj).symm]

theorem sameHuffmanRegisters_hufBuild : SameHuffmanRegisters (runHufBuild s).state (runHufBuild s').state := by
  rw [runHufBuild_ok hs, runHufBuild_ok hs', ← hf]
  constructor <;> rfl

end Build

theorem sameTree_hufBuild {s s' : State} (h : SameCounts s s') :
    SameResult SameTree (runHufBuild s) (runHufBuild s') := by
  by_cases hs : s.hufStage = .none
  · rw [runHufBuild_early hs, runHufBuild_early (h.stage ▸ hs)]
    exact .fail _ (by decide) s s'
  · have hs' : s'.hufStage ≠ .none := h.stage ▸ hs
    obtain ⟨hok, hfreq, -, hcount, -, -, -⟩ := runHufBuild_state hs
    obtain ⟨hok', hfreq', -, -, -, -, -⟩ := runHufBuild_state hs'
    exact ⟨hok.trans hok'.symm, fun _ => {
      h.toSameInput.of_interface (interface_hufBuild s) (interface_hufBuild s'),
      sameHuffmanRegisters_hufBuild hs hs' h.freq with
      freq := hfreq.trans (h.freq.trans hfreq'.symm)
      node := fun i hi => hufNodeAt_hufBuild hs hs' h.freq (hcount ▸ hi)
      codes := codesOfTree_hufBuild hs hs' h.freq }⟩

/-- What `HUF_CODES` and `HUF_ENC` leave unchanged of what the commands before them wrote. -/
structure TreeKept (s t : State) : Prop where
  interface : InterfaceUnchanged s t
  nLeaf : t.hufNLeaf = s.hufNLeaf
  nNode : t.hufNNode = s.hufNNode
  root : t.hufRoot = s.hufRoot
  freq : t.hufFreq = s.hufFreq
  node : t.hufNode = s.hufNode

theorem SameTree.of_kept {s s' t t' : State} (h : SameTree s s') (k : TreeKept s t) (k' : TreeKept s' t')
    (hstage : t.hufStage = t'.hufStage) (hbits : t.hufBitLen = t'.hufBitLen) : SameTree t t' where
  toSameInput := h.toSameInput.of_interface k.interface k'.interface
  toSameHuffmanRegisters := ⟨hstage, k.nLeaf.trans (h.nLeaf.trans k'.nLeaf.symm),
    k.nNode.trans (h.nNode.trans k'.nNode.symm), k.root.trans (h.root.trans k'.root.symm), hbits⟩
  freq := by
    rw [hufFreqAt_congr k.freq k.interface.resets, hufFreqAt_congr k'.freq k'.interface.resets, h.freq]
  node i hi := by
    rw [hufNodeAt_congr k.node k.interface.resets, hufNodeAt_congr k'.node k'.interface.resets, h.node i (k.nNode ▸ hi)]
  codes := by
    rw [codesOfTree_congr k.node k.interface.resets k.nLeaf k.root,
      codesOfTree_congr k'.node k'.interface.resets k'.nLeaf k'.root, h.codes]

@[simp] theorem fail_code (e : ErrCode) (s : State) : (fail e s).code = e := rfl

@[simp] theorem succeed_code (s : State) : (succeed s).code = .ok := rfl

@[simp] theorem succeed_state (s : State) : (succeed s).state = s := rfl

/-- What a successful `HUF_CODES` leaves in the registers and the code tables (R147). -/
theorem runHufCodes_state {s : State} (hok : (runHufCodes s).code = .ok) : TreeKept s (runHufCodes s).state ∧
    (runHufCodes s).state.hufStage = .codes ∧ (runHufCodes s).state.hufBitLen = 0 ∧
    (runHufCodes s).state.hufCodeAt = (s.fill .hufCode (numberBytes (s.codesOfTree.map codeWord))).hufCodeAt ∧
    (runHufCodes s).state.hufClenAt = (s.fill .hufClen (numberBytes (s.codesOfTree.map codeLength))).hufClenAt := by
  have hinterface := interface_hufCodes s
  rcases runHufCodes_cases s with ⟨-, h⟩ | ⟨-, -, h⟩ | ⟨-, -, h⟩ <;> rw [h] at hok hinterface ⊢
  · cases hok
  · cases hok
  · rw [succeed_state] at hinterface ⊢
    exact ⟨⟨hinterface, rfl, rfl, rfl, rfl, rfl⟩, rfl, rfl, hufCodeAt_congr rfl rfl, hufClenAt_congr rfl rfl⟩

theorem code_hufCodes {s s' : State} (h : SameTree s s') : (runHufCodes s).code = (runHufCodes s').code := by
  unfold runHufCodes
  rw [← h.stage, ← h.codes]
  simp only [apply_ite Result.code, fail_code, succeed_code]

theorem sameCodeTables_hufCodes {s s' : State} (h : SameTree s s') :
    SameResult SameCodeTables (runHufCodes s) (runHufCodes s') := by
  refine ⟨code_hufCodes h, fun hok => ?_⟩
  obtain ⟨hkept, hstage, hbits, hcode, hclen⟩ := runHufCodes_state hok
  obtain ⟨hkept', hstage', hbits', hcode', hclen'⟩ := runHufCodes_state (code_hufCodes h ▸ hok)
  rw [← h.codes] at hcode' hclen'
  exact {
    h.of_kept hkept hkept' (hstage.trans hstage'.symm) (hbits.trans hbits'.symm) with
    code := by rw [hcode, hcode', fill_hufCodeAt_whole (by simp [Bank.size]) s s']
    clen := by rw [hclen, hclen', fill_hufClenAt_whole (by simp [Bank.size]) s s'] }

/-- What a successful `HUF_ENC` leaves in the registers, the code tables and `HBUF` (R149). -/
theorem runHufEnc_state {s : State} (hok : (runHufEnc s).code = .ok) : TreeKept s (runHufEnc s).state ∧
    (runHufEnc s).state.hufStage = .enc ∧ (runHufEnc s).state.hufBitLen = BitVec.ofNat 16 s.encodedLength ∧
    (runHufEnc s).state.hufCodeAt = s.hufCodeAt ∧ (runHufEnc s).state.hufClenAt = s.hufClenAt ∧
    (runHufEnc s).state.hbufByte = (s.fill .hbuf (packBits Config.hbufBytes s.encodedBits)).hbufByte := by
  have hinterface := interface_hufEnc s
  rcases runHufEnc_cases s with ⟨-, h⟩ | ⟨-, -, h⟩ | ⟨-, -, -, h⟩ | ⟨-, -, -, -, h⟩ | ⟨-, -, -, -, h⟩ <;>
    rw [h] at hok hinterface ⊢
  · cases hok
  · cases hok
  · cases hok
  · cases hok
  · exact ⟨⟨hinterface, rfl, rfl, rfl, rfl, rfl⟩, rfl, rfl, hufCodeAt_congr rfl rfl, hufClenAt_congr rfl rfl,
      hbufByte_congr rfl rfl⟩

theorem SameCodeTables.encodedBits {s s' : State} (h : SameCodeTables s s') : s.encodedBits = s'.encodedBits := by
  have hbits : s.codeBits = s'.codeBits := by
    unfold State.codeBits
    rw [h.code, h.clen]
  unfold State.encodedBits
  rw [h.input, hbits]

theorem SameCodeTables.encodedLength {s s' : State} (h : SameCodeTables s s') : s.encodedLength = s'.encodedLength := by
  unfold State.encodedLength
  rw [h.input, h.clen]

theorem code_hufEnc {s s' : State} (h : SameCodeTables s s') : (runHufEnc s).code = (runHufEnc s').code := by
  unfold runHufEnc
  rw [← h.stage, ← h.inputLength, ← h.input, ← h.clen, ← h.encodedLength]
  simp only [apply_ite Result.code, fail_code, succeed_code]

theorem sameEncoding_hufEnc {s s' : State} (h : SameCodeTables s s') :
    SameResult SameEncoding (runHufEnc s) (runHufEnc s') := by
  refine ⟨code_hufEnc h, fun hok => ?_⟩
  obtain ⟨hkept, hstage, hbits, hcode, hclen, hbuf⟩ := runHufEnc_state hok
  obtain ⟨hkept', hstage', hbits', hcode', hclen', hbuf'⟩ := runHufEnc_state (code_hufEnc h ▸ hok)
  rw [← h.encodedLength] at hbits'
  rw [← h.encodedBits] at hbuf'
  exact {
    h.toSameTree.of_kept hkept hkept' (hstage.trans hstage'.symm) (hbits.trans hbits'.symm) with
    code := by rw [hcode, hcode', h.code]
    clen := by rw [hclen, hclen', h.clen]
    hbuf := by rw [hbuf, hbuf', fill_hbufByte_whole (by rw [length_packBits]; decide) s s'] }

/-- Two runs of `HUF_ALL` on the same input report the same code, and agree on all it computes when that is `OK`
(R16, R152). -/
theorem sameEncoding_hufAll {s s' : State} (h : SameInput s s') :
    SameResult SameEncoding (runHufAll s) (runHufAll s') := by
  refine .compound_cons (sameCounts_hufFreq h) fun a a' ha => ?_
  refine .compound_cons (sameTree_hufBuild ha) fun b b' hb => ?_
  refine .compound_cons (sameCodeTables_hufCodes hb) fun c c' hc => ?_
  exact .compound_cons (sameEncoding_hufEnc hc) fun d d' hd => .succeed hd

/-- The completion write changes nothing that two runs agree on (R111). -/
theorem SameEncoding.complete {r r' : Result} (h : SameEncoding r.state r'.state) :
    SameEncoding (complete r) (complete r') where
  __ := h

/-- Settles O32: the primitives of `HUF_ALL`, run side by side from states with the same input, agree after each of them
on what it has written so far and on the code. -/
theorem hufAllDependsOnTheInputOnly : Obligations.HufAllDependsOnTheInputOnly := by
  intro s s' t t' hlen hin ht ht' hok
  obtain rfl := exec_next_iff.1 ht
  obtain rfl := exec_next_iff.1 ht'
  obtain ⟨hcode, hstate⟩ := sameEncoding_hufAll ⟨hlen, hin⟩
  have h := (hstate hok).complete
  exact ⟨hcode.symm.trans hok, h.nLeaf, h.nNode, h.root, h.bitLen,
    fun c _ => ⟨congrFun h.freq c, congrFun h.code c, congrFun h.clen c⟩, h.node, fun b _ => congrFun h.hbuf b⟩

end Sys2Proof.Machine
end

section
/-! SUPPORT. Every step of the machine keeps the invariants of the block (R25, R27, R32 to R49, R233): what a step does to
the engines, said once, and then each invariant by the primitives that write what it speaks of. At the end the registers
`STATUS`, `CTRL` and `IN_LEN` on the bus. -/
namespace Sys2Proof.Machine

/-! ## The engines in a step -/

/-- `t` holds the registers and the memories of the three engines as `s` does (R32 to R46); the interface may differ. -/
structure EnginesUnchanged (s t : State) : Prop where
  outLen : t.outLen = s.outLen
  huffman : HuffmanRegistersUnchanged s t
  arith : ArithRegistersUnchanged s t
  bytes : BytesUnchangedOutside 0x1000 0x1100 s t

theorem EnginesUnchanged.refl (s : State) : EnginesUnchanged s s := ⟨rfl, .refl s, .refl s, fun _ _ => rfl⟩

theorem EnginesUnchanged.trans {a b c : State} (h : EnginesUnchanged a b) (k : EnginesUnchanged b c) :
    EnginesUnchanged a c :=
  ⟨k.outLen.trans h.outLen, h.huffman.trans k.huffman, h.arith.trans k.arith,
    fun x hx => (k.bytes x hx).trans (h.bytes x hx)⟩

theorem enginesUnchanged_complete (r : Result) : EnginesUnchanged r.state (complete r) :=
  ⟨rfl, by constructor <;> rfl, by constructor <;> rfl, fun a _ => byteAt_complete r a⟩

theorem enginesUnchanged_answer (pc : Nat) (r : Response) (s : State) : EnginesUnchanged s (s.answer pc r) :=
  ⟨rfl, by constructor <;> rfl, by constructor <;> rfl, fun _ _ => rfl⟩

theorem enginesUnchanged_tick (s : State) : EnginesUnchanged s s.tick :=
  ⟨rfl, by constructor <;> rfl, by constructor <;> rfl, fun _ _ => rfl⟩

/-- A write to an input word changes the bytes of the input buffer only (R63). -/
theorem writeInWord_byteAt (off : Nat) (v : Word) (s : State) {a : Nat} (ha : ¬(0x1000 ≤ a ∧ a < 0x1100)) :
    (s.writeInWord off v).byteAt a = s.byteAt a := by
  refine byteAt_congr (t := s.writeInWord off v) (s := s) rfl fun b hb => ?_
  cases b with
  | inbuf => exact absurd (bankAt_window hb) ha
  | _ => rfl

/-- No write of the host reaches an engine (R62, R67). -/
theorem enginesUnchanged_writeLoc (v : Word) (s : State) (l : Loc) : EnginesUnchanged s (s.writeLoc v l) := by
  rcases writeLoc_cases v s l with h | h | h | ⟨-, h⟩ | ⟨-, h⟩ | ⟨-, h⟩ | ⟨-, off, -, h⟩ <;> rw [h]
  · exact .refl s
  · exact ⟨rfl, by constructor <;> rfl, by constructor <;> rfl, fun _ _ => rfl⟩
  · exact ⟨rfl, by constructor <;> rfl, by constructor <;> rfl, fun _ _ => rfl⟩
  · exact ⟨rfl, by constructor <;> rfl, by constructor <;> rfl, fun _ _ => rfl⟩
  · exact ⟨rfl, by constructor <;> rfl, by constructor <;> rfl, fun _ _ => rfl⟩
  · exact ⟨rfl, by constructor <;> rfl, by constructor <;> rfl, fun _ _ => rfl⟩
  · exact ⟨rfl, by constructor <;> rfl, by constructor <;> rfl, fun _ ha => writeInWord_byteAt off v s ha⟩

/-- A turn of the host leaves the engines, but for a change of the level of `RST` (R230). -/
theorem hostTurn_engines {s t : State} (h : hostTurn s = .next t) :
    EnginesUnchanged s t ∨ ∃ l, EnginesUnchanged (s.changeRst l) t := by
  rcases hostTurn_cases h with rfl | ⟨l, -, rfl⟩ | ⟨-, -, -, v, l, -, -, rfl⟩ | ⟨-, u, pc, r, hu, rfl⟩
  · exact .inl (.refl _)
  · by_cases hl : l = s.inReset
    · subst hl
      rw [setRst_same]
      exact .inl ⟨rfl, by constructor <;> rfl, by constructor <;> rfl, fun _ _ => rfl⟩
    · rw [setRst_change hl]
      exact .inr ⟨l, rfl, by constructor <;> rfl, by constructor <;> rfl, fun _ _ => rfl⟩
  · exact .inl ((enginesUnchanged_writeLoc v s l).trans (enginesUnchanged_answer _ _ _))
  · have hread : EnginesUnchanged s u := by
      rcases hu with rfl | rfl
      · exact .refl u
      · exact ⟨rfl, by constructor <;> rfl, by constructor <;> rfl, fun _ _ => rfl⟩
    exact .inl (hread.trans (enginesUnchanged_answer _ _ _))

/-- What a step does to the engines: a command runs, or nothing, or a change of the level of `RST` clears them. -/
theorem step_engines {s t : State} (h : step s = .next t) :
    (∃ i, EnginesUnchanged (runOf i s).state t) ∨ EnginesUnchanged s t ∨ ∃ l, EnginesUnchanged (s.tick.changeRst l) t := by
  rcases step_cases h with ⟨-, i, -, rfl⟩ | ⟨-, -, -, rfl⟩ | ⟨-, h⟩
  · exact .inl ⟨i, enginesUnchanged_complete _⟩
  · exact .inr (.inl (enginesUnchanged_complete (runIllegal s)))
  · exact .inr ((hostTurn_engines h).imp_left (enginesUnchanged_tick s).trans)

/-- A property of the engines that every command keeps, and that a change of `RST` establishes, is kept by every step. -/
theorem step_keeps_of_engines {P : State → Prop} (frame : ∀ {s t}, EnginesUnchanged s t → P s → P t)
    (rst : ∀ (l : Bool) (s : State), P (s.changeRst l)) (run : ∀ i s, P s → P (runOf i s).state) {s t : State} (hs : P s)
    (h : step s = .next t) : P t := by
  rcases step_engines h with ⟨i, k⟩ | k | ⟨l, k⟩
  · exact frame k (run i s hs)
  · exact frame k hs
  · exact frame k (rst l _)

/-- A property that every primitive keeps, whatever its code, is kept by every command (R118). -/
theorem runOf_keeps_of_primitives {P : State → Prop}
    (prim : ∀ i, i ≠ .hufAll → i ≠ .arcAll → ∀ s, P s → P (runOf i s).state) (i : Instr) (s : State) (hs : P s) :
    P (runOf i s).state := by
  by_cases hh : i = .hufAll
  · subst hh
    exact hufAll_induct hs (prim .hufFreq (by decide) (by decide)) (prim .hufBuild (by decide) (by decide))
      (prim .hufCodes (by decide) (by decide)) (prim .hufEnc (by decide) (by decide))
  · by_cases ha : i = .arcAll
    · subst ha
      exact arcAll_induct hs (prim .arcInit (by decide) (by decide)) (prim .arcRun (by decide) (by decide))
        (prim .arcFinal (by decide) (by decide))
    · exact prim i hh ha s hs

/-! ## A bank reads the bytes of its window -/

theorem byteAt_of_window {b : Bank} {a : Nat} (h : b.base ≤ a ∧ a < b.base + b.size) (s : State) :
    s.byteAt a = s.bankByte b a := by
  unfold State.byteAt
  rw [bankAt_of_window h]

/-- Two states that show the same bytes in a bank's window read the same words in it. -/
theorem bankWord_of_bytes {b : Bank} {s t : State}
    (h : ∀ a, b.base ≤ a ∧ a < b.base + b.size → t.byteAt a = s.byteAt a) : t.bankWord b = s.bankWord b := by
  have hbyte : ∀ a, t.bankByte b a = s.bankByte b a := by
    intro a
    by_cases ha : b.base ≤ a ∧ a < b.base + b.size
    · rw [← byteAt_of_window ha, ← byteAt_of_window ha, h a ha]
    · rw [bankByte_outside ha, bankByte_outside ha]
  funext a
  unfold State.bankWord
  simp only [hbyte]

/-! ## The arithmetic-coder invariant (R46, R48, R173) -/

/-- R48 speaks of the coder's registers and of the bytes of its two tables. -/
theorem State.ArithInv.of_unchanged {s t : State} (hs : s.ArithInv) (hregs : ArithRegistersUnchanged s t)
    (hbytes : ∀ a, 0x5000 ≤ a → a < 0x5800 → t.byteAt a = s.byteAt a) : t.ArithInv := by
  have hfreq : t.arcFreqAt = s.arcFreqAt := by
    funext c
    unfold State.arcFreqAt
    rw [bankWord_of_bytes (b := .arcFreq) fun a ha => hbytes a ha.1 (by simp only [Bank.base, Bank.size] at ha; omega)]
  have hcum : t.arcCumAt = s.arcCumAt := by
    funext c
    unfold State.arcCumAt
    rw [bankWord_of_bytes (b := .arcCum) fun a ha =>
      hbytes a (by simp only [Bank.base, Bank.size] at ha; omega) (by simp only [Bank.base, Bank.size] at ha; omega)]
  obtain ⟨hstate, hn, hpos, hlow, hhigh, hscale, hmid⟩ := hregs
  intro hlive
  have h := hs (hstate ▸ hlive)
  have hsum : t.arcFreqSum = s.arcFreqSum := by
    funext c
    unfold State.arcFreqSum
    rw [hfreq]
  constructor
  · rw [hn]; exact h.nBound
  · rw [hn, hpos]; exact h.posBound
  · rw [hn, hpos, hscale]; exact h.scale
  · rw [hlow, hhigh]; exact h.lowHigh
  · rw [hhigh, hscale]; exact h.highScale
  · rw [hpos, hlow, hhigh, hfreq]; exact h.width
  · rw [hcum, hsum]; exact h.cumTable
  · rw [hsum, hn]; exact h.freqTotal
  · rw [hstate, hmid]; exact h.midActive
  · rw [hstate, hmid, hlow, hhigh]; exact h.midFinal
  · rw [hstate, hpos, hn]; exact h.posFinal

theorem arithInv_of_complete {r : Result} (h : (complete r).ArithInv) : r.state.ArithInv :=
  h.of_unchanged (by constructor <;> rfl) fun a _ _ => (byteAt_complete r a).symm

/-- A command that keeps R48 while the coder runs and leaves the idle coder as it is keeps the invariant. -/
theorem State.ArithInv.of_live {s : State} {r : Result} (hs : s.ArithInv)
    (hidle : s.arcState = .idle → r.state.arcState = .idle) (hlive : s.ArithLive → (complete r).ArithLive) :
    r.state.ArithInv := by
  by_cases h : s.arcState = .idle
  · exact fun hr => absurd (hidle h) hr
  · exact arithInv_of_complete fun _ => hlive (hs h)

theorem runArcStep_idle {s : State} (h : s.arcState = .idle) : runArcStep s = fail .eSeq s := if_pos h

theorem runArcRun_idle {s : State} (h : s.arcState = .idle) : runArcRun s = fail .eSeq s := if_pos h

theorem runArcFinal_idle {s : State} (h : s.arcState = .idle) : runArcFinal s = fail .eSeq s := if_pos (.inl h)

theorem arithInv_arcInit {s : State} (hs : s.ArithInv) : (runArcInit s).state.ArithInv := by
  rcases Nat.lt_or_ge 256 s.inputLength with h | h
  · rw [runArcInit_long h]
    exact hs
  · exact arithInv_of_complete fun _ => arcInit_live h

theorem State.ArithInv.of_huffmanFrame {s t : State} (hs : s.ArithInv) (h : HuffmanFrame s t) : t.ArithInv :=
  hs.of_unchanged h.arith fun a ha hb => h.bytes a (by unfold HuffmanOffset; omega)

theorem arithInv_primitive (i : Instr) (hh : i ≠ .hufAll) (ha : i ≠ .arcAll) (s : State) (hs : s.ArithInv) :
    (runOf i s).state.ArithInv := by
  cases i with
  | nop => exact hs
  | sreset => exact fun h => absurd rfl h
  | rleEnc =>
    have h := rleFrame_rleEnc s
    exact hs.of_unchanged h.arith fun a _ _ => h.bytes a (by omega)
  | hufFreq => exact hs.of_huffmanFrame (huffmanFrame_hufFreq s)
  | hufBuild => exact hs.of_huffmanFrame (huffmanFrame_hufBuild s)
  | hufCodes => exact hs.of_huffmanFrame (huffmanFrame_hufCodes s)
  | hufEnc => exact hs.of_huffmanFrame (huffmanFrame_hufEnc s)
  | hufAll => exact absurd rfl hh
  | arcInit => exact arithInv_arcInit hs
  | arcStep => exact hs.of_live (fun h => by rw [runOf, runArcStep_idle h]; exact h) arcStep_live
  | arcRun => exact hs.of_live (fun h => by rw [runOf, runArcRun_idle h]; exact h) arcRun_live
  | arcFinal => exact hs.of_live (fun h => by rw [runOf, runArcFinal_idle h]; exact h) arcFinal_live
  | arcAll => exact absurd rfl ha

/-- Settles O59: outside the coder its registers and tables keep their contents; within it `ARC_INIT` establishes R48 and
each narrowing keeps it. -/
theorem stepKeepsArithInv : Obligations.StepKeepsArithInv := by
  intro s t hs h
  refine step_keeps_of_engines (P := State.ArithInv) (fun k hs => ?_) (fun l s hl => absurd rfl hl)
    (runOf_keeps_of_primitives arithInv_primitive) hs h
  exact hs.of_unchanged k.arith fun a _ _ => k.bytes a (by omega)

/-! ## The Huffman invariants (R49, R145) -/

/-- `t` reads the frequency table, the node table and the registers that count the nodes as `s` does. -/
structure TreeReadsUnchanged (s t : State) : Prop where
  nLeaf : t.hufNLeaf = s.hufNLeaf
  nNode : t.hufNNode = s.hufNNode
  root : t.hufRoot = s.hufRoot
  freq : t.hufFreqAt = s.hufFreqAt
  node : t.hufNodeAt = s.hufNodeAt

theorem TreeKept.reads {s t : State} (k : TreeKept s t) : TreeReadsUnchanged s t :=
  ⟨k.nLeaf, k.nNode, k.root, hufFreqAt_congr k.freq k.interface.resets, hufNodeAt_congr k.node k.interface.resets⟩

theorem hufFreqTotal_of_freq {s t : State} (h : t.hufFreqAt = s.hufFreqAt) : t.hufFreqTotal = s.hufFreqTotal := by
  unfold State.hufFreqTotal
  rw [h]

theorem State.TreeValid.of_reads {s t : State} (h : s.TreeValid) (k : TreeReadsUnchanged s t) : t.TreeValid := by
  obtain ⟨hleaf, hcount, hroot, hfreq, hnode⟩ := k
  have hpresent : t.presentSymbols = s.presentSymbols := by
    unfold State.presentSymbols
    rw [hfreq]
  have hchild : t.nodeChild = s.nodeChild := by
    unfold State.nodeChild
    rw [hnode]
  have htotal := hufFreqTotal_of_freq hfreq
  constructor
  · rw [hleaf, hpresent]; exact h.leafCount
  · rw [hcount, hleaf]; exact h.nodeCount
  · rw [hroot, hleaf]; exact h.rootIndex
  · simpa only [hpresent, hnode, hfreq] using h.leaves
  · rw [hleaf, hcount, hnode, hchild]; exact h.internal
  · rw [hroot, hleaf, hcount, hchild]; exact h.oneParent
  · rw [hleaf, hnode, hroot, htotal]; exact h.rootFreq

theorem State.CodesValid.of_reads {s t : State} (h : s.CodesValid) (hfreq : t.hufFreqAt = s.hufFreqAt)
    (hcode : t.hufCodeAt = s.hufCodeAt) (hclen : t.hufClenAt = s.hufClenAt) : t.CodesValid := by
  have hbits : t.codeBits = s.codeBits := by
    unfold State.codeBits
    rw [hclen, hcode]
  constructor
  · rw [hclen, hfreq]; exact h.domain
  · rw [hclen]; exact h.bound
  · rw [hclen, hbits]; exact h.prefixFree

theorem State.HuffmanInv.of_reads {s t : State} (hs : s.HuffmanInv) (hstage : t.hufStage = s.hufStage)
    (k : TreeReadsUnchanged s t) (hcode : t.hufCodeAt = s.hufCodeAt) (hclen : t.hufClenAt = s.hufClenAt) :
    t.HuffmanInv := by
  constructor
  · rw [hstage, hufFreqTotal_of_freq k.freq]; exact hs.total
  · rw [hstage]; exact fun h => (hs.tree h).of_reads k
  · rw [hstage]; exact fun h => (hs.codes h).of_reads k.freq hcode hclen

/-- R49 speaks of the Huffman registers and of the bytes of the Huffman memories. -/
theorem State.HuffmanInv.of_unchanged {s t : State} (hs : s.HuffmanInv) (hregs : HuffmanRegistersUnchanged s t)
    (hbytes : ∀ a, HuffmanOffset a → t.byteAt a = s.byteAt a) : t.HuffmanInv := by
  have hword : ∀ b ∈ [Bank.hufFreq, .hufCode, .hufClen, .hbuf, .hufNode], t.bankWord b = s.bankWord b := fun b hb =>
    bankWord_of_bytes fun a ha => hbytes a (huffmanOffset_of_window hb ha)
  have hfreq : t.hufFreqAt = s.hufFreqAt := by
    unfold State.hufFreqAt
    rw [hword .hufFreq (by decide)]
  have hnode : t.hufNodeAt = s.hufNodeAt := by
    unfold State.hufNodeAt
    rw [hword .hufNode (by decide)]
  have hcode : t.hufCodeAt = s.hufCodeAt := by
    unfold State.hufCodeAt
    rw [hword .hufCode (by decide)]
  have hclen : t.hufClenAt = s.hufClenAt := by
    unfold State.hufClenAt
    rw [hword .hufClen (by decide)]
  exact hs.of_reads hregs.stage ⟨hregs.nLeaf, hregs.nNode, hregs.root, hfreq, hnode⟩ hcode hclen

/-- With no stage done the invariant asks nothing. -/
theorem huffmanInv_of_stage_none {s : State} (h : s.hufStage = .none) : s.HuffmanInv := by
  constructor <;> rw [h] <;> exact fun hc => absurd hc (by decide)

/-- At stage 1 the invariant asks for the total only. -/
theorem huffmanInv_of_stage_freq {s : State} (h : s.hufStage = .freq) (ht : s.hufFreqTotal ≤ 256) : s.HuffmanInv :=
  ⟨fun _ => ht, fun hc => absurd hc (by rw [h]; decide), fun hc => absurd hc (by rw [h]; decide)⟩

theorem huffmanInv_hufFreq {s : State} (hs : s.HuffmanInv) : (runHufFreq s).state.HuffmanInv := by
  rcases Nat.lt_or_ge 256 s.inputLength with h | h
  · rw [runHufFreq_long h]
    exact hs
  · have htotal : (runHufFreq s).state.hufFreqTotal = s.inputLength :=
      (hufFreqTotal_of_freq (s := complete (runHufFreq s)) (hufFreqAt_congr rfl rfl)).trans (hufFreq_total h)
    refine huffmanInv_of_stage_freq ?_ (htotal.trans_le h)
    rw [runHufFreq_ok h]
    rfl

theorem huffmanInv_hufBuild {s : State} (hs : s.HuffmanInv) : (runHufBuild s).state.HuffmanInv := by
  by_cases h : s.hufStage = .none
  · rw [runHufBuild_early h]
    exact hs
  · obtain ⟨-, hfreq, hleaf, hcount, hroot, hnode, hstage⟩ := runHufBuild_state h
    have htotal : (runHufBuild s).state.hufFreqTotal ≤ 256 :=
      (hufFreqTotal_of_freq hfreq).trans_le (hs.total (hufStage_pos h))
    rw [← hfreq] at hleaf hcount hroot hnode
    exact ⟨fun _ => htotal, fun _ => treeValid_of_nodes htotal hleaf hcount hroot hnode,
      fun hc => absurd hc (by rw [hstage]; decide)⟩

theorem huffmanInv_hufCodes {s : State} (hs : s.HuffmanInv) : (runHufCodes s).state.HuffmanInv := by
  rcases runHufCodes_cases s with ⟨-, h⟩ | ⟨-, -, h⟩ | ⟨hstage, hle, h⟩
  · rw [h]
    exact hs
  · rw [h]
    exact hs
  · obtain ⟨hkept, -, -, hcode, hclen⟩ := runHufCodes_state (by rw [h]; rfl)
    have htree := hs.tree hstage
    refine ⟨fun _ => ?_, fun _ => htree.of_reads hkept.reads,
      fun _ => codesValid_of_tables htree hle hclen hcode hkept.reads.freq⟩
    rw [hufFreqTotal_of_freq hkept.reads.freq]
    exact hs.total (by omega)

theorem huffmanInv_hufEnc {s : State} (hs : s.HuffmanInv) : (runHufEnc s).state.HuffmanInv := by
  rcases runHufEnc_cases s with ⟨-, h⟩ | ⟨-, -, h⟩ | ⟨-, -, -, h⟩ | ⟨-, -, -, -, h⟩ | ⟨hstage, -, -, -, h⟩
  · rw [h]; exact hs
  · rw [h]; exact hs
  · rw [h]; exact hs
  · rw [h]; exact hs
  · obtain ⟨hkept, -, -, hcode, hclen, -⟩ := runHufEnc_state (by rw [h]; rfl)
    refine ⟨fun _ => ?_, fun _ => (hs.tree (by omega)).of_reads hkept.reads,
      fun _ => (hs.codes hstage).of_reads hkept.reads.freq hcode hclen⟩
    rw [hufFreqTotal_of_freq hkept.reads.freq]
    exact hs.total (by omega)

theorem State.HuffmanInv.of_arithFrame {s t : State} (hs : s.HuffmanInv) (h : ArithFrame s t) : t.HuffmanInv :=
  hs.of_unchanged h.huffman fun a ha => h.bytes a (by unfold HuffmanOffset at ha; omega)

theorem huffmanInv_primitive (i : Instr) (hh : i ≠ .hufAll) (ha : i ≠ .arcAll) (s : State) (hs : s.HuffmanInv) :
    (runOf i s).state.HuffmanInv := by
  cases i with
  | nop => exact hs
  | sreset => exact huffmanInv_of_stage_none rfl
  | rleEnc =>
    have h := rleFrame_rleEnc s
    exact hs.of_unchanged h.huffman fun a ha => h.bytes a (by unfold HuffmanOffset at ha; omega)
  | hufFreq => exact huffmanInv_hufFreq hs
  | hufBuild => exact huffmanInv_hufBuild hs
  | hufCodes => exact huffmanInv_hufCodes hs
  | hufEnc => exact huffmanInv_hufEnc hs
  | hufAll => exact absurd rfl hh
  | arcInit => exact hs.of_arithFrame (arithFrame_arcInit s)
  | arcStep => exact hs.of_arithFrame (arithFrame_arcStep s)
  | arcRun => exact hs.of_arithFrame (arithFrame_arcRun s)
  | arcFinal => exact hs.of_arithFrame (arithFrame_arcFinal s)
  | arcAll => exact absurd rfl ha

/-- Settles O60: each Huffman command establishes its own clause of R49 and keeps those of the stages before it; outside
the engine its registers and memories keep their contents. -/
theorem stepKeepsHuffmanInv : Obligations.StepKeepsHuffmanInv := by
  intro s t hs h
  refine step_keeps_of_engines (P := State.HuffmanInv) (fun k hs => ?_) (fun l s => huffmanInv_of_stage_none rfl)
    (runOf_keeps_of_primitives huffmanInv_primitive) hs h
  exact hs.of_unchanged k.huffman fun a ha => k.bytes a (by unfold HuffmanOffset at ha; omega)

/-! ## The control invariant (R25, R27, R45, R233) -/

/-- The part of the control invariant that does not speak of the status bits: the `active` set is empty and the memories
are in canonical form. -/
structure State.StorageInv (s : State) : Prop where
  activeEmpty : s.active = []
  memories : s.MemoriesWellFormed

theorem State.ControlInv.storage {s : State} (h : s.ControlInv) : s.StorageInv := ⟨h.activeEmpty, h.memories⟩

/-- With no command pending the control invariant asks for its storage part only. -/
theorem State.StorageInv.control_of_idle {s : State} (h : s.StorageInv) (hb : s.busy = false) : s.ControlInv where
  busyDone hc := by rw [hb] at hc; exact absurd hc.1 Bool.false_ne_true
  busyErr hc := by rw [hb] at hc; exact absurd hc Bool.false_ne_true
  activeEmpty := h.activeEmpty
  resetIdle _ := hb
  memories := h.memories

theorem State.StorageInv.fill {s : State} (h : s.StorageInv) (b : Bank) (vs : List Byte) : (s.fill b vs).StorageInv := by
  refine ⟨(fill_active b vs s).trans h.activeEmpty, fun d => ?_⟩
  by_cases hd : d = b
  · subst hd
    rw [fill_bank_self]
    exact Memory.wellFormed_overlay vs (h.memories d)
  · rw [fill_bank_other hd]
    exact h.memories d

theorem State.StorageInv.of_eq {s t : State} (h : s.StorageInv) (hactive : t.active = s.active)
    (hbank : ∀ b, t.bank b = s.bank b) : t.StorageInv :=
  ⟨hactive.trans h.activeEmpty, fun b => (congrArg (Memory.WellFormed b) (hbank b)).trans (h.memories b)⟩

/-- Every primitive writes whole runs of bytes from a bank's first offset on, or no memory at all. -/
theorem storageInv_primitive (i : Instr) (hh : i ≠ .hufAll) (ha : i ≠ .arcAll) (s : State) (hs : s.StorageInv) :
    (runOf i s).state.StorageInv := by
  cases i with
  | nop => exact hs
  | sreset => exact ⟨hs.activeEmpty, hs.memories⟩
  | rleEnc =>
    rcases Nat.lt_or_ge 256 s.inputLength with h | h
    · rw [runOf, runRleEnc_long h]; exact hs
    · rw [runOf, runRleEnc_ok h]
      exact (hs.fill .outbuf (padTo Config.outBytes (rleEncode s.input))).of_eq rfl fun _ => rfl
  | hufFreq =>
    rcases Nat.lt_or_ge 256 s.inputLength with h | h
    · rw [runOf, runHufFreq_long h]; exact hs
    · rw [runOf, runHufFreq_ok h]
      exact (hs.fill .hufFreq (numberBytes (symbolCounts s.input))).of_eq rfl fun _ => rfl
  | hufBuild =>
    by_cases h : s.hufStage = .none
    · rw [runOf, runHufBuild_early h]; exact hs
    · rw [runOf, runHufBuild_ok h]
      obtain ⟨-, hmem⟩ := hs.fill .hufNode ((huffmanNodes s.hufFreqAt).flatMap nodeBytes)
      exact ⟨rfl, hmem⟩
  | hufCodes =>
    rcases runHufCodes_cases s with ⟨-, h⟩ | ⟨-, -, h⟩ | ⟨-, -, h⟩ <;> rw [runOf, h]
    · exact hs
    · exact hs
    · exact ((hs.fill .hufClen (numberBytes (s.codesOfTree.map codeLength))).fill .hufCode
        (numberBytes (s.codesOfTree.map codeWord))).of_eq rfl fun _ => rfl
  | hufEnc =>
    rcases runHufEnc_cases s with ⟨-, h⟩ | ⟨-, -, h⟩ | ⟨-, -, -, h⟩ | ⟨-, -, -, -, h⟩ | ⟨-, -, -, -, h⟩ <;> rw [runOf, h]
    · exact hs
    · exact hs
    · exact hs
    · exact hs
    · exact (hs.fill .hbuf (packBits Config.hbufBytes s.encodedBits)).of_eq rfl fun _ => rfl
  | hufAll => exact absurd rfl hh
  | arcInit =>
    rcases Nat.lt_or_ge 256 s.inputLength with h | h
    · rw [runOf, runArcInit_long h]; exact hs
    · rw [runOf, runArcInit_ok h]
      exact ((hs.fill .arcFreq (numberBytes (symbolCounts s.input))).fill .arcCum
        (numberBytes (prefixSums 0 (symbolCounts s.input)))).of_eq rfl fun _ => rfl
  | arcStep =>
    rcases runArcStep_cases s with ⟨-, h⟩ | ⟨-, -, ⟨-, h⟩ | ⟨-, h⟩⟩ <;> rw [runOf, h]
    · exact hs
    · exact hs
    · exact ⟨hs.activeEmpty, hs.memories⟩
  | arcRun =>
    rcases runArcRun_cases s with ⟨-, h⟩ | ⟨-, -, h⟩ | ⟨-, -, h⟩ <;> rw [runOf, h]
    · exact hs
    · exact hs
    · rw [succeed_state, foldl_narrow_frame]
      exact ⟨hs.activeEmpty, hs.memories⟩
  | arcFinal =>
    rcases runArcFinal_cases s with ⟨-, h⟩ | ⟨-, -, h⟩ <;> rw [runOf, h]
    · exact hs
    · exact ⟨hs.activeEmpty, hs.memories⟩
  | arcAll => exact absurd rfl ha

/-- A completion leaves no command pending (R111). -/
theorem controlInv_complete {r : Result} (h : r.state.StorageInv) : (complete r).ControlInv :=
  State.StorageInv.control_of_idle ⟨h.activeEmpty, h.memories⟩ rfl

/-- Every byte of the input buffer is stored (R42). -/
theorem wellFormed_write_inbuf {m : Memory} (h : Memory.WellFormed .inbuf m = true) {a : Nat} (v : Byte)
    (ha : 0x1000 ≤ a ∧ a < 0x1100) : Memory.WellFormed .inbuf (Memory.write a v m) = true := by
  have hmask : byteMask .inbuf a = 0xFF := byteMask_full (.inl rfl) ha
  exact Memory.wellFormed_write h (by rw [hmask]; decide) (by rw [hmask, and_full])

theorem State.ControlInv.writeInWord {s : State} (h : s.ControlInv) {off : Nat} (v : Word) (ha : off % 4 = 0)
    (hoff : 0x1000 ≤ off ∧ off < 0x1100) : (s.writeInWord off v).ControlInv := by
  refine ⟨h.busyDone, h.busyErr, h.activeEmpty, h.resetIdle, fun b => ?_⟩
  cases b with
  | inbuf =>
    have h0 := wellFormed_write_inbuf (h.memories .inbuf) (v.extractLsb' 0 8) hoff
    have h1 := wellFormed_write_inbuf h0 (a := off + 1) (v.extractLsb' 8 8) (by omega)
    have h2 := wellFormed_write_inbuf h1 (a := off + 2) (v.extractLsb' 16 8) (by omega)
    exact wellFormed_write_inbuf h2 (a := off + 3) (v.extractLsb' 24 8) (by omega)
  | _ => exact h.memories _

/-- A write that the bus admits keeps the control invariant; the block is not in reset then (R230). -/
theorem State.ControlInv.writeLoc {s : State} (h : s.ControlInv) (hr : s.inReset = false) (v : Word) {off size : Nat}
    {l : Loc} (hl : checkAccess off size = .ok l) : (s.writeLoc v l).ControlInv := by
  rcases writeLoc_cases v s l with e | e | e | ⟨-, e⟩ | ⟨-, e⟩ | ⟨-, e⟩ | ⟨-, o, rfl, e⟩ <;> rw [e]
  · exact h
  · exact { h with }
  · refine ⟨fun hc => h.busyDone ⟨hc.1, ?_⟩, h.busyErr, h.activeEmpty, h.resetIdle, h.memories⟩
    exact ((Bool.and_eq_true _ _).mp hc.2).1
  · exact { h with }
  · refine ⟨fun hc => Bool.false_ne_true hc.2, fun _ => rfl, h.activeEmpty, fun hc => ?_, h.memories⟩
    exact absurd (hr.symm.trans hc) Bool.false_ne_true
  · exact { h with }
  · obtain ⟨-, halign, hloc⟩ := checkAccess_ok hl
    obtain ⟨rfl, hoff⟩ := locate_inbuf hloc
    exact h.writeInWord v halign hoff

/-- A change of the level of `RST` abandons the pending command (R233). -/
theorem State.ControlInv.setRst {s : State} (h : s.ControlInv) (l : Bool) : (s.setRst l).ControlInv := by
  by_cases hl : l = s.inReset
  · rw [hl, setRst_same]
    exact h
  · rw [setRst_change hl]
    exact State.StorageInv.control_of_idle ⟨rfl, fun b => by cases b <;> rfl⟩ rfl

theorem State.ControlInv.answer {s : State} (h : s.ControlInv) (pc : Nat) (r : Response) : (s.answer pc r).ControlInv :=
  { h with }

theorem controlInv_hostTurn {s t : State} (hs : s.ControlInv) (h : hostTurn s = .next t) : t.ControlInv := by
  rcases hostTurn_cases h with rfl | ⟨l, -, rfl⟩ | ⟨hr, _, _, v, l, -, hl, rfl⟩ | ⟨-, u, pc, r, hu, rfl⟩
  · exact hs
  · exact { hs.setRst l with }
  · exact (hs.writeLoc hr v hl).answer _ _
  · have hread : u.ControlInv := by
      rcases hu with rfl | rfl
      · exact hs
      · exact { hs with }
    exact hread.answer pc r

/-- Settles O57: a completion leaves no command pending and writes the memories in canonical form; the host accepts a
command only outside reset, with `DONE` and `ERR` cleared. -/
theorem stepKeepsControlInv : Obligations.StepKeepsControlInv := by
  intro s t hs h
  rcases step_cases h with ⟨-, i, -, rfl⟩ | ⟨-, -, -, rfl⟩ | ⟨-, hturn⟩
  · exact controlInv_complete (runOf_keeps_of_primitives storageInv_primitive i s hs.storage)
  · exact controlInv_complete (r := runIllegal s) hs.storage
  · have htick : s.tick.ControlInv := { hs with }
    exact controlInv_hostTurn htick hturn

/-! ## The ranges of the result registers (R32, R34 to R37, R39, R40) -/

/-! ### The length of the run-length encoding (R127) -/

/-- A literal takes at least the first symbol of a sequence that begins with no run (R122). -/
theorem literalLength_pos {c : Byte} {t : List Byte} (h : leadingEqual c t = 0) :
    1 ≤ literalLength Config.litCap (c :: t) := by
  cases t with
  | nil => exact le_refl 1
  | cons d t =>
    have hcd : c ≠ d := by
      rintro rfl
      simp [leadingEqual] at h
    rw [show Config.litCap = 254 + 1 from rfl, literalLength, if_neg hcd]
    omega

/-- A number of a run or a literal of a legal input takes at most three digits, and no more digits than it counts. -/
theorem length_dec_le {k : Nat} (hk : 1 ≤ k) (h : k < 1000) : (dec k).length + 5 ≤ 6 * k ∧ (dec k).length ≤ 3 := by
  rcases Nat.lt_or_ge k 10 with h1 | h1
  · have := length_dec (k := k) (d := 0) (by omega)
    omega
  · have := length_dec (k := k) (d := 2) (by omega)
    omega

theorem length_spell_run {r : Nat} (c : Byte) (hr : 2 ≤ r) (h : r < 1000) :
    (spellToken (.run r c)).length + 2 ≤ 7 * r := by
  have := (length_dec_le (by omega) h).2
  simp only [spellToken, List.length_append, List.length_cons, List.length_nil]
  omega

theorem length_spell_literal {syms : List Byte} (hs : 1 ≤ syms.length) (h : syms.length < 1000) :
    (spellToken (.literal syms)).length + 2 ≤ 7 * syms.length := by
  have := (length_dec_le hs h).1
  simp only [spellToken, List.length_append, List.length_cons, List.length_nil]
  omega

/-- Each token with a separator takes at most seven bytes for each symbol it stands for. -/
theorem sum_length_spell_le (n : Nat) (l : List Byte) (hn : l.length ≤ n) (h : n < 1000) :
    ((rleTokens l.length l).map fun t => (spellToken t).length + 2).sum ≤ 7 * l.length := by
  induction n generalizing l with
  | zero =>
    obtain rfl := List.length_eq_zero_iff.1 (Nat.le_zero.1 hn)
    rfl
  | succ n ih =>
    cases l with
    | nil => rfl
    | cons c t =>
      rw [List.length_cons] at hn
      rcases Nat.eq_zero_or_pos (leadingEqual c t) with hr | hr
      · rw [rleTokens_literal c t hr]
        have hpos := literalLength_pos hr
        obtain ⟨-, hle⟩ := literalLength_le Config.litCap (c :: t)
        generalize literalLength Config.litCap (c :: t) = j at hpos hle
        rw [List.length_cons] at hle
        have hrest := ih ((c :: t).drop j) (by rw [List.length_drop, List.length_cons]; omega) (by omega)
        have htake : ((c :: t).take j).length = j := by rw [List.length_take, List.length_cons]; omega
        have htok := length_spell_literal (syms := (c :: t).take j) (by omega) (by omega)
        rw [htake] at htok
        rw [List.length_drop, List.length_cons] at hrest
        rw [List.map_cons, List.sum_cons, List.length_cons, List.length_drop, List.length_cons]
        omega
      · rw [rleTokens_run c t hr]
        have hle := leadingEqual_le c t
        have hrest := ih (t.drop (leadingEqual c t)) (by rw [List.length_drop]; omega) (by omega)
        have htok := length_spell_run (r := leadingEqual c t + 1) c (by omega) (by omega)
        rw [List.length_drop] at hrest
        rw [List.map_cons, List.sum_cons, List.length_cons, List.length_drop]
        omega

/-- The encoded string of `n ≥ 1` symbols takes at most `7n - 2` bytes (R127). -/
theorem length_rleEncode_le {input : List Byte} (h1 : 1 ≤ input.length) (h : input.length < 1000) :
    (rleEncode input).length + 2 ≤ 7 * input.length := by
  have hsum := sum_length_spell_le _ input (le_refl _) h
  have hne : 1 ≤ (rleTokens input.length input).length := by
    cases input with
    | nil => exact absurd h1 (by decide)
    | cons c t =>
      rcases Nat.eq_zero_or_pos (leadingEqual c t) with hr | hr
      · rw [rleTokens_literal c t hr, List.length_cons]; omega
      · rw [rleTokens_run c t hr, List.length_cons]; omega
  rw [List.sum_map_add, List.map_const', List.sum_replicate, smul_eq_mul] at hsum
  rw [rleEncode, length_joinTokens]
  omega

theorem length_rleEncode_input {s : State} (h : s.inputLength ≤ 256) : (rleEncode s.input).length ≤ 1790 := by
  rw [← length_input] at h
  rcases Nat.eq_zero_or_pos s.input.length with h0 | h0
  · rw [List.length_eq_zero_iff.1 h0]
    exact Nat.zero_le _
  · have := length_rleEncode_le h0 (by omega)
    omega

/-! ### The commands -/

theorem State.RangeInv.of_unchanged {s t : State} (h : s.RangeInv) (hout : t.outLen = s.outLen)
    (hhuf : HuffmanRegistersUnchanged s t) (harc : ArithRegistersUnchanged s t) : t.RangeInv where
  outLen := by rw [hout]; exact h.outLen
  nLeaf := by rw [hhuf.nLeaf]; exact h.nLeaf
  nNode := by rw [hhuf.nNode, hhuf.nLeaf]; exact h.nNode
  root := by rw [hhuf.root, hhuf.nLeaf]; exact h.root
  bitLen := by rw [hhuf.bitLen]; exact h.bitLen
  arcN := by rw [harc.n]; exact h.arcN
  arcPos := by rw [harc.pos, harc.n]; exact h.arcPos

/-- With every result register 0 the ranges hold. -/
theorem rangeInv_clearEngines (s : State) : s.clearEngines.RangeInv := by constructor <;> simp

theorem rangeInv_rleEnc {s : State} (hs : s.RangeInv) : (runRleEnc s).state.RangeInv := by
  rcases Nat.lt_or_ge 256 s.inputLength with h | h
  · rw [runRleEnc_long h]; exact hs
  · have hlen := length_rleEncode_input h
    have hout : (BitVec.ofNat 16 (rleEncode s.input).length).toNat ≤ 1790 := by
      rw [BitVec.toNat_ofNat, Nat.mod_eq_of_lt (by omega)]
      exact hlen
    rw [runRleEnc_ok h]
    exact { hs with outLen := hout }

theorem State.RangeInv.of_huffman {s t : State} (hs : s.RangeInv) (hf : HuffmanFrame s t) (hleaf : t.hufNLeaf.toNat ≤ 256)
    (hnode : t.hufNNode.toNat = 2 * t.hufNLeaf.toNat - 1) (hroot : t.hufRoot.toNat = 2 * t.hufNLeaf.toNat - 2)
    (hbits : t.hufBitLen.toNat ≤ 2048) : t.RangeInv where
  outLen := by rw [hf.outLen]; exact hs.outLen
  nLeaf := hleaf
  nNode := hnode
  root := hroot
  bitLen := hbits
  arcN := by rw [hf.arith.n]; exact hs.arcN
  arcPos := by rw [hf.arith.pos, hf.arith.n]; exact hs.arcPos

theorem rangeInv_hufFreq {s : State} (hs : s.RangeInv) : (runHufFreq s).state.RangeInv := by
  have hf := huffmanFrame_hufFreq s
  rcases Nat.lt_or_ge 256 s.inputLength with h | h
  · rw [runHufFreq_long h]; exact hs
  · rw [runHufFreq_ok h] at hf ⊢
    exact hs.of_huffman hf (by simp) (by simp) (by simp) (by simp)

theorem rangeInv_hufBuild {s : State} (hs : s.RangeInv) : (runHufBuild s).state.RangeInv := by
  by_cases h : s.hufStage = .none
  · rw [runHufBuild_early h]; exact hs
  · obtain ⟨-, -, hleaf, hnode, hroot, -, -⟩ := runHufBuild_state h
    have hle := length_leavesOf s.hufFreqAt
    rw [leavesOf_eq, List.length_map] at hle
    refine hs.of_huffman (huffmanFrame_hufBuild s) (by omega) (by omega) (by omega) ?_
    rw [runHufBuild_ok h]
    exact Nat.zero_le _

/-- `HUF_CODES` and `HUF_ENC` keep the counts of the tree. -/
theorem State.RangeInv.of_kept {s t : State} (hs : s.RangeInv) (hf : HuffmanFrame s t) (k : TreeKept s t)
    (hbits : t.hufBitLen.toNat ≤ 2048) : t.RangeInv :=
  hs.of_huffman hf (by rw [k.nLeaf]; exact hs.nLeaf) (by rw [k.nNode, k.nLeaf]; exact hs.nNode)
    (by rw [k.root, k.nLeaf]; exact hs.root) hbits

theorem rangeInv_hufCodes {s : State} (hs : s.RangeInv) : (runHufCodes s).state.RangeInv := by
  rcases runHufCodes_cases s with ⟨-, h⟩ | ⟨-, -, h⟩ | ⟨-, -, h⟩
  · rw [h]; exact hs
  · rw [h]; exact hs
  · obtain ⟨hkept, -, hbits, -, -⟩ := runHufCodes_state (by rw [h]; rfl)
    exact hs.of_kept (huffmanFrame_hufCodes s) hkept (by rw [hbits]; decide)

theorem rangeInv_hufEnc {s : State} (hs : s.RangeInv) : (runHufEnc s).state.RangeInv := by
  rcases runHufEnc_cases s with ⟨-, h⟩ | ⟨-, -, h⟩ | ⟨-, -, -, h⟩ | ⟨-, -, -, -, h⟩ | ⟨-, -, -, hlen, h⟩
  · rw [h]; exact hs
  · rw [h]; exact hs
  · rw [h]; exact hs
  · rw [h]; exact hs
  · obtain ⟨hkept, -, hbits, -, -, -⟩ := runHufEnc_state (by rw [h]; rfl)
    refine hs.of_kept (huffmanFrame_hufEnc s) hkept ?_
    rw [hbits, BitVec.toNat_ofNat, Nat.mod_eq_of_lt (by omega)]
    exact hlen

theorem State.RangeInv.of_arith {s t : State} (hs : s.RangeInv) (hf : ArithFrame s t) (hn : t.arcN.toNat ≤ 256)
    (hpos : t.arcPos.toNat ≤ t.arcN.toNat) : t.RangeInv where
  outLen := by rw [hf.outLen]; exact hs.outLen
  nLeaf := by rw [hf.huffman.nLeaf]; exact hs.nLeaf
  nNode := by rw [hf.huffman.nNode, hf.huffman.nLeaf]; exact hs.nNode
  root := by rw [hf.huffman.root, hf.huffman.nLeaf]; exact hs.root
  bitLen := by rw [hf.huffman.bitLen]; exact hs.bitLen
  arcN := hn
  arcPos := hpos

theorem rangeInv_arcInit {s : State} (hs : s.RangeInv) : (runArcInit s).state.RangeInv := by
  have hf := arithFrame_arcInit s
  rcases Nat.lt_or_ge 256 s.inputLength with h | h
  · rw [runArcInit_long h]; exact hs
  · rw [runArcInit_ok h] at hf ⊢
    exact hs.of_arith hf h (Nat.zero_le _)

/-- Each narrowing steps `ARC_POS` by one, so as many as are left keep it within `ARC_N` (R174, R175). -/
theorem foldl_narrow_arcPos (cs : List Byte) (s : State) (h : s.arcPos.toNat + cs.length < 2 ^ 16) :
    (cs.foldl State.narrow s).arcPos.toNat = s.arcPos.toNat + cs.length := by
  induction cs generalizing s with
  | nil => rfl
  | cons c cs ih =>
    rw [List.length_cons] at h ⊢
    have hpos : (s.narrow c).arcPos.toNat = s.arcPos.toNat + 1 := by
      rw [narrow_arcPos, BitVec.toNat_add]
      exact Nat.mod_eq_of_lt (show s.arcPos.toNat + 1 < 2 ^ 16 by omega)
    rw [List.foldl_cons, ih _ (by omega), hpos]
    omega

theorem State.RangeInv.foldl_narrow {s : State} (hs : s.RangeInv) {cs : List Byte}
    (h : s.arcPos.toNat + cs.length ≤ s.arcN.toNat) : (cs.foldl State.narrow s).RangeInv := by
  have hN := hs.arcN
  have hn : (cs.foldl State.narrow s).arcN = s.arcN := by rw [foldl_narrow_frame]
  refine hs.of_arith (arithFrame_foldl_narrow cs s) (by rw [hn]; exact hN) ?_
  rw [hn, foldl_narrow_arcPos cs s (by omega)]
  exact h

theorem rangeInv_arcStep {s : State} (hs : s.RangeInv) : (runArcStep s).state.RangeInv := by
  rcases runArcStep_cases s with ⟨-, h⟩ | ⟨-, hpos, ⟨-, h⟩ | ⟨-, h⟩⟩
  · rw [h]; exact hs
  · rw [h]; exact hs
  · rw [h]; exact hs.foldl_narrow (cs := [s.inByte s.arcPos.toNat]) hpos

theorem rangeInv_arcRun {s : State} (hs : s.RangeInv) : (runArcRun s).state.RangeInv := by
  rcases runArcRun_cases s with ⟨-, h⟩ | ⟨-, -, h⟩ | ⟨-, -, h⟩
  · rw [h]; exact hs
  · rw [h]; exact hs
  · rw [h]
    have hpos := hs.arcPos
    exact hs.foldl_narrow (by rw [length_remaining]; omega)

theorem rangeInv_arcFinal {s : State} (hs : s.RangeInv) : (runArcFinal s).state.RangeInv := by
  rcases runArcFinal_cases s with ⟨-, h⟩ | ⟨-, -, h⟩
  · rw [h]; exact hs
  · rw [h]; exact { hs with }

theorem rangeInv_primitive (i : Instr) (hh : i ≠ .hufAll) (ha : i ≠ .arcAll) (s : State) (hs : s.RangeInv) :
    (runOf i s).state.RangeInv := by
  cases i with
  | nop => exact hs
  | sreset => exact rangeInv_clearEngines s
  | rleEnc => exact rangeInv_rleEnc hs
  | hufFreq => exact rangeInv_hufFreq hs
  | hufBuild => exact rangeInv_hufBuild hs
  | hufCodes => exact rangeInv_hufCodes hs
  | hufEnc => exact rangeInv_hufEnc hs
  | hufAll => exact absurd rfl hh
  | arcInit => exact rangeInv_arcInit hs
  | arcStep => exact rangeInv_arcStep hs
  | arcRun => exact rangeInv_arcRun hs
  | arcFinal => exact rangeInv_arcFinal hs
  | arcAll => exact absurd rfl ha

/-- Settles O58: each command writes its own result registers within their ranges; outside the commands they change only
by a reset. -/
theorem stepKeepsRangeInv : Obligations.StepKeepsRangeInv := by
  intro s t hs h
  exact step_keeps_of_engines (P := State.RangeInv) (fun k hs => hs.of_unchanged k.outLen k.huffman k.arith)
    (fun l s => by constructor <;> simp) (runOf_keeps_of_primitives rangeInv_primitive) hs h

/-! ## The status and control registers and `IN_LEN` (R24, R25, R31, R47) -/

/-- `STATUS` bit by bit (R25). -/
theorem getLsbD_statusWord (s : State) (i : Nat) : s.statusWord.getLsbD i =
    if i = 0 then s.busy else if i = 1 then s.done else if i = 2 then s.wob else if i = 3 then false
    else (BitVec.ofNat 4 s.err.toNat).getLsbD (i - 4) := by
  have happend : s.statusWord.getLsbD i = BitVec.getLsbD ((0 : BitVec 24) ++ BitVec.ofNat 4 s.err.toNat ++ (0 : BitVec 1)
    ++ BitVec.ofBool s.wob ++ BitVec.ofBool s.done ++ BitVec.ofBool s.busy) i := rfl
  rw [happend]
  simp only [BitVec.getLsbD_append]
  match i with
  | 0 | 1 | 2 | 3 => simp
  | i + 4 =>
    by_cases hi : i < 4
    · simp [hi]
    · simpa [hi] using BitVec.getLsbD_of_ge _ _ (by omega)

theorem errCode_toNat_lt (e : ErrCode) : e.toNat < 16 := by cases e <;> decide

/-- The field `ERR` of `STATUS`, bits [7:4] (R25). -/
theorem extractLsb'_statusWord_err (s : State) : (s.statusWord.extractLsb' 4 4).toNat = s.err.toNat := by
  have hfield : s.statusWord.extractLsb' 4 4 = BitVec.ofNat 4 s.err.toNat := by
    apply BitVec.eq_of_getLsbD_eq
    intro i hi
    rw [BitVec.getLsbD_extractLsb', getLsbD_statusWord, if_neg (by omega), if_neg (by omega), if_neg (by omega),
      if_neg (by omega), Nat.add_sub_cancel_left, decide_eq_true hi, Bool.true_and]
  rw [hfield, BitVec.toNat_ofNat, Nat.mod_eq_of_lt (errCode_toNat_lt s.err)]

/-- No bit of `STATUS` from 8 on is set (R25). -/
theorem statusWord_lt (s : State) : s.statusWord.toNat < 256 := by
  refine Nat.lt_pow_two_of_testBit (n := 8) _ fun i hi => ?_
  rw [BitVec.testBit_toNat, getLsbD_statusWord, if_neg (by omega), if_neg (by omega), if_neg (by omega), if_neg (by omega)]
  exact BitVec.getLsbD_of_ge _ _ (by omega)

/-- A register that is no result is read as it stands, whether busy or not (R68). -/
theorem busRead_reg {off : Nat} {r : Reg} (s : State) (ha : off % 4 = 0) (hl : locate off = some (.reg r))
    (hr : isResult (.reg r) = false) : busRead off 4 s = (.data (s.regWord r), s) := by
  rw [busRead_located s ha hl, hr, Bool.and_false]
  rfl

/-- Writing 1 clears, writing 0 keeps (R25). -/
theorem and_not_eq_clear (flag bit : Bool) : (flag && !bit) = if bit then false else flag := by cases bit <;> simp

/-- Settles O48: `STATUS` is read bit by bit, and each of its two clearing bits works alone. -/
theorem statusFieldsAndWriteOneToClear : Obligations.StatusFieldsAndWriteOneToClear := by
  intro s v
  refine ⟨s.statusWord, busRead_reg (r := .status) s rfl rfl rfl, getLsbD_statusWord s 0, getLsbD_statusWord s 1,
    getLsbD_statusWord s 2, getLsbD_statusWord s 3, extractLsb'_statusWord_err s, statusWord_lt s, ?_⟩
  rw [← and_not_eq_clear, ← and_not_eq_clear]
  exact busWrite_located v s (l := .reg .status) rfl rfl

/-- `CTRL` reads bit 0 of the word written, and 0 above (R24). -/
theorem ctrlWord_writeCtrl (v : Word) (s : State) : (s.writeCtrl v).ctrlWord = v &&& 1 := by
  apply BitVec.eq_of_getLsbD_eq
  intro i hi
  have happend : (s.writeCtrl v).ctrlWord.getLsbD i =
    BitVec.getLsbD ((0 : BitVec 31) ++ BitVec.ofBool (v.getLsbD 0)) i := rfl
  rw [happend, BitVec.getLsbD_append, BitVec.getLsbD_and]
  cases i with
  | zero => simp
  | succ i => simp

/-- Settles O49: the write keeps bit 0 only, and the read and `IRQ` show it. -/
theorem ctrlHoldsTheInterruptEnable : Obligations.CtrlHoldsTheInterruptEnable := by
  intro s v
  refine ⟨s.writeCtrl v, busWrite_located v s (l := .reg .ctrl) rfl rfl, rfl, ?_, rfl⟩
  rw [← ctrlWord_writeCtrl v s]
  exact busRead_reg (r := .ctrl) (s.writeCtrl v) rfl rfl rfl

/-- The low half of a word, as a word. -/
theorem setWidth_low_half (v : Word) : (v.setWidth 16).setWidth 32 = v &&& 0xFFFF := by
  apply BitVec.eq_of_toNat_eq
  have hmask : (v &&& 0xFFFF).toNat = v.toNat % 2 ^ 16 := Nat.and_two_pow_sub_one_eq_mod v.toNat 16
  rw [hmask, BitVec.toNat_setWidth, BitVec.toNat_setWidth]
  omega

/-- Settles O50: with no command pending the write is stored, and the read widens what was stored. -/
theorem inLenHoldsTheLowHalf : Obligations.InLenHoldsTheLowHalf := by
  intro s v hb
  have hwrite : s.writeInLen v = { s with inLen := v.setWidth 16 } := if_neg (by rw [hb]; exact Bool.false_ne_true)
  refine ⟨s.writeInLen v, busWrite_located v s (l := .reg .inLen) rfl rfl, hwrite, ?_⟩
  rw [hwrite, ← setWidth_low_half]
  exact busRead_reg (r := .inLen) _ rfl rfl rfl

end Sys2Proof.Machine
end

section
/-! SUPPORT. The memory map on the bus (20_memory.md): which accesses are bus errors, what a read and a write do at each
kind of location while idle and while busy, and the byte, bit and word orders of the memories and of the wide registers. -/
namespace Sys2Proof.Machine

/-! ## The address map, read backwards -/

/-- Everything an offset can hold (R61). -/
theorem locate_cases {off : Nat} {l : Loc} (h : locate off = some l) :
    (off < 0x03C ∧ ∃ r, regPage[off / 4]? = some r ∧ l = .reg r) ∨
    (0x03C ≤ off ∧ off < 0x400 ∧ l = .reserved) ∨
    (∃ b, bankAt off = some b ∧ l = .mem b off) ∨
    (∃ r w, wideAt off = some r ∧ l = .wide r w) := by
  by_cases hreg : off < 0x03C
  · obtain ⟨r, hr, hloc⟩ := locate_reg hreg
    exact .inl ⟨hreg, r, hr, Option.some.inj (h.symm.trans hloc)⟩
  · by_cases hres : off < 0x400
    · exact .inr (.inl ⟨by omega, hres, Option.some.inj (h.symm.trans (locate_reserved ⟨by omega, hres⟩))⟩)
    · unfold locate at h
      rw [if_neg hreg, if_neg hres] at h
      cases hb : bankAt off with
      | some b =>
        rw [hb] at h
        exact .inr (.inr (.inl ⟨b, rfl, (Option.some.inj h).symm⟩))
      | none =>
        rw [hb] at h
        obtain ⟨r, hr, hl⟩ := Option.map_eq_some_iff.1 h
        exact .inr (.inr (.inr ⟨r, _, hr, hl.symm⟩))

/-- The offsets of the result registers, the read-only memories and the wide registers (R61, R68). -/
def ResultOffset (off : Nat) : Prop :=
  (0x018 ≤ off ∧ off < 0x03C) ∨ (0x400 ≤ off ∧ off < 0x1000) ∨ (0x1800 ≤ off ∧ off < 0x2100) ∨
    (0x4000 ≤ off ∧ off < 0x5800) ∨ (0x6000 ≤ off ∧ off < 0x6800)

/-- The result registers are the registers of the page from `OUT_LEN` at 0x018 on. -/
theorem isResult_regPage : ∀ k < 15, ∀ r ∈ regPage[k]?, isResult (.reg r) = decide (6 ≤ k) := by decide

/-- The result locations stand exactly at the result offsets. -/
theorem isResult_iff {off : Nat} {l : Loc} (h : locate off = some l) : isResult l = true ↔ ResultOffset off := by
  unfold ResultOffset
  rcases locate_cases h with ⟨hlt, r, hr, rfl⟩ | ⟨hlo, hhi, rfl⟩ | ⟨b, hb, rfl⟩ | ⟨r, w, hr, rfl⟩
  · rw [isResult_regPage (off / 4) (by omega) r hr, decide_eq_true_iff]
    omega
  · simp only [isResult, Bool.false_eq_true, false_iff]
    omega
  · have hw := bankAt_window hb
    cases b <;> simp only [isResult, Bank.base, Bank.size, Bool.false_eq_true, true_iff, false_iff] at hw ⊢ <;> omega
  · have hw := wideAt_window hr
    cases r <;> simp only [isResult, WideReg.base, true_iff] at hw ⊢ <;> omega

theorem locate_of_resultOffset {off : Nat} (h : ResultOffset off) : ∃ l, locate off = some l := by
  refine Option.ne_none_iff_exists'.1 fun hn => ?_
  rw [locate_eq_none_iff] at hn
  unfold ResultOffset at h
  omega

/-! ## Reads and writes by the kind of their location -/

theorem busRead_error {off size : Nat} {f : Fault} (h : checkAccess off size = .error f) (s : State) :
    busRead off size s = (.fault f, s) := by
  unfold busRead
  rw [h]

theorem busWrite_error {off size : Nat} {f : Fault} (h : checkAccess off size = .error f) (v : Word) (s : State) :
    busWrite off size v s = (.fault f, s) := by
  unfold busWrite
  rw [h]

/-- A read answers the current value unless a command is pending and the location is a result (R68). -/
theorem busRead_current {off : Nat} {l : Loc} {s : State} (ha : off % 4 = 0) (hl : locate off = some l)
    (h : s.busy = false ∨ isResult l = false) : busRead off 4 s = (.data (s.locWord l), s) := by
  have hcond : (s.busy && isResult l) = false := by
    rcases h with h | h <;> simp only [h, Bool.false_and, Bool.and_false]
  rw [busRead_located s ha hl, hcond]
  rfl

/-- A read of a result while a command is pending is a fresh draw (R68). -/
theorem busRead_draw {off : Nat} {l : Loc} {s : State} (ha : off % 4 = 0) (hl : locate off = some l)
    (hb : s.busy = true) (hr : isResult l = true) :
    busRead off 4 s = (.data (Config.busyReadWord s.draws), { s with draws := s.draws + 1 }) := by
  rw [busRead_located s ha hl, hb, hr]
  rfl

/-- A word of a block memory, read while no command is pending. -/
theorem busRead_bank {b : Bank} {off : Nat} {s : State} (hb : s.busy = false) (ha : off % 4 = 0)
    (h : b.base ≤ off ∧ off < b.base + b.size) : busRead off 4 s = (.data (s.bankWord b off), s) :=
  busRead_current ha (locate_mem h) (.inl hb)

/-- A result location ignores writes (R67). -/
theorem writeLoc_of_isResult {l : Loc} (h : isResult l = true) (v : Word) (s : State) : s.writeLoc v l = s := by
  cases l with
  | reg r =>
    cases r with
    | ctrl | status | cmd | inLen => cases h
    | _ => rfl
  | reserved => rfl
  | mem b off =>
    cases b with
    | inbuf => cases h
    | _ => rfl
  | wide r w => rfl

/-- Settles O45: read-only are `ID` and `PARAM`, the reserved registers, and the result locations. -/
theorem readOnlyLocationsIgnoreWrites : Obligations.ReadOnlyLocationsIgnoreWrites := by
  intro off v s ha hoff
  by_cases hres : 0x03C ≤ off ∧ off < 0x400
  · exact busWrite_located v s ha (locate_reserved hres)
  by_cases hid : off < 8
  · obtain rfl | rfl : off = 0 ∨ off = 4 := by omega
    · exact busWrite_located v s (l := .reg .id) rfl rfl
    · exact busWrite_located v s (l := .reg .param) rfl rfl
  have hresult : ResultOffset off := by
    unfold ResultOffset
    omega
  obtain ⟨l, hl⟩ := locate_of_resultOffset hresult
  rw [busWrite_located v s ha hl, writeLoc_of_isResult ((isResult_iff hl).2 hresult)]

/-- Settles O42: the bus check passes exactly the aligned words of mapped offsets, and only it answers a bus error. -/
theorem busErrorsAreExactlyTheIllegalAccesses : Obligations.BusErrorsAreExactlyTheIllegalAccesses := by
  intro off size v s
  simp only
  rw [← locate_eq_none_iff]
  refine ⟨fun hillegal => ?_, fun hsize ha hmapped => ?_⟩
  · have hcheck := checkAccess_error hillegal
    exact ⟨busRead_error hcheck s, busWrite_error hcheck v s⟩
  · subst hsize
    obtain ⟨l, hl⟩ := Option.ne_none_iff_exists'.1 hmapped
    refine ⟨?_, by rw [busWrite_located v s ha hl]⟩
    rw [busRead_located s ha hl]
    split <;> exact ⟨_, rfl⟩

/-! ## The host while a command is pending (R69, R77) -/

theorem writeCmd_busy {s : State} (hb : s.busy = true) (v : Word) : s.writeCmd v = s.setWob := if_pos hb

theorem writeInLen_busy {s : State} (hb : s.busy = true) (v : Word) : s.writeInLen v = s.setWob := if_pos hb

theorem writeInbuf_busy {s : State} (hb : s.busy = true) (off : Nat) (v : Word) : s.writeInbuf off v = s.setWob :=
  if_pos hb

theorem writeInbuf_idle {s : State} (hb : s.busy = false) (off : Nat) (v : Word) :
    s.writeInbuf off v = s.writeInWord off v := if_neg (by rw [hb]; exact Bool.false_ne_true)

/-- Settles O47: the three writable inputs test `BUSY`; `CTRL` and `STATUS` do not. -/
theorem writesWhileBusyOnlySetWob : Obligations.WritesWhileBusyOnlySetWob := by
  intro off v s hb ha
  refine ⟨?_, busWrite_located v s (l := .reg .ctrl) rfl rfl, busWrite_located v s (l := .reg .status) rfl rfl,
    readOnlyLocationsIgnoreWrites off v s ha⟩
  rintro (rfl | rfl | hin)
  · rw [busWrite_located v s (l := .reg .cmd) rfl rfl]
    exact congrArg _ (writeCmd_busy hb v)
  · rw [busWrite_located v s (l := .reg .inLen) rfl rfl]
    exact congrArg _ (writeInLen_busy hb v)
  · rw [busWrite_located v s ha (locate_mem (b := .inbuf) hin)]
    exact congrArg _ (writeInbuf_busy hb off v)

/-- While a command is pending a write reaches `CTRL.IE`, `STATUS.DONE` and `STATUS.WOB` only, and sets no `DONE`. -/
theorem writeLoc_while_busy {s : State} (hb : s.busy = true) (v : Word) (l : Loc) :
    ∃ ie done wob, (s.done = false → done = false) ∧ s.writeLoc v l = { s with ie := ie, done := done, wob := wob } := by
  have hidle : s.busy ≠ false := Bool.ne_false_iff.2 hb
  rcases writeLoc_cases v s l with h | h | h | ⟨-, h⟩ | ⟨hn, -⟩ | ⟨hn, -⟩ | ⟨hn, -⟩
  · exact ⟨s.ie, s.done, s.wob, id, h⟩
  · exact ⟨_, s.done, s.wob, id, h⟩
  · exact ⟨s.ie, _, _, fun hd => by rw [hd, Bool.false_and], h⟩
  · exact ⟨s.ie, s.done, true, id, h⟩
  · exact absurd hn hidle
  · exact absurd hn hidle
  · exact absurd hn hidle

/-- While a command is pending a turn of the host that does not assert `RST` changes nothing of the block but `CTRL.IE`,
`STATUS.DONE` and `STATUS.WOB`, and sets no `DONE` (R69, R77). -/
theorem hostTurn_while_busy {s t : State} (hb : s.busy = true) (hr : s.inReset = false)
    (hrst : s.host[s.hostPc]? ≠ some (.rst true)) (h : hostTurn s = .next t) :
    ∃ ie done wob draws pc answers, (s.done = false → done = false) ∧
      t = { s with ie := ie, done := done, wob := wob, draws := draws, hostPc := pc, responses := answers } := by
  rcases hostTurn_cases h with rfl | ⟨l, hop, rfl⟩ | ⟨-, -, -, v, l, -, -, rfl⟩ | ⟨-, u, pc, r, hu, rfl⟩
  · exact ⟨_, _, _, _, _, _, id, rfl⟩
  · have hl : l = s.inReset := by
      rw [hr]
      exact Bool.eq_false_of_not_eq_true fun hl => hrst (hl ▸ hop)
    rw [hl, setRst_same]
    exact ⟨_, _, _, _, _, _, id, rfl⟩
  · obtain ⟨ie, done, wob, hdone, hw⟩ := writeLoc_while_busy hb v l
    rw [hw]
    exact ⟨ie, done, wob, _, _, _, hdone, rfl⟩
  · rcases hu with rfl | rfl <;> exact ⟨_, _, _, _, _, _, id, rfl⟩

/-- Settles O9: no completion is due, so the step is a turn of the host, and that leaves all but three interface bits. -/
theorem hostCannotDisturbAPendingCommand : Obligations.HostCannotDisturbAPendingCommand := by
  intro s hinv hb hlat hrst
  have hr : s.inReset = false := Bool.eq_false_of_not_eq_true fun hr => by
    rw [hinv.resetIdle hr] at hb
    cases hb
  have hd : s.done = false := Bool.eq_false_of_not_eq_true fun hd => hinv.busyDone ⟨hb, hd⟩
  have hnotDue : ¬ s.completionDue = true := by
    simp only [State.completionDue, Bool.and_eq_true, beq_iff_eq]
    omega
  obtain ⟨t, hturn⟩ := hostTurn_next (s := s.tick) (.inl hr)
  obtain ⟨ie, done, wob, draws, pc, answers, hdone, rfl⟩ := hostTurn_while_busy (s := s.tick) hb hr hrst hturn
  exact ⟨_, (if_neg hnotDue).trans hturn, hb, hdone hd, hinv.busyErr hb, rfl, rfl, rfl, rfl, rfl,
    by constructor <;> rfl, by constructor <;> rfl, fun _ => rfl⟩

/-! ## Bytes and bits of a memory word (R63, R70, R71) -/

/-- Bit `i` of a memory word is bit `i mod 8` of its byte `i div 8` (R70). -/
theorem getLsbD_bankWord (s : State) (b : Bank) (a : Nat) {i : Nat} (hi : i < 32) :
    (s.bankWord b a).getLsbD i = (s.bankByte b (a + i / 8)).getLsbD (i % 8) := by
  have hbit : i % 8 = i - 8 * (i / 8) := by omega
  have hbyte : i / 8 = 0 ∨ i / 8 = 1 ∨ i / 8 = 2 ∨ i / 8 = 3 := by omega
  unfold State.bankWord
  rw [getLsbD_wordOfBytes, hbit]
  rcases hbyte with h | h | h | h <;> rw [h]
  · rw [if_pos (by omega)]
    rfl
  · rw [if_neg (by omega), if_pos (by omega)]
  · rw [if_neg (by omega), if_neg (by omega), if_pos (by omega)]
  · rw [if_neg (by omega), if_neg (by omega), if_neg (by omega)]

/-- A bit that is not stored reads 0 (10_state.md, section 4). -/
theorem getLsbD_bankByte_unstored (s : State) {b : Bank} {a i : Nat} (h : (byteMask b a).getLsbD i = false) :
    (s.bankByte b a).getLsbD i = false := by
  unfold State.bankByte
  split
  · exact BitVec.getLsbD_zero
  · rw [BitVec.getLsbD_and, h, Bool.and_false]

/-- Settles O52: the bit stands in byte `(j mod 32) div 8` of its word, and that is byte `j div 8` of `HBUF`. -/
theorem bitstringOrderInBusWords : Obligations.BitstringOrderInBusWords := by
  refine ⟨by decide, fun s j hb hj => ⟨rfl, _, congrArg Prod.fst (busRead_bank (b := .hbuf) hb (by omega) ?_), ?_⟩⟩
  · simp only [Bank.base, Bank.size]
    omega
  · have hbyte : (8 * (j % 32 / 8) + 7 - j % 8) / 8 = j % 32 / 8 := by omega
    have hbit : (8 * (j % 32 / 8) + 7 - j % 8) % 8 = 7 - j % 8 := by omega
    have hoff : 0x2000 + 4 * (j / 32) + j % 32 / 8 = 0x2000 + j / 8 := by omega
    rw [getLsbD_bankWord s .hbuf _ (by omega), hbyte, hbit, hoff]
    rfl

/-- Byte `k` of the `INBUF` word just written (R63). -/
theorem writeInWord_bankByte {off k : Nat} (hk : k < 4) (h : 0x1000 ≤ off ∧ off + 3 < 0x1100) (v : Word) (s : State) :
    (s.writeInWord off v).bankByte .inbuf (off + k) = v.extractLsb' (8 * k) 8 := by
  have hmask : byteMask .inbuf (off + k) = 0xFF :=
    byteMask_full (.inl rfl) (by simp only [Bank.base, Bank.size]; omega)
  have hfind : Memory.find (off + k) ((s.writeInWord off v).bank .inbuf) = some (v.extractLsb' (8 * k) 8) := by
    simp only [State.bank, State.writeInWord]
    match k, hk with
    | 0, _ =>
      rw [Memory.find_write_of_ne (by omega), Memory.find_write_of_ne (by omega), Memory.find_write_of_ne (by omega)]
      exact Memory.find_write_self _ _ _
    | 1, _ =>
      rw [Memory.find_write_of_ne (by omega), Memory.find_write_of_ne (by omega), Memory.find_write_self]
    | 2, _ => rw [Memory.find_write_of_ne (by omega), Memory.find_write_self]
    | 3, _ => rw [Memory.find_write_self]
  unfold State.bankByte
  rw [hmask, if_neg (by decide), hfind, Option.getD_some, and_full]

/-- A write to an `INBUF` word changes its own four bytes only (R63). -/
theorem writeInWord_bytesUnchangedOutside (off : Nat) (v : Word) (s : State) :
    BytesUnchangedOutside off (off + 4) s (s.writeInWord off v) := by
  intro a ha
  unfold State.byteAt
  cases bankAt a with
  | none => rfl
  | some b =>
    cases b with
    | inbuf =>
      have hfind : Memory.find a ((s.writeInWord off v).bank .inbuf) = Memory.find a (s.bank .inbuf) := by
        simp only [State.bank, State.writeInWord]
        rw [Memory.find_write_of_ne (by omega), Memory.find_write_of_ne (by omega), Memory.find_write_of_ne (by omega),
          Memory.find_write_of_ne (by omega)]
      simp only [State.bankByte, hfind]
      rfl
    | _ => rfl

/-- The `INBUF` word just written reads back (R63). -/
theorem writeInWord_bankWord {off : Nat} (h : 0x1000 ≤ off ∧ off + 3 < 0x1100) (v : Word) (s : State) :
    (s.writeInWord off v).bankWord .inbuf off = v := by
  unfold State.bankWord
  have h0 := writeInWord_bankByte (k := 0) (by decide) h v s
  rw [Nat.add_zero] at h0
  rw [h0, writeInWord_bankByte (by decide) h, writeInWord_bankByte (by decide) h, writeInWord_bankByte (by decide) h]
  exact wordOfBytes_of_word v

/-- Settles O51: a memory word is its four bytes, and the write stores the four of the `INBUF` word. -/
theorem inbufWordWriteStoresFourBytes : Obligations.InbufWordWriteStoresFourBytes := by
  intro s v j hb
  have ha : ∀ base, base % 4 = 0 → (base + 4 * j) % 4 = 0 := by omega
  have hin : j < 64 → Bank.base .inbuf ≤ 0x1000 + 4 * j ∧ 0x1000 + 4 * j < Bank.base .inbuf + Bank.size .inbuf := by
    simp only [Bank.base, Bank.size]
    omega
  have hhbuf : j < 64 → Bank.base .hbuf ≤ 0x2000 + 4 * j ∧ 0x2000 + 4 * j < Bank.base .hbuf + Bank.size .hbuf := by
    simp only [Bank.base, Bank.size]
    omega
  have hout : j < 512 → Bank.base .outbuf ≤ 0x1800 + 4 * j ∧ 0x1800 + 4 * j < Bank.base .outbuf + Bank.size .outbuf := by
    simp only [Bank.base, Bank.size]
    omega
  refine ⟨fun hj => ⟨?_, ?_⟩, fun hj => ?_, fun hj => ⟨s.writeInWord (0x1000 + 4 * j) v, ?_, ?_, ?_, ?_, ?_,
    writeInWord_bytesUnchangedOutside _ v s, rfl, ?_⟩⟩
  · exact congrArg Prod.fst (busRead_bank hb (ha 0x1000 rfl) (hin hj))
  · exact congrArg Prod.fst (busRead_bank hb (ha 0x2000 rfl) (hhbuf hj))
  · exact congrArg Prod.fst (busRead_bank hb (ha 0x1800 rfl) (hout hj))
  · rw [busWrite_located v s (ha 0x1000 rfl) (locate_mem (hin hj))]
    exact congrArg _ (writeInbuf_idle hb _ v)
  · exact writeInWord_bankByte (k := 0) (by decide) (by omega) v s
  · exact writeInWord_bankByte (k := 1) (by decide) (by omega) v s
  · exact writeInWord_bankByte (k := 2) (by decide) (by omega) v s
  · exact writeInWord_bankByte (k := 3) (by decide) (by omega) v s
  · rw [busRead_bank (b := .inbuf) (s := s.writeInWord (0x1000 + 4 * j) v) hb (ha 0x1000 rfl) (hin hj),
      writeInWord_bankWord (by omega)]

/-! ## The windows of the wide registers (R41, R72) -/

/-- A number modulo `2 ^ (32 * n)` is the sum of its `n` words at their weights. -/
theorem mod_two_pow_eq_sum_words (x n : Nat) :
    x % 2 ^ (32 * n) = ((List.range n).map fun w => x / 2 ^ (32 * w) % 2 ^ 32 * 2 ^ (32 * w)).sum := by
  induction n with
  | zero => simp [Nat.mod_one]
  | succ n ih =>
    rw [List.range_succ, List.map_append, List.sum_append, ← ih, Nat.mul_succ, Nat.pow_add, Nat.mod_mul]
    simp [Nat.mul_comm]

theorem toNat_eq_sum_words {n : Nat} (v : BitVec (32 * n)) :
    v.toNat = ((List.range n).map fun w => v.toNat / 2 ^ (32 * w) % 2 ^ 32 * 2 ^ (32 * w)).sum := by
  rw [← mod_two_pow_eq_sum_words, Nat.mod_eq_of_lt v.isLt]

/-- A wide register's number is the sum of its 65 words at their weights (R72). -/
theorem toNat_eq_sum_wideWord (v : Wide) :
    v.toNat = ((List.range 65).map fun w => (wideWord v w).toNat * 2 ^ (32 * w)).sum := by
  refine (toNat_eq_sum_words (n := 65) v).trans (congrArg List.sum (List.map_congr_left fun w hw => ?_))
  have hword : wideWord v w = v.extractLsb' (32 * w) 32 := if_pos (List.mem_range.1 hw)
  rw [hword, BitVec.extractLsb'_toNat, Nat.shiftRight_eq_div_pow]

theorem busRead_wide {s : State} (hb : s.busy = false) (r : WideReg) {w : Nat} (hw : w < 128) :
    (busRead (r.base + 4 * w) 4 s).1 = .data (wideWord (s.wideReg r) w) := by
  have ha : (r.base + 4 * w) % 4 = 0 := by cases r <;> simp only [WideReg.base] <;> omega
  exact congrArg Prod.fst (busRead_current ha (locate_wide hw) (.inl hb))

/-- Settles O53: word `w` of a window is bits `[32w+31 : 32w]` of the number, which are its digits to the base `2 ^ 32`. -/
theorem wideWindowRebuildsTheNumber : Obligations.WideWindowRebuildsTheNumber := by
  intro s base v hb hmem
  obtain ⟨r, rfl, rfl⟩ : ∃ r : WideReg, base = r.base ∧ v = s.wideReg r := by
    simp only [List.mem_cons, Prod.mk.injEq, List.not_mem_nil, or_false] at hmem
    obtain h | h | h | h := hmem
    · exact ⟨.low, h⟩
    · exact ⟨.high, h⟩
    · exact ⟨.scale, h⟩
    · exact ⟨.mid, h⟩
  exact ⟨wideWord (s.wideReg r), fun w hw => busRead_wide hb r hw, fun w hw _ => if_neg (Nat.not_lt.2 hw),
    toNat_eq_sum_wideWord _⟩

/-! ## What reads answer (R61, R68, R73, R75) -/

/-- Widening the low bits of a word gives the word back when its other bits are 0. -/
theorem setWidth_setWidth_of_high_zero {w : Word} {n : Nat} (h : ∀ i, n ≤ i → i < 32 → w.getLsbD i = false) :
    (w.setWidth n).setWidth 32 = w := by
  apply BitVec.eq_of_getLsbD_eq
  intro i hi
  rw [BitVec.getLsbD_setWidth, BitVec.getLsbD_setWidth, decide_eq_true hi, Bool.true_and]
  by_cases hn : i < n
  · rw [decide_eq_true hn, Bool.true_and]
  · rw [decide_eq_false hn, Bool.false_and, h i (by omega) hi]

/-- A field of a word whose bits are all 0. -/
theorem extractLsb'_eq_zero {w : Word} {lo n : Nat} (h : ∀ i, lo ≤ i → i < lo + n → w.getLsbD i = false) :
    w.extractLsb' lo n = 0 := by
  apply BitVec.eq_of_getLsbD_eq
  intro i hi
  rw [BitVec.getLsbD_extractLsb', h (lo + i) (by omega) (by omega), Bool.and_false]
  exact BitVec.getLsbD_zero.symm

/-- A bit of a memory word that is not stored reads 0 (10_state.md, section 4). -/
theorem getLsbD_bankWord_unstored (s : State) {b : Bank} {a i : Nat} (hi : i < 32)
    (h : (byteMask b (a + i / 8)).getLsbD (i % 8) = false) : (s.bankWord b a).getLsbD i = false := by
  rw [getLsbD_bankWord s b a hi, getLsbD_bankByte_unstored s h]

/-- An entry of a 16-bit table reads with its upper half 0 (R43, R46). -/
theorem setWidth_half_entry {b : Bank} (hb : b = .hufFreq ∨ b = .arcFreq ∨ b = .arcCum) (s : State) {c : Nat}
    (hc : c < 256) : ((s.bankWord b (b.base + 4 * c)).setWidth 16).setWidth 32 = s.bankWord b (b.base + 4 * c) := by
  have hsize : b.size = 0x400 := by rcases hb with rfl | rfl | rfl <;> rfl
  have hbase : b.base % 4 = 0 := by rcases hb with rfl | rfl | rfl <;> rfl
  refine setWidth_setWidth_of_high_zero fun i hlo hi => getLsbD_bankWord_unstored s hi ?_
  rw [byteMask_half hb (by omega), if_neg (by omega)]
  exact BitVec.getLsbD_zero

/-- An entry of the code length table reads with the bits from 6 on 0 (R43). -/
theorem setWidth_hufClenAt (s : State) {c : Nat} (hc : c < 256) :
    (s.hufClenAt c).setWidth 32 = s.bankWord .hufClen (0xC00 + 4 * c) := by
  refine setWidth_setWidth_of_high_zero fun i hlo hi => getLsbD_bankWord_unstored s hi ?_
  have hstored : ∀ m < 8, 6 ≤ m → (0x3F : Byte).getLsbD m = false := by decide
  rw [byteMask_clen (by omega)]
  split
  · exact hstored _ (by omega) (by omega)
  · exact BitVec.getLsbD_zero

/-- The bits 24 to 30 of word 0 of a node entry are 0 (R44). -/
theorem nodeWord0_gap (s : State) {i : Nat} (hi : i < 512) :
    (s.bankWord .hufNode (0x4000 + 8 * i)).extractLsb' 24 7 = 0 := by
  refine extractLsb'_eq_zero fun k hlo hhi => getLsbD_bankWord_unstored s (by omega) ?_
  have hbyte : (0x4000 + 8 * i + k / 8) % 8 = 3 := by omega
  have hstored : ∀ m < 7, (0x80 : Byte).getLsbD m = false := by decide
  rw [byteMask_node (by omega), hbyte]
  exact hstored _ (by omega)

/-- The fields above `LEFT` and above `RIGHT` in word 1 of a node entry are 0 (R44). -/
theorem nodeWord1_gap (s : State) {i lo : Nat} (hi : i < 512) (hlo : lo = 9 ∨ lo = 25) :
    (s.bankWord .hufNode (0x4000 + 8 * i + 4)).extractLsb' lo 7 = 0 := by
  refine extractLsb'_eq_zero fun k hk hhi => getLsbD_bankWord_unstored s (by omega) ?_
  have hbyte : (0x4000 + 8 * i + 4 + k / 8) % 8 = 5 ∨ (0x4000 + 8 * i + 4 + k / 8) % 8 = 7 := by omega
  have hmask : byteMask .hufNode (0x4000 + 8 * i + 4 + k / 8) = 0x01 := by
    rw [byteMask_node (by omega)]
    rcases hbyte with h | h <;> rw [h] <;> rfl
  have hstored : ∀ m < 8, 1 ≤ m → (0x01 : Byte).getLsbD m = false := by decide
  rw [hmask]
  exact hstored _ (by omega) (by omega)

/-- The word of `INBUF` at an offset of its window, by the bytes of the block space (R63). -/
theorem busRead_inbuf {off : Nat} (ha : off % 4 = 0) (h : 0x1000 ≤ off ∧ off < 0x1100) (s : State) :
    (busRead off 4 s).1 =
      .data (wordOfBytes (s.byteAt off) (s.byteAt (off + 1)) (s.byteAt (off + 2)) (s.byteAt (off + 3))) := by
  have hbyte : ∀ k, k < 4 → s.byteAt (off + k) = s.bankByte .inbuf (off + k) := fun k hk =>
    byteAt_of_window (by simp only [Bank.base, Bank.size]; omega) s
  rw [busRead_current ha (locate_mem (b := .inbuf) h) (.inr rfl), hbyte 1 (by decide), hbyte 2 (by decide),
    hbyte 3 (by decide), byteAt_of_window (b := .inbuf) h]
  rfl

/-- A register, read while no command is pending. -/
theorem busRead_reg_idle {off : Nat} {r : Reg} {s : State} (hb : s.busy = false) (ha : off % 4 = 0)
    (hl : locate off = some (.reg r)) : (busRead off 4 s).1 = .data (s.regWord r) :=
  congrArg Prod.fst (busRead_current ha hl (.inl hb))

/-- Entry `c` of a table of 256 words, read while no command is pending. -/
theorem busRead_entry {b : Bank} {s : State} {c : Nat} {w : Word} (hsize : b.size = 0x400) (hbase : b.base % 4 = 0)
    (hb : s.busy = false) (hc : c < 256) (hw : w = s.bankWord b (b.base + 4 * c)) :
    (busRead (b.base + 4 * c) 4 s).1 = .data w := by
  rw [busRead_bank (b := b) hb (by omega) (by omega), hw]

/-- A read leaves the state, unless it is the read of a result while a command is pending (R68, R75). -/
theorem busRead_state_eq {off : Nat} {s : State} (ha : off % 4 = 0) (h : s.busy = false ∨ ¬ ResultOffset off) :
    (busRead off 4 s).2 = s := by
  cases hl : locate off with
  | none => rw [busRead_error (checkAccess_error (.inr (.inr hl)))]
  | some l =>
    rw [busRead_current ha hl (h.imp_right fun hr => ?_)]
    rw [← isResult_iff hl] at hr
    exact Bool.eq_false_of_not_eq_true hr

/-- Settles O46: a read is a draw exactly at the result offsets while `BUSY = 1`; otherwise it shows the location, where
the bits that are not stored are 0. -/
theorem readsOfResultsWhileBusyAreFreeDraws : Obligations.ReadsOfResultsWhileBusyAreFreeDraws := by
  intro off s ha
  refine ⟨fun hb hr => ?_, busRead_state_eq ha, ?_, ?_, ?_, ?_, ?_, ?_, fun hlo hhi => ?_,
    fun hlo hhi => busRead_inbuf ha ⟨hlo, hhi⟩ s, fun hb => ⟨?_, ?_, ?_, ?_, ?_, ?_, ?_, ?_, ?_, fun c hc => ?_,
    fun i hi => ?_⟩⟩
  · obtain ⟨l, hl⟩ := locate_of_resultOffset hr
    exact busRead_draw ha hl hb ((isResult_iff hl).2 hr)
  · exact congrArg Prod.fst (busRead_reg (r := .id) s rfl rfl rfl)
  · exact congrArg Prod.fst (busRead_reg (r := .param) s rfl rfl rfl)
  · exact congrArg Prod.fst (busRead_reg (r := .ctrl) s rfl rfl rfl)
  · exact congrArg Prod.fst (busRead_reg (r := .status) s rfl rfl rfl)
  · exact congrArg Prod.fst (busRead_reg (r := .cmd) s rfl rfl rfl)
  · exact congrArg Prod.fst (busRead_reg (r := .inLen) s rfl rfl rfl)
  · exact congrArg Prod.fst (busRead_current ha (locate_reserved ⟨hlo, hhi⟩) (.inr rfl))
  · exact busRead_reg_idle (r := .outLen) hb rfl rfl
  · rw [busRead_reg_idle (r := .hufStage) hb rfl rfl]
    cases hs : s.hufStage <;> simp only [State.regWord, hs] <;> rfl
  · exact busRead_reg_idle (r := .hufNLeaf) hb rfl rfl
  · exact busRead_reg_idle (r := .hufNNode) hb rfl rfl
  · exact busRead_reg_idle (r := .hufRoot) hb rfl rfl
  · exact busRead_reg_idle (r := .hufBitLen) hb rfl rfl
  · rw [busRead_reg_idle (r := .arcState) hb rfl rfl]
    cases hs : s.arcState <;> simp only [State.regWord, hs] <;> rfl
  · exact busRead_reg_idle (r := .arcN) hb rfl rfl
  · exact busRead_reg_idle (r := .arcPos) hb rfl rfl
  · exact ⟨busRead_entry (b := .hufFreq) rfl rfl hb hc (setWidth_half_entry (.inl rfl) s hc),
      busRead_entry (b := .hufCode) rfl rfl hb hc rfl,
      busRead_entry (b := .hufClen) rfl rfl hb hc (setWidth_hufClenAt s hc),
      busRead_entry (b := .arcFreq) rfl rfl hb hc (setWidth_half_entry (.inr (.inl rfl)) s hc),
      busRead_entry (b := .arcCum) rfl rfl hb hc (setWidth_half_entry (.inr (.inr rfl)) s hc)⟩
  · have hread : ∀ k, k % 4 = 0 → k < 8 →
        (busRead (0x4000 + 8 * i + k) 4 s).1 = .data (s.bankWord .hufNode (0x4000 + 8 * i + k)) := fun k hk4 hk8 =>
      congrArg Prod.fst (busRead_bank hb (by omega) (by simp only [Bank.base, Bank.size]; omega))
    exact ⟨_, _, hread 0 rfl (by decide), hread 4 rfl (by decide), rfl, rfl, nodeWord0_gap s hi, rfl, rfl,
      nodeWord1_gap s hi (.inl rfl), rfl, nodeWord1_gap s hi (.inr rfl)⟩

end Sys2Proof.Machine
end

section
/-! SUPPORT. The decoder and its inverse (30_encoding.md, R90 to R97), and the host's operation in a step that is no
completion (R98, R76, R66). -/
namespace Sys2Proof

/-! ## The fields of a command word -/

/-- A command word is its two fields `RSV` and `OPC` (R90). -/
theorem word_eq_of_fields {v w : Word} (hrsv : rsvField v = rsvField w) (hopc : opcField v = opcField w) : v = w := by
  have happend : ∀ u : Word, rsvField u ++ opcField u = u := fun u =>
    BitVec.extractLsb'_append_extractLsb'_eq_extractLsb' (by rfl) |>.trans BitVec.extractLsb'_eq_self
  rw [← happend v, ← happend w, hrsv, hopc]

/-! ## The opcode map -/

theorem assignedOpcodes_eq_map : assignedOpcodes = opcodeMap.map Prod.fst := rfl

/-- Each row of the map gives its command the opcode of that command's word (R93). -/
theorem opcodeMap_opcField : ∀ p ∈ opcodeMap, p.1 = opcField (encode p.2) := by decide

theorem opcField_encode_of_lookup {b : Byte} {i : Instr} (h : opcodeMap.lookup b = some i) : b = opcField (encode i) := by
  obtain ⟨before, after, hmap, -⟩ := List.lookup_eq_some_iff.1 h
  exact opcodeMap_opcField (b, i) (hmap ▸ List.mem_append_right before List.mem_cons_self)

/-- The map has no row for exactly the unassigned opcodes (R94). -/
theorem lookup_eq_none_iff_unassigned (b : Byte) : opcodeMap.lookup b = none ↔ b ∉ assignedOpcodes := by
  rw [List.lookup_eq_none_iff, assignedOpcodes_eq_map, List.mem_map]
  simp only [bne_iff_ne, not_exists, not_and]
  exact forall₂_congr fun p _ => ne_comm

/-! ## Decoding -/

theorem decode_of_reserved {w : Word} (h : rsvField w ≠ 0) : decode w = .error .reservedBits := if_neg h

theorem decode_of_lookup_none {w : Word} (hrsv : rsvField w = 0) (h : opcodeMap.lookup (opcField w) = none) :
    decode w = .error .unassignedOpcode := by
  rw [decode, if_pos hrsv, h]

theorem decode_of_lookup_some {w : Word} {i : Instr} (hrsv : rsvField w = 0)
    (h : opcodeMap.lookup (opcField w) = some i) : decode w = .ok i := by
  rw [decode, if_pos hrsv, h]

/-- A word decodes to a command in one way only: `RSV` is zero and the map holds the command at `OPC` (R91). -/
theorem decode_eq_ok_iff {w : Word} {i : Instr} :
    decode w = .ok i ↔ rsvField w = 0 ∧ opcodeMap.lookup (opcField w) = some i := by
  refine ⟨fun h => ?_, fun ⟨hrsv, hl⟩ => decode_of_lookup_some hrsv hl⟩
  by_cases hrsv : rsvField w = 0
  · refine ⟨hrsv, ?_⟩
    cases hl : opcodeMap.lookup (opcField w) with
    | none => cases h.symm.trans (decode_of_lookup_none hrsv hl)
    | some j => exact congrArg some (Except.ok.inj ((decode_of_lookup_some hrsv hl).symm.trans h))
  · cases h.symm.trans (decode_of_reserved hrsv)

theorem rsvField_encode (i : Instr) : rsvField (encode i) = 0 := by cases i <;> rfl

theorem decode_encode (i : Instr) : decode (encode i) = .ok i :=
  decode_of_lookup_some (rsvField_encode i) (by cases i <;> rfl)

theorem eq_encode_of_decode {w : Word} {i : Instr} (h : decode w = .ok i) : w = encode i := by
  obtain ⟨hrsv, hlookup⟩ := decode_eq_ok_iff.1 h
  exact word_eq_of_fields (hrsv.trans (rsvField_encode i).symm) (opcField_encode_of_lookup hlookup)

/-- Settles O2: a word that decodes has zero reserved bits and the opcode of its command, and these two fields make it. -/
theorem decodeAndEncodeAgree : Obligations.DecodeAndEncodeAgree :=
  fun i _ => ⟨decode_encode i, fun _ => eq_encode_of_decode⟩

/-- Settles O3: the reserved bits are tested first, and then the map has a row exactly for the assigned opcodes. -/
theorem illegalWordsAreTheReservedAndUnassigned : Obligations.IllegalWordsAreTheReservedAndUnassigned := by
  refine fun w => ⟨decode_of_reserved, fun hrsv hopc => ?_, fun hrsv hopc => ?_⟩
  · exact decode_of_lookup_none hrsv ((lookup_eq_none_iff_unassigned _).2 hopc)
  · have hrow : opcodeMap.lookup (opcField w) ≠ none := fun hnone => (lookup_eq_none_iff_unassigned _).1 hnone hopc
    obtain ⟨i, hi⟩ := Option.ne_none_iff_exists'.1 hrow
    exact ⟨i, decode_of_lookup_some hrsv hi⟩

/-- Settles O1: the words of the map are the encodings of their commands, and the other three are illegal by O3. -/
theorem opcodeMapWordsDecode : Obligations.OpcodeMapWordsDecode := by
  obtain ⟨hreserved, -, -⟩ := illegalWordsAreTheReservedAndUnassigned 0x110
  obtain ⟨-, hunassigned, -⟩ := illegalWordsAreTheReservedAndUnassigned 0x99
  obtain ⟨-, hgap, -⟩ := illegalWordsAreTheReservedAndUnassigned 0x2E
  exact ⟨decode_encode .nop, decode_encode .sreset, decode_encode .rleEnc, decode_encode .hufFreq,
    decode_encode .hufBuild, decode_encode .hufCodes, decode_encode .hufEnc, decode_encode .hufAll,
    decode_encode .arcInit, decode_encode .arcStep, decode_encode .arcRun, decode_encode .arcFinal,
    decode_encode .arcAll, hreserved (by decide), hunassigned rfl (by decide), hgap rfl (by decide)⟩

end Sys2Proof

namespace Sys2Proof.Machine

/-! ## The host's operation in a step -/

theorem step_of_not_due {s : State} (h : s.completionDue = false) : step s = hostTurn s.tick :=
  if_neg (Bool.eq_false_iff.1 h)

theorem hostTurn_of_op {s : State} {op : HostOp} (h : s.host[s.hostPc]? = some op) : hostTurn s = hostOp op s := by
  rw [hostTurn, h]

theorem hostTurn_of_none {s : State} (h : s.host[s.hostPc]? = none) : hostTurn s = .next s := by
  rw [hostTurn, h]

theorem step_hostOp {s : State} {op : HostOp} (hdue : s.completionDue = false) (hop : s.host[s.hostPc]? = some op) :
    step s = hostOp op s.tick :=
  (step_of_not_due hdue).trans (hostTurn_of_op (s := s.tick) hop)

/-! ## Each access while `RST` is released -/

/-- A write answered with a bus error changes no state (R66). -/
theorem busWrite_eq_of_fault {off size : Nat} {v : Word} {s : State} {f : Fault}
    (h : (busWrite off size v s).1 = .fault f) : busWrite off size v s = (.fault f, s) := by
  refine Prod.ext h ?_
  unfold busWrite at h ⊢
  split at h
  · rfl
  · cases h

/-- A read answered with a bus error changes no state, the counter of draws included (R66). -/
theorem busRead_eq_of_fault {off size : Nat} {s : State} {f : Fault}
    (h : (busRead off size s).1 = .fault f) : busRead off size s = (.fault f, s) := by
  refine Prod.ext h ?_
  unfold busRead at h ⊢
  split at h
  · rfl
  · split at h <;> cases h

section Released
variable {s : State} (hr : s.inReset = false)
include hr

theorem hostOp_write (off size : Nat) (v : Word) : hostOp (.write off size v) s =
    .next ((busWrite off size v s).2.answer (s.hostPc + 1) (busWrite off size v s).1) :=
  if_neg (Bool.eq_false_iff.1 hr)

theorem hostOp_read (off size : Nat) : hostOp (.read off size) s =
    .next ((busRead off size s).2.answer (s.hostPc + 1) (busRead off size s).1) :=
  if_neg (Bool.eq_false_iff.1 hr)

theorem hostOp_write_fault {off size : Nat} {v : Word} {f : Fault} (h : (busWrite off size v s).1 = .fault f) :
    hostOp (.write off size v) s = .next (s.answer (s.hostPc + 1) (.fault f)) := by
  rw [hostOp_write hr, busWrite_eq_of_fault h]

theorem hostOp_read_fault {off size : Nat} {f : Fault} (h : (busRead off size s).1 = .fault f) :
    hostOp (.read off size) s = .next (s.answer (s.hostPc + 1) (.fault f)) := by
  rw [hostOp_read hr, busRead_eq_of_fault h]

theorem hostOp_bnz_data {off : Nat} {w : Word} (h : (busRead off 4 s).1 = .data w) (mask : Word) (target : Nat) :
    hostOp (.bnz off mask target) s =
      .next ((busRead off 4 s).2.answer (if w &&& mask ≠ 0 then target else s.hostPc + 1) (.data w)) := by
  rw [hostOp, if_neg (Bool.eq_false_iff.1 hr), ite_not]
  simp only [h]

theorem hostOp_bnz_fault {off : Nat} {f : Fault} (h : (busRead off 4 s).1 = .fault f) (mask : Word) (target : Nat) :
    hostOp (.bnz off mask target) s = .next (s.branchUndecided (.fault f)) := by
  rw [hostOp, if_neg (Bool.eq_false_iff.1 hr)]
  simp only [h]

end Released

/-- Settles O43: the step is the host's operation on the ticked state, and an access answered with a bus error leaves
that state to the host's own fields. -/
theorem hostStepPerformsItsNextOperation : Obligations.HostStepPerformsItsNextOperation := by
  intro s hr hdue
  have hr : s.tick.inReset = false := hr
  refine ⟨fun off size v hop => ?_, fun off size hop => ?_, fun off mask target hop => ?_, fun hnone => ?_⟩
  · have hstep := step_hostOp hdue hop
    exact ⟨hstep.trans (hostOp_write hr off size v), fun hfault => hstep.trans (hostOp_write_fault hr hfault)⟩
  · have hstep := step_hostOp hdue hop
    exact ⟨hstep.trans (hostOp_read hr off size), fun hfault => hstep.trans (hostOp_read_fault hr hfault)⟩
  · have hstep := step_hostOp hdue hop
    exact ⟨fun w hdata => hstep.trans (hostOp_bnz_data hr hdata mask target),
      fun hfault => hstep.trans (hostOp_bnz_fault hr hfault mask target)⟩
  · exact (step_of_not_due hdue).trans (hostTurn_of_none (s := s.tick) hnone)

end Sys2Proof.Machine
end

section
/-! SUPPORT. Command acceptance, the completion step, and compound execution (40_control.md, R110 to R118). -/
namespace Sys2Proof.Machine

/-! ## Acceptance (R110) -/

theorem writeCmd_idle {s : State} (hb : s.busy = false) (v : Word) : s.writeCmd v = s.accept v :=
  if_neg (by rw [hb]; exact Bool.false_ne_true)

/-- Settles O7: the write reaches `CMD`, which tests `BUSY` and never decodes the word. -/
theorem commandWriteIsAcceptedOnlyWhenIdle : Obligations.CommandWriteIsAcceptedOnlyWhenIdle := by
  intro s v
  have hwrite : busWrite 0x010 4 v s = (.ack, s.writeCmd v) := busWrite_located v s (l := .reg .cmd) rfl rfl
  refine ⟨fun hb => ?_, fun hb => ⟨s.accept v, ?_, rfl⟩⟩
  · rw [hwrite, writeCmd_busy hb]
    rfl
  · rw [hwrite, writeCmd_idle hb]

/-! ## The completion step (R111, R114) -/

theorem step_of_due {s : State} (hr : s.inReset = false) (hb : s.busy = true) (hl : s.latency = 0) :
    step s = completionStep s := by
  have hdue : s.completionDue = true := by
    rw [State.completionDue, hr, hb, hl]
    rfl
  exact if_pos hdue

theorem completionStep_of_ok {s : State} {i : Instr} (h : decode s.cmd = .ok i) : completionStep s = exec i s := by
  rw [completionStep, h]

theorem completionStep_of_error {s : State} {e : IllegalWord} (h : decode s.cmd = .error e) :
    completionStep s = .next (s.completedWith .eIllegal) := by
  rw [completionStep, h]
  rfl

/-- Settles O4: the completion is due, and it executes what `CMD` decodes to. -/
theorem stepExecutesThePendingCommand : Obligations.StepExecutesThePendingCommand :=
  fun _ _ hr hb hl hdecode => (step_of_due hr hb hl).trans (completionStep_of_ok hdecode)

/-- A word given by its number in a row of 32 bits is that word. -/
theorem tableWord_toNat (w : Word) : tableWord 32 w.toNat = w := by
  rw [tableWord, Nat.mod_eq_of_lt w.isLt, BitVec.ofNat_toNat, BitVec.setWidth_eq]

/-- Settles O5: `withFetchWord` leaves a due completion of the word itself, so O4 applies. -/
theorem fetchWordIsExecutedByTheNextStep : Obligations.FetchWordIsExecutedByTheNextStep := by
  intro s i
  have hdecode : decode (s.withFetchWord 32 (encode i).toNat).cmd = .ok i := by
    rw [withFetchWord_cmd, tableWord_toNat, decode_encode]
  exact stepExecutesThePendingCommand _ i rfl rfl rfl hdecode

/-- A reserved bit or an unassigned opcode makes a word illegal (R92, R94). -/
theorem decode_error_of_illegal {w : Word} (h : rsvField w ≠ 0 ∨ opcField w ∉ assignedOpcodes) :
    ∃ e, decode w = .error e := by
  by_cases hrsv : rsvField w = 0
  · have hopc : opcField w ∉ assignedOpcodes := h.resolve_left (not_not_intro hrsv)
    exact ⟨_, decode_of_lookup_none hrsv ((lookup_eq_none_iff_unassigned _).2 hopc)⟩
  · exact ⟨_, decode_of_reserved hrsv⟩

/-- What `STATUS` reads after a completion with no ignored write: `DONE`, and the code in bits [7:4] (R25, R202). -/
theorem statusWord_completedWith {s : State} (hwob : s.wob = false) (code : ErrCode) :
    (s.completedWith code).statusWord = BitVec.ofNat 32 (16 * code.toNat + 2) := by
  have hfields : (s.completedWith code).statusWord =
    (0 : BitVec 24) ++ BitVec.ofNat 4 code.toNat ++ (0 : BitVec 1) ++ BitVec.ofBool s.wob ++ 1#1 ++ 0#1 := rfl
  rw [hfields, hwob]
  cases code <;> rfl

/-- Settles O6: a due word that does not decode completes with `E_ILLEGAL`. -/
theorem illegalCommandReportsIllegal : Obligations.IllegalCommandReportsIllegal := by
  refine ⟨fun s hr hb hl hillegal => ?_, by decide, rfl, by decide, fun s hwob => statusWord_completedWith hwob _⟩
  obtain ⟨e, he⟩ := decode_error_of_illegal hillegal
  exact (step_of_due hr hb hl).trans (completionStep_of_error he)

/-! ## Every command completes (R111) -/

/-- `DONE` is set at a completion, so `IRQ` shows `CTRL.IE` (R47, R111). -/
theorem irq_complete (r : Result) : (complete r).irq = r.state.ie := Bool.and_true _

/-- Settles O10: the completion write follows the command's result, and no command writes the interface. -/
theorem everyCommandCompletesAndKeepsTheInterface : Obligations.EveryCommandCompletesAndKeepsTheInterface := by
  intro i s
  have hkept : InterfaceUnchanged s (runOf i s).state := interface_runOf i s
  exact ⟨_, exec_eq_complete i s, rfl, rfl, (irq_complete _).trans hkept.ie, interface_complete hkept⟩

/-- Settles O14: `NOP` succeeds with the state unchanged, so only the completion write is left. -/
theorem nopOnlyCompletes : Obligations.NopOnlyCompletes :=
  ⟨decode_encode .nop, fun s => ⟨exec_eq_complete .nop s, irq_complete (runNop s),
    fun hwob => statusWord_completedWith hwob .ok⟩⟩

/-- Settles O15: `SRESET` succeeds with the engine registers cleared, and the completion write follows. -/
theorem sresetClearsTheEngineRegisters : Obligations.SresetClearsTheEngineRegisters :=
  ⟨decode_encode .sreset, exec_eq_complete .sreset⟩

/-! ## Compound execution (R118) -/

section Compound
variable {p : State → Result} {ps : List (State → Result)} {s : State}

theorem compound_cons_ok (h : (p s).code = .ok) : compound (p :: ps) s = compound ps (p s).state :=
  (compound_cons p ps s).trans (if_pos h)

theorem compound_cons_error (h : (p s).code ≠ .ok) : compound (p :: ps) s = p s :=
  (compound_cons p ps s).trans (if_neg h)

/-- The last primitive of a compound completes as it does when issued alone. -/
theorem complete_compound_singleton : complete (compound [p] s) = complete (p s) := by
  by_cases h : (p s).code = .ok
  · rw [compound_cons_ok h, compound_nil, complete, complete, h]
    rfl
  · rw [compound_cons_error h]

/-! ### The completion write between two primitives makes no difference -/

theorem SameOutcome.trans {q r u : Result} (h : SameOutcome q r) (k : SameOutcome r u) : SameOutcome q u :=
  ⟨h.1.trans k.1, h.2.trans k.2⟩

theorem SameOutcome.symm {q r : Result} (h : SameOutcome q r) : SameOutcome r q := ⟨h.1.symm, h.2.symm⟩

theorem SameOutcome.ite {c : Prop} [Decidable c] {q q' r r' : Result} (h : SameOutcome q r) (k : SameOutcome q' r') :
    SameOutcome (if c then q else q') (if c then r else r') := by
  split
  · exact h
  · exact k

/-- The outcome of `p` does not depend on `BUSY`, `DONE` and `ERR`: what a completion writes, `p` does not read. -/
def StatusBlind (p : State → Result) : Prop :=
  ∀ (b d : Bool) (e : ErrCode) (s : State), SameOutcome (p (s.withStatus b d e)) (p s)

/-- A primitive that reads no status bit goes on from a completed result as it does from the result itself. -/
theorem StatusBlind.complete (hp : StatusBlind p) (r : Result) : SameOutcome (p (complete r)) (p r.state) :=
  hp false true r.code r.state

theorem statusBlind_compound (hps : ∀ p ∈ ps, StatusBlind p) : StatusBlind (compound ps) := by
  induction ps with
  | nil => exact fun _ _ _ _ => ⟨rfl, rfl⟩
  | cons p ps ih =>
    intro b d e s
    have hrest : StatusBlind (compound ps) := ih fun q hq => hps q (List.mem_cons_of_mem _ hq)
    obtain ⟨hcode, hstate⟩ := hps p List.mem_cons_self b d e s
    by_cases hok : (p s).code = .ok
    · rw [compound_cons_ok hok, compound_cons_ok (hcode.trans hok)]
      have h := hrest.complete (p (s.withStatus b d e))
      rw [hstate] at h
      exact h.symm.trans (hrest.complete (p s))
    · have herror : (p (s.withStatus b d e)).code ≠ .ok := hcode ▸ hok
      rw [compound_cons_error hok, compound_cons_error herror]
      exact ⟨hcode, hstate⟩

/-- A compound whose first primitive reports `OK` completes as the compound of the rest does, issued after that
primitive has completed. -/
theorem complete_compound_cons (hps : ∀ q ∈ ps, StatusBlind q) (h : (p s).code = .ok) :
    complete (compound (p :: ps) s) = complete (compound ps (complete (p s))) := by
  obtain ⟨-, hcomplete⟩ := (statusBlind_compound hps).complete (p s)
  rw [compound_cons_ok h, hcomplete]

end Compound

/-! ### The primitives read no status bit -/

theorem narrow_withStatus (b d : Bool) (e : ErrCode) (s : State) (c : Byte) :
    (s.withStatus b d e).narrow c = (s.narrow c).withStatus b d e := rfl

theorem foldl_narrow_withStatus (b d : Bool) (e : ErrCode) (cs : List Byte) (s : State) :
    cs.foldl State.narrow (s.withStatus b d e) = (cs.foldl State.narrow s).withStatus b d e :=
  List.foldl_hom (State.withStatus b d e) fun s c => narrow_withStatus b d e s c

theorem statusBlind_arcRun : StatusBlind runArcRun := by
  intro b d e s
  have hrun : SameOutcome (succeed (s.remaining.foldl State.narrow (s.withStatus b d e)))
      (succeed (s.remaining.foldl State.narrow s)) := by
    rw [foldl_narrow_withStatus]
    exact ⟨rfl, rfl⟩
  exact .ite ⟨rfl, rfl⟩ (.ite ⟨rfl, rfl⟩ hrun)

theorem statusBlind_arcFinal : StatusBlind runArcFinal := fun _ _ _ _ => .ite ⟨rfl, rfl⟩ ⟨rfl, rfl⟩

theorem statusBlind_arcTail : ∀ p ∈ [runArcRun, runArcFinal], StatusBlind p := by
  simp only [List.forall_mem_cons]
  exact ⟨statusBlind_arcRun, statusBlind_arcFinal, List.forall_mem_nil _⟩

theorem statusBlind_hufTail : ∀ p ∈ [runHufBuild, runHufCodes, runHufEnc], StatusBlind p := by
  simp only [List.forall_mem_cons]
  exact ⟨runHufBuild_withStatus, runHufCodes_withStatus, runHufEnc_withStatus, List.forall_mem_nil _⟩

/-- `HUF_ALL` completes as its four primitives issued one after another, while each reports `OK` (R118, R152). -/
theorem complete_hufAll {s : State} (hfreq : (runHufFreq s).code = .ok)
    (hbuild : (runHufBuild (complete (runHufFreq s))).code = .ok)
    (hcodes : (runHufCodes (complete (runHufBuild (complete (runHufFreq s))))).code = .ok) :
    complete (runHufAll s) =
      complete (runHufEnc (complete (runHufCodes (complete (runHufBuild (complete (runHufFreq s))))))) := by
  have htail := statusBlind_hufTail
  have htail' := (List.forall_mem_cons.1 htail).2
  have htail'' := (List.forall_mem_cons.1 htail').2
  rw [runHufAll, complete_compound_cons htail hfreq, complete_compound_cons htail' hbuild,
    complete_compound_cons htail'' hcodes, complete_compound_singleton]

/-- `ARC_ALL` completes as its three primitives issued one after another, while the first two report `OK` (R118, R177). -/
theorem complete_arcAll {s : State} (hinit : (runArcInit s).code = .ok)
    (hrun : (runArcRun (complete (runArcInit s))).code = .ok) :
    complete (runArcAll s) = complete (runArcFinal (complete (runArcRun (complete (runArcInit s))))) := by
  have htail := statusBlind_arcTail
  have htail' := (List.forall_mem_cons.1 htail).2
  rw [runArcAll, complete_compound_cons htail hinit, complete_compound_cons htail' hrun, complete_compound_singleton]

/-- A compound command whose first primitive reports an error answers what that primitive answers (R118). -/
theorem exec_of_first_error {i j : Instr} {ps : List (State → Result)} (hj : runOf j = compound (runOf i :: ps))
    {s a : State} (ha : exec i s = .next a) (herror : a.err ≠ .ok) : exec j s = .next a := by
  obtain rfl := exec_next_iff.1 ha
  rw [exec_eq_complete, hj, compound_cons_error herror]

/-- Settles O12: no primitive reads a status bit, so the completion writes of separate commands do not matter; an error
of the first primitive ends the compound. -/
theorem compoundCommandsRunTheirPrimitives : Obligations.CompoundCommandsRunTheirPrimitives := by
  refine ⟨fun p ps s => ⟨compound_cons_ok, compound_cons_error, rfl⟩, ?_, ?_, ?_, ?_⟩
  · intro s a b c d ha hfreq hb hbuild hc hcodes hd
    obtain rfl := exec_next_iff.1 ha
    obtain rfl := exec_next_iff.1 hb
    obtain rfl := exec_next_iff.1 hc
    obtain rfl := exec_next_iff.1 hd
    exact exec_next_iff.2 (complete_hufAll hfreq hbuild hcodes).symm
  · intro s a b c ha hinit hb hrun hc
    obtain rfl := exec_next_iff.1 ha
    obtain rfl := exec_next_iff.1 hb
    obtain rfl := exec_next_iff.1 hc
    exact exec_next_iff.2 (complete_arcAll hinit hrun).symm
  · exact fun s a => exec_of_first_error (ps := [runHufBuild, runHufCodes, runHufEnc]) rfl
  · exact fun s a => exec_of_first_error (ps := [runArcRun, runArcFinal]) rfl

end Sys2Proof.Machine
end

section
/-! SUPPORT. The run-length encoder: its tokens are the one segmentation, its spelling is decimal, and what `RLE_ENC`
writes (41_rle.md, R121 to R129). -/
namespace Sys2Proof.Machine

/-! ## The tokens are the one segmentation (R121, R122) -/

/-- A sequence that begins with no run begins with the encoder's literal. -/
theorem Segmentation.literal_head {c : Byte} {t : List Byte} {ts : List Token} (h : leadingEqual c t = 0)
    (tail : Segmentation ((c :: t).drop (literalLength Config.litCap (c :: t))) ts) :
    Segmentation (c :: t) (.literal ((c :: t).take (literalLength Config.litCap (c :: t))) :: ts) := by
  have hpos := literalLength_pos h
  have hnoRun := fun j => literalLength_noRun Config.litCap (c :: t) (j := j)
  have hstops := literalLength_stops Config.litCap (c :: t)
  obtain ⟨hcap, hle⟩ := literalLength_le Config.litCap (c :: t)
  generalize literalLength Config.litCap (c :: t) = n at hpos hnoRun hstops hcap hle tail ⊢
  have hlen : ((c :: t).take n).length = n := List.length_take_of_le hle
  have hsucc : (c :: t).take n ++ ((c :: t).drop n).take 1 = (c :: t).take (n + 1) := List.take_add.symm
  have hseg := Segmentation.literal ((c :: t).take n) ((c :: t).drop n) ts (hlen.symm ▸ hpos) (hlen.symm ▸ hcap)
    (fun j h1 h2 => ?_) (hlen.symm ▸ hstops) tail
  · rwa [List.take_append_drop] at hseg
  · rw [hlen] at h2
    rw [hsucc, List.length_take] at h1
    rw [hsucc, List.getElem?_take_of_lt (by omega), List.getElem?_take_of_lt (by omega)]
    exact hnoRun j h2 (by omega)

/-- A sequence that begins with a run has that run, as a whole, as its first token. -/
theorem Segmentation.run_head {c : Byte} {t : List Byte} {ts : List Token} (h : 1 ≤ leadingEqual c t)
    (tail : Segmentation (t.drop (leadingEqual c t)) ts) :
    Segmentation (c :: t) (.run (leadingEqual c t + 1) c :: ts) := by
  obtain ⟨hsplit, hmax⟩ := leadingEqual_split c t
  have hseg := Segmentation.run (leadingEqual c t + 1) c _ ts (by omega) hmax tail
  rwa [List.replicate_succ, List.cons_append, ← hsplit] at hseg

/-- The tokens of a sequence are a segmentation of it, by induction on a bound of its length. -/
theorem segmentation_rleTokens (n : Nat) (l : List Byte) (h : l.length ≤ n) : Segmentation l (rleTokens l.length l) := by
  induction n generalizing l with
  | zero =>
    obtain rfl := List.length_eq_zero_iff.1 (Nat.le_zero.1 h)
    exact .done
  | succ n ih =>
    cases l with
    | nil => exact .done
    | cons c t =>
      rw [List.length_cons] at h
      rcases Nat.eq_zero_or_pos (leadingEqual c t) with hr | hr
      · have hpos := literalLength_pos hr
        rw [rleTokens_literal c t hr]
        exact .literal_head hr (ih _ (by rw [List.length_drop, List.length_cons]; omega))
      · rw [rleTokens_run c t hr]
        exact .run_head hr (ih _ (by rw [List.length_drop]; omega))

/-- The first symbol of a literal begins no run. -/
theorem leadingEqual_eq_zero_of_noRun {c : Byte} {syms rest : List Byte}
    (noRun : ∀ j, j + 1 < (c :: syms ++ rest.take 1).length → j < (c :: syms).length →
      (c :: syms ++ rest.take 1)[j]? ≠ (c :: syms ++ rest.take 1)[j + 1]?) :
    leadingEqual c (syms ++ rest) = 0 := by
  have h0 := noRun 0
  have hne : ∀ d t, syms ++ rest = d :: t → d ≠ c := by
    rintro d t hd rfl
    cases syms with
    | nil =>
      obtain rfl : rest = d :: t := hd
      simp at h0
    | cons b syms =>
      obtain rfl : b = d := (List.cons.inj hd).1
      simp at h0
  cases hs : syms ++ rest with
  | nil => rfl
  | cons d t => exact if_neg (hne d t hs)

/-- A segmentation is the list of the encoder's tokens: each of its tokens is the one the encoder makes there. -/
theorem Segmentation.eq_rleTokens {l : List Byte} {ts : List Token} (h : Segmentation l ts) :
    ts = rleTokens l.length l := by
  induction h with
  | done => rfl
  | run r c rest ts two maximal tail ih =>
    obtain ⟨r, rfl⟩ : ∃ k, r = k + 1 := ⟨r - 1, by omega⟩
    have hr := leadingEqual_replicate c r rest maximal
    have hrest : (List.replicate r c ++ rest).drop r = rest := List.drop_left' List.length_replicate
    rw [List.replicate_succ, List.cons_append, rleTokens_run c _ (by omega), hr, hrest, ← ih]
  | literal syms rest ts lower upper noRun stops tail ih =>
    cases syms with
    | nil => exact absurd lower (by decide)
    | cons c syms =>
      have hlen := literalLength_eq (c :: syms) rest Config.litCap upper noRun stops
      have hrun := leadingEqual_eq_zero_of_noRun noRun
      rw [List.cons_append] at hlen ⊢
      rw [rleTokens_literal c _ hrun, hlen, ← List.cons_append, List.take_left, List.drop_left, ← ih]

/-- Settles O18: the encoder's tokens are a segmentation, and every segmentation is the encoder's. -/
theorem rleTokensAreTheSegmentation : Obligations.RleTokensAreTheSegmentation :=
  fun input _ => ⟨Segmentation.eq_rleTokens, fun h => h ▸ segmentation_rleTokens _ input (le_refl _)⟩

/-! ## The decimal spelling (R10) -/

/-- The ASCII digit of `k`. -/
def digit (k : Nat) : Byte := BitVec.ofNat 8 (0x30 + k)

theorem digit_toNat {k : Nat} (h : k < 10) : (digit k).toNat = 0x30 + k := by
  rw [digit, BitVec.toNat_ofNat, Nat.mod_eq_of_lt (by omega)]

/-- The digits go before what is already spelt, and more fuel than the number makes no difference. -/
theorem decDigits_append {m n k : Nat} (hm : k < m) (hn : k < n) (acc acc' : List Byte) :
    decDigits m k (acc ++ acc') = decDigits n k acc ++ acc' := by
  induction m generalizing n k acc with
  | zero => omega
  | succ m ih =>
    obtain ⟨n, rfl⟩ : ∃ j, n = j + 1 := ⟨n - 1, by omega⟩
    rw [decDigits, decDigits]
    by_cases hk : k / 10 = 0
    · rw [if_pos hk, if_pos hk, List.cons_append]
    · rw [if_neg hk, if_neg hk, ← List.cons_append]
      exact ih (by omega) (by omega) _

theorem dec_of_lt {k : Nat} (h : k < 10) : dec k = [digit k] := by
  rw [dec, decDigits, if_pos (Nat.div_eq_of_lt h), Nat.mod_eq_of_lt h]
  rfl

theorem dec_of_ge {k : Nat} (h : 10 ≤ k) : dec k = dec (k / 10) ++ [digit (k % 10)] := by
  rw [dec, decDigits, if_neg (by omega)]
  exact decDigits_append (acc := []) (by omega) (by omega) _

/-- What holds of every single digit, and of a spelling with one digit more, holds of every spelling. -/
theorem dec_induction {motive : Nat → List Byte → Prop} (single : ∀ k, k < 10 → motive k [digit k])
    (more : ∀ k, 10 ≤ k → motive (k / 10) (dec (k / 10)) → motive k (dec (k / 10) ++ [digit (k % 10)])) (k : Nat) :
    motive k (dec k) := by
  induction k using Nat.strongRecOn with
  | ind k ih =>
    rcases Nat.lt_or_ge k 10 with h | h
    · rw [dec_of_lt h]
      exact single k h
    · rw [dec_of_ge h]
      exact more k h (ih (k / 10) (by omega))

theorem dec_ne_nil (k : Nat) : dec k ≠ [] :=
  dec_induction (motive := fun _ ds => ds ≠ []) (fun _ _ => List.cons_ne_nil _ _)
    (fun _ _ _ => List.append_ne_nil_of_right_ne_nil _ (List.cons_ne_nil _ _)) k

theorem digit_range {k : Nat} (h : k < 10) : 0x30 ≤ (digit k).toNat ∧ (digit k).toNat ≤ 0x39 := by
  rw [digit_toNat h]
  omega

theorem dec_digit_range (k : Nat) : ∀ d ∈ dec k, 0x30 ≤ d.toNat ∧ d.toNat ≤ 0x39 := by
  refine dec_induction (motive := fun _ ds => ∀ d ∈ ds, 0x30 ≤ d.toNat ∧ d.toNat ≤ 0x39) (fun k h => ?_)
    (fun k h ih => ?_) k
  · exact List.forall_mem_singleton.2 (digit_range h)
  · exact List.forall_mem_append.2 ⟨ih, List.forall_mem_singleton.2 (digit_range (Nat.mod_lt k (by decide)))⟩

/-- The value of a list of digits, most significant first. -/
def decValue (ds : List Byte) : Nat := ds.foldl (fun n d => 10 * n + (d.toNat - 0x30)) 0

theorem decValue_append_digit (ds : List Byte) {k : Nat} (h : k < 10) :
    decValue (ds ++ [digit k]) = 10 * decValue ds + k := by
  rw [decValue, List.foldl_concat, digit_toNat h, Nat.add_sub_cancel_left]
  rfl

theorem decValue_dec (k : Nat) : decValue (dec k) = k := by
  refine dec_induction (motive := fun k ds => decValue ds = k) (fun k h => ?_) (fun k h ih => ?_) k
  · exact (decValue_append_digit [] h).trans (Nat.zero_add k)
  · rw [decValue_append_digit _ (Nat.mod_lt k (by decide)), ih]
    exact Nat.div_add_mod k 10

/-- Only 0 is spelt with the digit 0 in front. -/
theorem eq_zero_of_head_dec (k : Nat) : (dec k).head? = some 0x30 → k = 0 := by
  refine dec_induction (motive := fun k ds => ds.head? = some 0x30 → k = 0) (fun k h hd => ?_)
    (fun k h ih hd => ?_) k
  · have hval : (digit k).toNat = 0x30 := congrArg BitVec.toNat (Option.some.inj hd)
    rw [digit_toNat h] at hval
    omega
  · rw [List.head?_append_of_ne_nil _ (dec_ne_nil _)] at hd
    have := ih hd
    omega

/-! ## The spellings joined (R123, R124) -/

theorem joinTokens_eq_intercalate (ts : List Token) :
    joinTokens ts = [0x2C, 0x20].intercalate (ts.map spellToken) := by
  induction ts with
  | nil => rfl
  | cons t ts ih =>
    cases ts with
    | nil => simp [joinTokens]
    | cons u ts =>
      simp only [joinTokens, ih, List.map_cons, List.intercalate_cons_cons]

/-- Settles O19: a segmentation is the encoder's tokens (O18), and the digits of a number are one digit alone, or those
of its tenth part and one digit more. -/
theorem rleTokensAreSpelledAndJoined : Obligations.RleTokensAreSpelledAndJoined := by
  refine ⟨fun input ts hseg => ?_, fun k => ⟨dec_ne_nil k, dec_digit_range k, decValue_dec k, fun hd => ?_⟩⟩
  · rw [rleEncode, ← hseg.eq_rleTokens, joinTokens_eq_intercalate]
    refine congrArg _ (List.map_congr_left fun t _ => ?_)
    cases t <;> rfl
  · rw [eq_zero_of_head_dec k hd]
    rfl

/-! ## The size of the encoded string (R127) -/

/-- Settles O20: each token takes at most seven bytes for each symbol, its separator included. -/
theorem rleOutputFitsTheBuffer : Obligations.RleOutputFitsTheBuffer := by
  refine ⟨rfl, fun input h1 h256 => ?_⟩
  have hlen := length_rleEncode_le h1 (by omega)
  omega

/-! ## What the command writes (R126, R129) -/

theorem getElem_padTo {n b : Nat} {bytes : List Byte} (hb : b < (padTo n bytes).length) :
    (padTo n bytes)[b] = (bytes[b]?).getD 0 := by
  simp only [padTo, List.getElem_append, List.getElem_replicate]
  split
  · next h => rw [List.getElem?_eq_getElem h, Option.getD_some]
  · next h => rw [List.getElem?_eq_none (Nat.le_of_not_lt h), Option.getD_none]

theorem exec_rleEnc_long {s : State} (h : 256 < s.inputLength) : exec .rleEnc s = .next (s.completedWith .eLen) :=
  exec_next_iff.2 (congrArg complete (runRleEnc_long h)).symm

/-- The completed state of a successful `RLE_ENC`. -/
theorem exec_rleEnc_ok {s : State} (h : s.inputLength ≤ 256) : exec .rleEnc s =
    .next { (s.fill .outbuf (padTo Config.outBytes (rleEncode s.input))).completedWith .ok with
      outLen := BitVec.ofNat 16 (rleEncode s.input).length } :=
  exec_next_iff.2 (congrArg complete (runRleEnc_ok h)).symm

/-- Settles O17: the length is the only thing the command checks. -/
theorem rleEncReportsOnlyLengthErrors : Obligations.RleEncReportsOnlyLengthErrors :=
  fun _ => ⟨exec_rleEnc_long, fun h => ⟨_, exec_rleEnc_ok h, rfl⟩⟩

/-- Settles O16: the command fills `OUTBUF` with the padded string, whose length fits `OUT_LEN` (R127), and keeps the
frame of the run-length encoder. -/
theorem rleEncWritesTheEncodedString : Obligations.RleEncWritesTheEncodedString := by
  intro s h
  have hexec := exec_rleEnc_ok h
  have hlen := length_rleEncode_input h
  have hpad : (padTo Config.outBytes (rleEncode s.input)).length = 2048 :=
    length_padTo (le_trans hlen (by decide))
  obtain ⟨hhuf, harc, hbytes⟩ := rleFrame_exec (by decide) hexec
  have hkept : InterfaceUnchanged s _ := exec_next_iff.1 hexec ▸ interface_complete (interface_rleEnc s)
  refine ⟨_, hexec, ⟨rfl, rfl, rfl⟩, ?_, fun b hb => ?_, hkept, hhuf, harc, hbytes⟩
  · exact Nat.mod_eq_of_lt (by omega)
  · exact (fill_outByte _ s (hpad.symm ▸ hb) hb).trans (getElem_padTo _)

end Sys2Proof.Machine
end

section
/-! SUPPORT. The primitive commands of the Huffman engine: their errors, what each writes and what it leaves unchanged, and
the two smallest keys of every merge (42_huffman.md, R141 to R149). -/
namespace Sys2Proof.Machine

/-! ## A command that fails, and one that succeeds -/

theorem exec_of_run_fail {i : Instr} {s : State} {code : ErrCode} (h : runOf i s = fail code s) :
    exec i s = .next (s.completedWith code) :=
  exec_next_iff.2 (congrArg complete h).symm

theorem exec_of_run_succeed {i : Instr} {s u : State} (h : runOf i s = succeed u) :
    exec i s = .next (u.completedWith .ok) :=
  exec_next_iff.2 (congrArg complete h).symm

/-- What no command of the Huffman engine writes: the interface, `OUT_LEN` and the registers of the arithmetic coder. -/
theorem huffman_unchanged {i : Instr} {s t : State} (hi : i ∈ [Instr.hufFreq, .hufBuild, .hufCodes, .hufEnc, .hufAll])
    (h : exec i s = .next t) : t.outLen = s.outLen ∧ InterfaceUnchanged s t ∧ ArithRegistersUnchanged s t := by
  obtain ⟨hout, harith, -⟩ := huffmanFrame_exec hi h
  exact ⟨hout, exec_next_iff.1 h ▸ interface_complete (interface_runOf i s), harith⟩

/-! ## `HUF_FREQ` (R141) -/

/-- Settles O21: the table holds the counts of the input, and only its window is written. -/
theorem hufFreqTabulatesTheCounts : Obligations.HufFreqTabulatesTheCounts := by
  refine ⟨decode_encode .hufFreq, fun s => ⟨fun h => exec_of_run_fail (runHufFreq_long h), fun h => ?_⟩⟩
  have hrun := runHufFreq_ok h
  have hexec := exec_of_run_succeed (i := .hufFreq) hrun
  obtain ⟨hout, hinterface, harith⟩ := huffman_unchanged (by decide) hexec
  have htotal := hufFreq_total h
  rw [hrun] at htotal
  refine ⟨_, hexec, ⟨rfl, rfl, rfl⟩, fun c => ?_, htotal, rfl, rfl, rfl, rfl, rfl, rfl, hout, hinterface, harith,
    fun a ha => fill_byteAt_outside_bank .hufFreq _ s ha⟩
  exact (fill_counts_hufFreqAt s s h c.isLt).trans (congrArg s.input.count (ofNat_toNat_byte c))

/-! ## `HUF_BUILD` (R142 to R146) -/

theorem length_huffmanNodes_symbols (freq : Nat → BitVec 16) :
    (huffmanNodes freq).length = 2 * (symbolsOf freq).length - 1 := by
  rw [length_huffmanNodes, leavesOf_eq, List.length_map]

theorem length_flatMap_nodeBytes (nodes : List Node) : (nodes.flatMap nodeBytes).length = 8 * nodes.length := by
  rw [nodeBytes_table, length_tableBytes, length_nodeWords]
  omega

/-- Besides the registers that count the tree: no key stays active, and of the memories the valid node entries alone are
written (R45, R145). -/
theorem runHufBuild_frame {s : State} (h : s.hufStage ≠ .none) : (runHufBuild s).state.active = [] ∧
    (runHufBuild s).state.hufBitLen = 0 ∧
    BytesUnchangedOutside 0x4000 (0x4000 + 8 * (2 * (symbolsOf s.hufFreqAt).length - 1)) s (runHufBuild s).state := by
  rw [runHufBuild_ok h]
  refine ⟨rfl, rfl, fun a ha => fill_byteAt_outside .hufNode _ s ?_⟩
  rwa [length_flatMap_nodeBytes, length_huffmanNodes_symbols]

/-- Settles O22: the node table of the merge loop is written entry by entry from the start of its window. -/
theorem hufBuildWritesTheNodeTable : Obligations.HufBuildWritesTheNodeTable := by
  refine ⟨decode_encode .hufBuild, fun s => ⟨fun h => exec_of_run_fail (runHufBuild_early h), fun h => ?_⟩⟩
  have hexec := exec_eq_complete .hufBuild s
  obtain ⟨hcode, -, hleaf, hcount, hroot, hnode, hstage⟩ := runHufBuild_state h
  obtain ⟨hactive, hbits, hbytes⟩ := runHufBuild_frame h
  obtain ⟨hout, hinterface, harith⟩ := huffman_unchanged (by decide) hexec
  exact ⟨_, hexec, ⟨rfl, rfl, hcode⟩, hleaf, hcount, hroot, length_huffmanNodes_symbols _, hnode, hstage, hbits, hactive,
    hout, hinterface, harith, fun a ha => (byteAt_complete _ a).trans (hbytes a ha)⟩

/-- Node `j` is free when node `i` is made: it is older, and no node older than `i` is its parent (R145). -/
def FreeAt (L : Nat) (node : Nat → Node) (i j : Nat) : Prop :=
  j < i ∧ ∀ k e, L ≤ k → k < i → (node k).child e ≠ j

section Merged
variable {L : Nat} {node : Nat → Node} {i : Nat} (t : IsTree L node) (h1 : L ≤ i) (h2 : i < 2 * L - 1)
include t h1 h2

theorem IsTree.child_freeAt (e : Bool) : FreeAt L node i ((node i).child e) :=
  ⟨(t.inner i h1 h2).2 e, fun k d hk hki hd => by
    have := (t.oneParent k i d e hk (by omega) h1 h2 hd).1
    omega⟩

theorem IsTree.children_ne : (node i).child false ≠ (node i).child true := fun h =>
  Bool.false_ne_true (t.oneParent i i false true h1 h2 h1 h2 h).2

/-- A free node becomes the child of node `i` or of a younger one. -/
theorem IsTree.parent_of_freeAt {j : Nat} (hj : FreeAt L node i j) :
    ∃ k e, i ≤ k ∧ k < 2 * L - 1 ∧ (node k).child e = j := by
  obtain ⟨hlt, hfree⟩ := hj
  obtain ⟨k, e, hk, hk2, hkj⟩ := t.parent j (by omega)
  exact ⟨k, e, Nat.le_of_not_lt fun hki => hfree k e hk hki hkj, hk2, hkj⟩

/-- The right child of node `i` has a smaller key than every free node but the two children: those are extracted at later
merges (R143). -/
theorem IsMerged.right_before (m : IsMerged L node) {j : Nat} (hj : FreeAt L node i j) (hl : j ≠ (node i).child false)
    (hr : j ≠ (node i).child true) : (nodeKey node ((node i).child true)).before (nodeKey node j) = true := by
  obtain ⟨k, e, hik, hk, rfl⟩ := t.parent_of_freeAt h1 h2 hj
  have hne : i ≠ k := by
    rintro rfl
    cases e
    · exact hl rfl
    · exact hr rfl
  have hacross := m.across i k h1 (by omega) hk
  cases e with
  | false => exact hacross
  | true => exact MergeKey.before_trans hacross (m.within k (by omega) hk)

/-- The left child of node `i` has a smaller key than every other free node (R143, R144). -/
theorem IsMerged.left_before (m : IsMerged L node) {j : Nat} (hj : FreeAt L node i j) (hl : j ≠ (node i).child false) :
    (nodeKey node ((node i).child false)).before (nodeKey node j) = true := by
  have hwithin := m.within i h1 h2
  by_cases hr : j = (node i).child true
  · exact hr ▸ hwithin
  · exact MergeKey.before_trans hwithin (m.right_before t h1 h2 hj hl hr)

end Merged

/-- The valid entries of the node table are the nodes that the merge loop makes of the frequency table (R145). -/
def State.HoldsNodes (s : State) : Prop :=
  ∀ i, (h : i < (huffmanNodes s.hufFreqAt).length) → s.hufNodeAt i = (huffmanNodes s.hufFreqAt)[i]

/-- A valid tree that the merge loop made holds its nodes in the order of extraction. -/
theorem State.TreeValid.merged {s : State} (h : s.TreeValid) (hn : s.HoldsNodes) (hT : s.hufFreqTotal ≤ 256) :
    IsMerged s.hufNLeaf.toNat s.hufNodeAt := by
  have hleaf : s.hufNLeaf.toNat = (symbolsOf s.hufFreqAt).length := h.leafCount
  rw [hleaf]
  exact (node_isMerged hn (hT.trans_lt (by decide))).1

/-- `HUF_BUILD` on a table with a total of at most 256 leaves a valid tree made by the merge loop (R49, R145). -/
theorem runHufBuild_tree {s : State} (h : s.hufStage ≠ .none) (hT : s.hufFreqTotal ≤ 256) :
    (runHufBuild s).state.TreeValid ∧ (runHufBuild s).state.HoldsNodes := by
  obtain ⟨-, hfreq, hleaf, hcount, hroot, hnode, -⟩ := runHufBuild_state h
  have htotal := (hufFreqTotal_of_freq hfreq).trans_le hT
  rw [← hfreq] at hleaf hcount hroot hnode
  exact ⟨treeValid_of_nodes htotal hleaf hcount hroot hnode, hnode⟩

/-- Settles O23: in the tree of the merge loop a node's children are extracted before every node that is free then. -/
theorem hufBuildMergesTheTwoSmallestKeys : Obligations.HufBuildMergesTheTwoSmallestKeys := by
  intro s hs hT
  obtain ⟨hcode, hfreq, -⟩ := runHufBuild_state hs
  obtain ⟨hvalid, hnodes⟩ := runHufBuild_tree hs hT
  have hmerged := hvalid.merged hnodes ((hufFreqTotal_of_freq hfreq).trans_le hT)
  have htree := treeValid_isTree hvalid
  refine ⟨_, exec_eq_complete .hufBuild s, ⟨rfl, rfl, hcode⟩, hvalid.of_reads ⟨rfl, rfl, rfl, rfl, rfl⟩,
    congrFun hfreq, fun i h1 hcount => ?_⟩
  have h2 := hcount.trans_eq hvalid.nodeCount
  exact ⟨htree.child_freeAt h1 h2 false, htree.child_freeAt h1 h2 true, htree.children_ne h1 h2, fun j hj hl =>
    ⟨hmerged.left_before htree h1 h2 hj hl, hmerged.right_before htree h1 h2 hj hl⟩⟩

/-! ## `HUF_CODES` (R147) -/

theorem runHufCodes_early {s : State} (h : s.hufStage.toNat < 2) : runHufCodes s = fail .eSeq s := if_pos h

theorem runHufCodes_long {s : State} (h : 2 ≤ s.hufStage.toNat) (hlong : ∃ code ∈ s.codesOfTree, 32 < codeLength code) :
    runHufCodes s = fail .eCodelen s :=
  (if_neg (Nat.not_lt.2 h)).trans (if_pos (by simpa using hlong))

theorem runHufCodes_ok {s : State} (h : 2 ≤ s.hufStage.toNat) (hle : ∀ code ∈ s.codesOfTree, codeLength code ≤ 32) :
    runHufCodes s = succeed { (s.fill .hufClen (numberBytes (s.codesOfTree.map codeLength))).fill .hufCode
        (numberBytes (s.codesOfTree.map codeWord)) with
      hufStage := .codes, hufBitLen := 0 } :=
  (if_neg (Nat.not_lt.2 h)).trans (if_neg (by simpa using hle))

/-- Writing the two code tables changes no byte outside their windows, which stand side by side (R61). -/
theorem fill_codeTables_byteAt (lens codes : List Byte) (s : State) {a : Nat} (ha : ¬(0x800 ≤ a ∧ a < 0x1000)) :
    ((s.fill .hufClen lens).fill .hufCode codes).byteAt a = s.byteAt a :=
  (fill_byteAt_outside_bank .hufCode codes _ fun h => ha ⟨h.1, h.2.trans (by decide)⟩).trans
    (fill_byteAt_outside_bank .hufClen lens s fun h => ha ⟨le_trans (by decide) h.1, h.2⟩)

/-- What a successful `HUF_CODES` leaves in the code tables (R147). -/
theorem runHufCodes_tables {s : State} (h : 2 ≤ s.hufStage.toNat) (hle : ∀ code ∈ s.codesOfTree, codeLength code ≤ 32)
    (c : Byte) : ((runHufCodes s).state.hufClenAt c.toNat).toNat = codeLength (s.treeCode c) ∧
      ((runHufCodes s).state.hufCodeAt c.toNat).toNat = codeWord (s.treeCode c) ∧
      (runHufCodes s).state.codeBits c = (s.treeCode c).getD [] := by
  obtain ⟨-, -, -, hcode, hclen⟩ := runHufCodes_state (congrArg Result.code (runHufCodes_ok h hle))
  exact tables_of_codes hle hclen hcode c

/-- Of the memories `HUF_CODES` writes the two code tables alone (R147). The state with both written is a long term, so
the proof names it `u`. -/
theorem runHufCodes_frame {s : State} (h : 2 ≤ s.hufStage.toNat) (hle : ∀ code ∈ s.codesOfTree, codeLength code ≤ 32) :
    (runHufCodes s).state.active = s.active ∧ BytesUnchangedOutside 0x800 0x1000 s (runHufCodes s).state := by
  rw [runHufCodes_ok h hle]
  have hfill := fun a => fill_codeTables_byteAt (numberBytes (s.codesOfTree.map codeLength))
    (numberBytes (s.codesOfTree.map codeWord)) s (a := a)
  have hactive := (fill_active .hufCode (numberBytes (s.codesOfTree.map codeWord)) _).trans
    (fill_active .hufClen (numberBytes (s.codesOfTree.map codeLength)) s)
  generalize (s.fill .hufClen (numberBytes (s.codesOfTree.map codeLength))).fill .hufCode
    (numberBytes (s.codesOfTree.map codeWord)) = u at hfill hactive ⊢
  exact ⟨hactive, hfill⟩

/-- Settles O24: the two tables are written with the lengths and the values of the codes of the tree. -/
theorem hufCodesWritesTheCodeTable : Obligations.HufCodesWritesTheCodeTable := by
  refine ⟨decode_encode .hufCodes, fun s => ⟨fun h => exec_of_run_fail (runHufCodes_early h),
    fun h hlong => exec_of_run_fail (runHufCodes_long h hlong), fun h hle => ?_⟩⟩
  have hexec := exec_eq_complete .hufCodes s
  have hcode := congrArg Result.code (runHufCodes_ok h hle)
  obtain ⟨hkept, hstage, hbits, -, -⟩ := runHufCodes_state hcode
  obtain ⟨hactive, hbytes⟩ := runHufCodes_frame h hle
  obtain ⟨hout, hinterface, harith⟩ := huffman_unchanged (by decide) hexec
  refine ⟨_, hexec, ⟨rfl, rfl, hcode⟩, fun c => ?_, hstage, hbits, hkept.nLeaf, hkept.nNode, hkept.root, hactive, hout,
    hinterface, harith, fun a ha => (byteAt_complete _ a).trans (hbytes a ha)⟩
  rw [codesOfTree_getD]
  exact runHufCodes_tables h hle c

/-! ## `HUF_ENC` (R149, R204) -/

theorem runHufEnc_early {s : State} (h : s.hufStage.toNat < 3) : runHufEnc s = fail .eSeq s := if_pos h

section Enc
variable {s : State} (h : 3 ≤ s.hufStage.toNat)
include h

theorem runHufEnc_long (hn : 256 < s.inputLength) : runHufEnc s = fail .eLen s :=
  (if_neg (Nat.not_lt.2 h)).trans (if_pos hn)

variable (hn : s.inputLength ≤ 256)
include hn

theorem runHufEnc_uncoded (hno : ∃ c ∈ s.input, s.hufClenAt c.toNat = 0) : runHufEnc s = fail .eAlphabet s :=
  (if_neg (Nat.not_lt.2 h)).trans ((if_neg (Nat.not_lt.2 hn)).trans (if_pos (by simpa using hno)))

variable (hcoded : ∀ c ∈ s.input, s.hufClenAt c.toNat ≠ 0)
include hcoded

theorem runHufEnc_overflow (hover : 2048 < s.encodedLength) : runHufEnc s = fail .eOverflow s :=
  (if_neg (Nat.not_lt.2 h)).trans ((if_neg (Nat.not_lt.2 hn)).trans ((if_neg (by simpa using hcoded)).trans (if_pos hover)))

theorem runHufEnc_ok (hfits : s.encodedLength ≤ 2048) :
    runHufEnc s = succeed { s.fill .hbuf (packBits Config.hbufBytes s.encodedBits) with
      hufBitLen := BitVec.ofNat 16 s.encodedLength, hufStage := .enc } :=
  (if_neg (Nat.not_lt.2 h)).trans ((if_neg (Nat.not_lt.2 hn)).trans ((if_neg (by simpa using hcoded)).trans
    (if_neg (Nat.not_lt.2 hfits))))

end Enc

/-- Settles O26: each check is made only when the checks before it have passed. -/
theorem hufEncErrorsInOrder : Obligations.HufEncErrorsInOrder :=
  fun _ => ⟨fun h => exec_of_run_fail (runHufEnc_early h), fun h hn => exec_of_run_fail (runHufEnc_long h hn),
    fun h hn hno => exec_of_run_fail (runHufEnc_uncoded h hn hno),
    fun h hn hcoded hover => exec_of_run_fail (runHufEnc_overflow h hn hcoded hover)⟩

/-- Settles O25: `HBUF` is overwritten as a whole with the packed bitstring, whose length fits `HUF_BITLEN`. -/
theorem hufEncWritesTheBitstring : Obligations.HufEncWritesTheBitstring := by
  intro s h hn hcoded hfits
  have hexec := exec_of_run_succeed (i := .hufEnc) (runHufEnc_ok h hn hcoded hfits)
  obtain ⟨hout, hinterface, harith⟩ := huffman_unchanged (by decide) hexec
  exact ⟨_, hexec, ⟨rfl, rfl, rfl⟩, fun j hj => fill_hbufBit _ s hj, length_encodedBits s,
    Nat.mod_eq_of_lt (hfits.trans_lt (by decide)), rfl, rfl, rfl, rfl, rfl, hout, hinterface, harith,
    fun a ha => fill_byteAt_outside_bank .hbuf _ s ha⟩

end Sys2Proof.Machine
end

section
/-! SUPPORT. `HUF_ALL` on a legal input: what each of its primitives adds (R152), the bounds of the codes (R150, R151), the
properties of R153, and all the transitions of the stage (R154). -/
namespace Sys2Proof.Machine

/-! ## What the primitives of `HUF_ALL` have written so far -/

/-- `t` holds the counts of the input of `s`, which it still shows. -/
structure Counted (s t : State) : Prop where
  interface : InterfaceUnchanged s t
  counts : ∀ c : Byte, (t.hufFreqAt c.toNat).toNat = s.input.count c
  total : t.hufFreqTotal = s.inputLength

/-- `t` holds the tree of its counts too. -/
structure TreeBuilt (s t : State) : Prop extends Counted s t where
  tree : t.TreeValid
  nodes : t.HoldsNodes

/-- `t` holds the codes of its tree too. -/
structure Coded (s t : State) : Prop extends TreeBuilt s t where
  clen : ∀ c : Byte, (t.hufClenAt c.toNat).toNat = codeLength (t.treeCode c)
  code : ∀ c : Byte, (t.hufCodeAt c.toNat).toNat = codeWord (t.treeCode c)
  bits : ∀ c : Byte, t.codeBits c = (t.treeCode c).getD []

/-- `t` holds the bitstring of its codes too. -/
structure Encoded (s t : State) : Prop extends Coded s t where
  bitLen : t.hufBitLen.toNat = t.encodedLength
  hbuf : ∀ j, j < 2048 → t.hbufBit j = t.encodedBits[j]?.getD false

theorem Counted.input {s t : State} (h : Counted s t) : t.input = s.input :=
  input_congr h.interface.inLen h.interface.inbuf h.interface.resets

theorem Counted.inputLength {s t : State} (h : Counted s t) : t.inputLength = s.inputLength :=
  congrArg BitVec.toNat h.interface.inLen

theorem Counted.freq_pos {s t : State} (h : Counted s t) {c : Byte} (hc : c ∈ s.input) :
    0 < (t.hufFreqAt c.toNat).toNat :=
  (List.count_pos_iff.2 hc).trans_eq (h.counts c).symm

theorem treeCode_of_reads {s t : State} (k : TreeReadsUnchanged s t) : t.treeCode = s.treeCode := by
  unfold State.treeCode
  rw [k.nLeaf, k.root, k.node]

theorem State.HoldsNodes.of_reads {s t : State} (h : s.HoldsNodes) (k : TreeReadsUnchanged s t) : t.HoldsNodes := by
  unfold State.HoldsNodes
  rw [k.freq, k.node]
  exact h

theorem TreeBuilt.of_kept {s t u : State} (h : TreeBuilt s t) (k : TreeKept t u) : TreeBuilt s u where
  interface := h.interface.trans k.interface
  counts := by
    rw [k.reads.freq]
    exact h.counts
  total := (hufFreqTotal_of_freq k.reads.freq).trans h.total
  tree := h.tree.of_reads k.reads
  nodes := h.nodes.of_reads k.reads

/-- What `HUF_ENC` and the completion write leave unchanged: the code tables too. -/
structure CodesKept (s t : State) : Prop extends TreeKept s t where
  code : t.hufCodeAt = s.hufCodeAt
  clen : t.hufClenAt = s.hufClenAt

theorem codesKept_complete (r : Result) : CodesKept r.state (complete r) :=
  ⟨⟨interface_complete (.refl _), rfl, rfl, rfl, rfl, rfl⟩, hufCodeAt_congr rfl rfl, hufClenAt_congr rfl rfl⟩

section Kept
variable {s t : State} (k : CodesKept s t)
include k

theorem CodesKept.codeBits : t.codeBits = s.codeBits := by
  unfold State.codeBits
  rw [k.clen, k.code]

theorem CodesKept.input : t.input = s.input :=
  input_congr k.interface.inLen k.interface.inbuf k.interface.resets

theorem CodesKept.encodedLength : t.encodedLength = s.encodedLength := by
  unfold State.encodedLength
  rw [k.input, k.clen]

theorem CodesKept.encodedBits : t.encodedBits = s.encodedBits := by
  unfold State.encodedBits
  rw [k.input, k.codeBits]

end Kept

theorem Coded.of_kept {s t u : State} (h : Coded s t) (k : CodesKept t u) : Coded s u := by
  have htree := treeCode_of_reads k.reads
  refine ⟨h.toTreeBuilt.of_kept k.toTreeKept, ?_, ?_, ?_⟩
  · rw [k.clen, htree]
    exact h.clen
  · rw [k.code, htree]
    exact h.code
  · rw [k.codeBits, htree]
    exact h.bits

/-! ## The bounds of the codes (R150, R151) -/

/-- At most one symbol occurs: then no code has more than one bit (R148). -/
theorem codeLength_treeCode_le_one {s : State} (h : s.hufNLeaf.toNat ≤ 1) (c : Byte) : codeLength (s.treeCode c) ≤ 1 := by
  rcases Nat.lt_or_ge s.hufNLeaf.toNat 1 with h0 | h1
  · rw [treeCode_empty (by omega)]
    exact Nat.zero_le 1
  · rw [treeCode_single (by omega)]
    split
    · exact le_refl 1
    · exact Nat.zero_le 1

/-- A legal input has no code of more than 11 bits (R151). -/
theorem TreeBuilt.codeLength_le {s t : State} (h : TreeBuilt s t) (hn : s.inputLength ≤ 256) (c : Byte) :
    codeLength (t.treeCode c) ≤ 11 := by
  have hT : t.hufFreqTotal ≤ 256 := h.total.trans_le hn
  rcases Nat.lt_or_ge 1 t.hufNLeaf.toNat with h2 | h1
  · cases hw : t.treeCode c with
    | none => exact Nat.zero_le 11
    | some w =>
      obtain ⟨j, -, -, hpath⟩ := (treeCode_iff h.tree h2 c w).1 hw
      have hroot := h.tree.rootFreq (by omega)
      rw [h.tree.rootIndex] at hroot
      exact (h.tree.merged h.nodes hT).depth_le (treeValid_isTree h.tree) (by omega) (hroot.trans_le hT) hpath
  · exact (codeLength_treeCode_le_one h1 c).trans (by decide)

theorem Coded.encodedLength_eq {s t : State} (h : Coded s t) :
    t.encodedLength = (s.input.map fun c => (t.hufClenAt c.toNat).toNat).sum := by
  rw [State.encodedLength, h.input]

/-- The bitstring takes at most eight bits a symbol (R150). -/
theorem Coded.encodedLength_le {s t : State} (h : Coded s t) (hn : s.inputLength ≤ 256) :
    t.encodedLength ≤ 8 * s.inputLength := by
  have hlen := length_input s
  rw [h.encodedLength_eq]
  simp only [h.clen]
  rw [← hlen]
  exact treeCode_cost h.tree h.counts h.nodes (h.total.trans hlen.symm) (hlen.trans_le hn)

/-- Every input symbol has a code, and it is not empty (R149, R153). -/
theorem TreeBuilt.exists_code {s t : State} (h : TreeBuilt s t) {c : Byte} (hc : c ∈ s.input) :
    ∃ w, t.treeCode c = some w ∧ w ≠ [] := by
  obtain ⟨w, hw⟩ := (treeCode_isSome_iff h.tree c).2 (h.freq_pos hc)
  exact ⟨w, hw, treeCode_ne_nil h.tree hw⟩

theorem Coded.clen_ne_zero {s t : State} (h : Coded s t) {c : Byte} (hc : c ∈ s.input) : t.hufClenAt c.toNat ≠ 0 := by
  obtain ⟨w, hw, hne⟩ := h.exists_code hc
  have hlen := h.clen c
  rw [hw] at hlen
  intro h0
  rw [h0] at hlen
  exact hne (List.length_eq_zero_iff.1 hlen.symm)

/-! ## The primitives one after another (R152) -/

theorem counted_hufFreq {s : State} (hn : s.inputLength ≤ 256) :
    (runHufFreq s).code = .ok ∧ (runHufFreq s).state.hufStage = .freq ∧ Counted s (runHufFreq s).state := by
  have hrun := runHufFreq_ok hn
  exact ⟨congrArg Result.code hrun, congrArg (fun r => r.state.hufStage) hrun, interface_hufFreq s,
    fun c => (hufFreq_counts hn c.isLt).trans (congrArg s.input.count (ofNat_toNat_byte c)), hufFreq_total hn⟩

theorem treeBuilt_hufBuild {s u : State} (h : Counted s u) (hn : s.inputLength ≤ 256) (hstage : u.hufStage ≠ .none) :
    (runHufBuild u).code = .ok ∧ (runHufBuild u).state.hufStage = .tree ∧ TreeBuilt s (runHufBuild u).state := by
  obtain ⟨hcode, hfreq, -, -, -, -, htree⟩ := runHufBuild_state hstage
  obtain ⟨hvalid, hnodes⟩ := runHufBuild_tree hstage (h.total.trans_le hn)
  exact ⟨hcode, htree, ⟨h.interface.trans (interface_hufBuild u), hfreq.symm ▸ h.counts,
    (hufFreqTotal_of_freq hfreq).trans h.total⟩, hvalid, hnodes⟩

theorem coded_hufCodes {s u : State} (h : TreeBuilt s u) (hn : s.inputLength ≤ 256) (hstage : 2 ≤ u.hufStage.toNat) :
    (runHufCodes u).code = .ok ∧ (runHufCodes u).state.hufStage = .codes ∧ Coded s (runHufCodes u).state := by
  have hle : ∀ code ∈ u.codesOfTree, codeLength code ≤ 32 := fun code hcode => by
    obtain ⟨c, rfl⟩ := (mem_codesOfTree u code).1 hcode
    exact (h.codeLength_le hn c).trans (by decide)
  have hok := congrArg Result.code (runHufCodes_ok hstage hle)
  obtain ⟨hkept, hcodes, -, -, -⟩ := runHufCodes_state hok
  have htables := runHufCodes_tables hstage hle
  rw [← treeCode_of_reads hkept.reads] at htables
  exact ⟨hok, hcodes, h.of_kept hkept, fun c => (htables c).1, fun c => (htables c).2.1, fun c => (htables c).2.2⟩

theorem encoded_hufEnc {s u : State} (h : Coded s u) (hn : s.inputLength ≤ 256) (hstage : 3 ≤ u.hufStage.toNat) :
    (runHufEnc u).code = .ok ∧ (runHufEnc u).state.hufStage = .enc ∧ Encoded s (runHufEnc u).state := by
  have hlen := h.encodedLength_le hn
  have hok := congrArg Result.code (runHufEnc_ok hstage (h.inputLength.trans_le hn)
    (fun c hc => h.clen_ne_zero (h.input ▸ hc)) (by omega))
  obtain ⟨htree, henc, hbitlen, hcode, hclen, hbuf⟩ := runHufEnc_state hok
  have hkept : CodesKept u (runHufEnc u).state := ⟨htree, hcode, hclen⟩
  refine ⟨hok, henc, h.of_kept hkept, ?_, fun j hj => ?_⟩
  · rw [hbitlen, hkept.encodedLength]
    exact Nat.mod_eq_of_lt (by omega)
  · rw [State.hbufBit, hbuf, hkept.encodedBits]
    exact fill_hbufBit u.encodedBits u hj

theorem runHufAll_long {s : State} (h : 256 < s.inputLength) : runHufAll s = fail .eLen s := by
  have hfreq := runHufFreq_long h
  rw [runHufAll, compound_cons_error (by rw [hfreq]; nofun), hfreq]

/-- `HUF_ALL` succeeds on every legal input, and leaves its encoding (R152). -/
theorem encoded_hufAll {s : State} (hn : s.inputLength ≤ 256) :
    (runHufAll s).code = .ok ∧ (runHufAll s).state.hufStage = .enc ∧ Encoded s (runHufAll s).state := by
  obtain ⟨hfreq, hstage1, hcounted⟩ := counted_hufFreq hn
  obtain ⟨hbuild, hstage2, hbuilt⟩ := treeBuilt_hufBuild hcounted hn (by rw [hstage1]; decide)
  obtain ⟨hcodes, hstage3, hcoded⟩ := coded_hufCodes hbuilt hn (by rw [hstage2]; decide)
  obtain ⟨henc, hstage4, hencoded⟩ := encoded_hufEnc hcoded hn (by rw [hstage3]; decide)
  rw [runHufAll, compound_cons_ok hfreq, compound_cons_ok hbuild, compound_cons_ok hcodes, compound_cons_ok henc]
  exact ⟨rfl, hstage4, hencoded⟩

/-- The completion write changes nothing of an encoding (R111). -/
theorem Encoded.complete {s : State} {r : Result} (h : Encoded s r.state) : Encoded s (complete r) where
  toCoded := h.toCoded.of_kept (codesKept_complete r)
  bitLen := h.bitLen.trans (codesKept_complete r).encodedLength.symm
  hbuf := (codesKept_complete r).encodedBits ▸ h.hbuf

theorem exec_hufAll_legal {s : State} (hn : s.inputLength ≤ 256) :
    ∃ t, exec .hufAll s = .next t ∧ CompletedWith .ok t ∧ t.hufStage = .enc ∧ Encoded s t := by
  obtain ⟨hcode, hstage, henc⟩ := encoded_hufAll hn
  exact ⟨_, exec_eq_complete .hufAll s, ⟨rfl, rfl, hcode⟩, hstage, henc.complete⟩

/-- `HUF_ALL` reports `OK` on a legal input only, and then leaves its encoding. -/
theorem encoded_of_exec_hufAll {s t : State} (h : exec .hufAll s = .next t) (hok : t.err = .ok) :
    s.inputLength ≤ 256 ∧ Encoded s t := by
  obtain rfl := exec_next_iff.1 h
  rcases Nat.lt_or_ge 256 s.inputLength with hn | hn
  · have herr : (runHufAll s).code = .ok := hok
    rw [runHufAll_long hn] at herr
    cases herr
  · exact ⟨hn, (encoded_hufAll hn).2.2.complete⟩

/-- Settles O27: each primitive finds what the one before it left, and the bounds of the codes keep `HUF_CODES` and
`HUF_ENC` from their errors. -/
theorem hufAllSucceedsOnEveryLegalInput : Obligations.HufAllSucceedsOnEveryLegalInput := by
  refine fun s => ⟨fun hn => exec_of_run_fail (runHufAll_long hn), fun hn => ?_⟩
  obtain ⟨t, hexec, hdone, hstage, henc⟩ := exec_hufAll_legal hn
  exact ⟨t, hexec, hdone, hstage, henc.counts, fun c => (henc.clen c).trans_le (henc.codeLength_le hn c),
    henc.bitLen.trans henc.encodedLength_eq, henc.bitLen.trans_le (henc.encodedLength_le hn)⟩

/-! ## One distinct symbol (R148) -/

/-- Every input symbol has a leaf. -/
theorem TreeBuilt.exists_leaf {s t : State} (h : TreeBuilt s t) {c : Byte} (hc : c ∈ s.input) :
    ∃ j, j < t.hufNLeaf.toNat ∧ (t.hufNodeAt j).sym = c :=
  (treeValid_leaf_iff h.tree c).2 (h.freq_pos hc)

/-- Every leaf has an input symbol. -/
theorem TreeBuilt.sym_mem_input {s t : State} (h : TreeBuilt s t) {j : Nat} (hj : j < t.hufNLeaf.toNat) :
    (t.hufNodeAt j).sym ∈ s.input :=
  List.count_pos_iff.1 (((treeValid_leaf_iff h.tree _).1 ⟨j, hj, rfl⟩).trans_eq (h.counts _))

/-- With a single leaf, the input repeats the symbol of the leaf. -/
theorem TreeBuilt.eq_sym_of_single {s t : State} (h : TreeBuilt s t) (hL : t.hufNLeaf.toNat = 1) :
    ∀ c ∈ s.input, c = (t.hufNodeAt 0).sym := by
  intro c hc
  obtain ⟨j, hj, rfl⟩ := h.exists_leaf hc
  rw [show j = 0 by omega]

/-- When one symbol alone occurs the tree is its leaf. -/
theorem TreeBuilt.single {s t : State} (h : TreeBuilt s t) {c : Byte} (hc : c ∈ s.input) (hall : ∀ d ∈ s.input, d = c) :
    t.hufNLeaf.toNat = 1 ∧ (t.hufNodeAt 0).sym = c := by
  have hsym : ∀ j, j < t.hufNLeaf.toNat → (t.hufNodeAt j).sym = c := fun j hj => hall _ (h.sym_mem_input hj)
  obtain ⟨j, hj, -⟩ := h.exists_leaf hc
  refine ⟨?_, hsym 0 (by omega)⟩
  by_contra hne
  have h01 := treeValid_sym_injective h.tree 0 1 (by omega) (by omega)
    ((hsym 0 (by omega)).trans (hsym 1 (by omega)).symm)
  omega

/-- With a single leaf each symbol takes one bit (R148). -/
theorem Coded.encodedLength_single {s t : State} (h : Coded s t) (hL : t.hufNLeaf.toNat = 1) :
    t.encodedLength = s.inputLength := by
  have hone : ∀ c ∈ s.input, (t.hufClenAt c.toNat).toNat = 1 := fun c hc => by
    rw [h.clen, treeCode_single hL, if_pos (h.eq_sym_of_single hL c hc)]
    rfl
  rw [h.encodedLength_eq, List.map_congr_left hone, List.map_const', List.sum_replicate, length_input, smul_eq_mul,
    Nat.mul_one]

/-- Settles O30: the tree is one leaf, whose symbol gets the code of R148. -/
theorem singleSymbolGetsTheCodeZero : Obligations.SingleSymbolGetsTheCodeZero := by
  intro s c h1 hn hall
  obtain ⟨t, hexec, hdone, -, henc⟩ := exec_hufAll_legal hn
  obtain ⟨d, hd⟩ := List.exists_mem_of_length_pos ((length_input s).symm ▸ h1)
  obtain ⟨hL, hsym⟩ := henc.single (hall d hd ▸ hd) hall
  have hcode : t.treeCode c = some [false] := (treeCode_single hL c).trans (if_pos hsym.symm)
  refine ⟨t, hexec, hdone, ?_, BitVec.eq_of_toNat_eq ?_, ?_, BitVec.eq_of_toNat_eq hL,
    henc.bitLen.trans (henc.encodedLength_single hL)⟩
  · rw [henc.clen, hcode]
    rfl
  · rw [henc.code, hcode]
    rfl
  · rw [henc.bits, hcode]
    rfl

/-! ## Decoding (R153) -/

/-- The first `HUF_BITLEN` bits of `HBUF` are the bitstring. -/
theorem Encoded.map_hbufBit {s t : State} (h : Encoded s t) (hn : s.inputLength ≤ 256) :
    (List.range t.hufBitLen.toNat).map t.hbufBit = t.encodedBits := by
  have hle := h.encodedLength_le hn
  have hlen := length_encodedBits t
  rw [h.bitLen]
  refine List.ext_getElem (by rw [List.length_map, List.length_range, hlen]) fun j hj hj' => ?_
  rw [List.getElem_map, List.getElem_range, h.hbuf j (by omega), List.getElem?_eq_getElem hj', Option.getD_some]

/-- Walking the tree over the concatenated codes gives back the input (R153). -/
theorem Coded.treeWalk_encodedBits {s t : State} (h : Coded s t) :
    treeWalk t.hufNodeAt t.hufRoot.toNat t.encodedBits.length t.hufRoot.toNat t.encodedBits = s.input := by
  have htree := treeValid_isTree h.tree
  rw [h.tree.rootIndex]
  obtain h0 | h1 | h2 : t.hufNLeaf.toNat = 0 ∨ t.hufNLeaf.toNat = 1 ∨ 2 ≤ t.hufNLeaf.toNat := by omega
  · have hnil : s.input = [] := List.eq_nil_iff_forall_not_mem.2 fun c hc => by
      obtain ⟨j, hj, -⟩ := h.exists_leaf hc
      omega
    rw [State.encodedBits, h.input, hnil]
    rfl
  · rw [h1, treeWalk_single 0 (htree.leaf 0 (by omega)), length_encodedBits, h.encodedLength_single h1, ← length_input]
    exact (List.eq_replicate_of_mem (h.eq_sym_of_single h1)).symm
  · rw [State.encodedBits, h.input]
    refine treeWalk_codes htree h2 t.codeBits s.input fun c hc => ?_
    obtain ⟨w, hw, -⟩ := h.exists_code hc
    rw [h.bits, hw]
    exact (treeCode_iff h.tree h2 c w).1 hw

/-- Settles O28: `HBUF` holds the concatenated codes, and walking the tree over them gives back the input. -/
theorem hufAllIsLossless : Obligations.HufAllIsLossless := by
  intro s t hexec hok
  obtain ⟨hn, henc⟩ := encoded_of_exec_hufAll hexec hok
  rw [State.decodedByTree, henc.map_hbufBit hn, henc.bitLen, ← length_encodedBits]
  exact henc.treeWalk_encodedBits

/-! ## Frequent symbols (R153, C2) -/

/-- Settles O29: two symbols have two leaves, and of these the one with the larger frequency lies no deeper. -/
theorem moreFrequentSymbolsHaveNoLongerCodes : Obligations.MoreFrequentSymbolsHaveNoLongerCodes := by
  intro s t hexec hok c d hlt hpos
  obtain ⟨hn, henc⟩ := encoded_of_exec_hufAll hexec hok
  have hc : c ∈ s.input := List.count_pos_iff.1 (hpos.trans hlt)
  have hd : d ∈ s.input := List.count_pos_iff.1 hpos
  have h2 : 2 ≤ t.hufNLeaf.toNat := by
    obtain ⟨j, hj, -⟩ := henc.exists_leaf hc
    by_contra hone
    have hsame := henc.eq_sym_of_single (by omega)
    rw [hsame c hc, hsame d hd] at hlt
    exact lt_irrefl _ hlt
  obtain ⟨v, hv, -⟩ := henc.exists_code hc
  obtain ⟨w, hw, -⟩ := henc.exists_code hd
  obtain ⟨k, hk, rfl, hpathc⟩ := (treeCode_iff henc.tree h2 c v).1 hv
  obtain ⟨j, hj, rfl, hpathd⟩ := (treeCode_iff henc.tree h2 d w).1 hw
  rw [← henc.counts, ← henc.counts, ← treeValid_leaf_freq henc.tree hj, ← treeValid_leaf_freq henc.tree hk] at hlt
  rw [henc.clen, henc.clen, hv, hw]
  exact (henc.tree.merged henc.nodes (henc.total.trans_le hn)).code_length_antitone (treeValid_isTree henc.tree)
    (by omega) hpathd hpathc hlt

/-! ## The stages (R154) -/

theorem stage_hufFreq (s : State) : (complete (runHufFreq s)).hufStage =
    if (complete (runHufFreq s)).err = .ok then .freq else s.hufStage := by
  rcases Nat.lt_or_ge 256 s.inputLength with h | h
  · rw [runHufFreq_long h]
    rfl
  · rw [runHufFreq_ok h]
    rfl

theorem stage_hufBuild (s : State) : (1 ≤ s.hufStage.toNat ↔ (complete (runHufBuild s)).err = .ok) ∧
    (complete (runHufBuild s)).hufStage = if (complete (runHufBuild s)).err = .ok then .tree else s.hufStage := by
  by_cases h : s.hufStage = .none
  · rw [runHufBuild_early h]
    exact ⟨iff_of_false (by rw [h]; decide) nofun, rfl⟩
  · rw [runHufBuild_ok h]
    exact ⟨iff_of_true (hufStage_pos h) rfl, rfl⟩

theorem stage_hufCodes (s : State) :
    ((complete (runHufCodes s)).err = .ok ↔ 2 ≤ s.hufStage.toNat ∧ ∀ code ∈ s.codesOfTree, codeLength code ≤ 32) ∧
    (complete (runHufCodes s)).hufStage = if (complete (runHufCodes s)).err = .ok then .codes else s.hufStage := by
  rcases runHufCodes_cases s with ⟨h, hrun⟩ | ⟨-, ⟨code, hmem, hlong⟩, hrun⟩ | ⟨h, hle, hrun⟩ <;> rw [hrun]
  · exact ⟨iff_of_false nofun fun hok => absurd hok.1 (Nat.not_le.2 h), rfl⟩
  · exact ⟨iff_of_false nofun fun hok => absurd (hok.2 code hmem) (Nat.not_le.2 hlong), rfl⟩
  · exact ⟨iff_of_true rfl ⟨h, hle⟩, rfl⟩

theorem stage_hufEnc (s : State) :
    ((complete (runHufEnc s)).err = .ok ↔ 3 ≤ s.hufStage.toNat ∧ s.inputLength ≤ 256 ∧
      (∀ c ∈ s.input, s.hufClenAt c.toNat ≠ 0) ∧ s.encodedLength ≤ 2048) ∧
    (complete (runHufEnc s)).hufStage = if (complete (runHufEnc s)).err = .ok then .enc else s.hufStage := by
  rcases runHufEnc_cases s with ⟨h, hrun⟩ | ⟨-, h, hrun⟩ | ⟨-, -, ⟨c, hmem, hno⟩, hrun⟩ | ⟨-, -, -, h, hrun⟩ |
    ⟨h, hn, hcoded, hfits, hrun⟩ <;> rw [hrun]
  · exact ⟨iff_of_false nofun fun ⟨hok, _⟩ => absurd hok (Nat.not_le.2 h), rfl⟩
  · exact ⟨iff_of_false nofun fun ⟨_, hok, _⟩ => absurd hok (Nat.not_le.2 h), rfl⟩
  · exact ⟨iff_of_false nofun fun ⟨_, _, hok, _⟩ => hok c hmem hno, rfl⟩
  · exact ⟨iff_of_false nofun fun ⟨_, _, _, hok⟩ => absurd hok (Nat.not_le.2 h), rfl⟩
  · exact ⟨iff_of_true rfl ⟨h, hn, hcoded, hfits⟩, rfl⟩

/-- `HUF_ALL` has no outcome but `E_LEN` before its first step and `OK` after its last (R152). -/
theorem stage_hufAll (s : State) :
    ((complete (runHufAll s)).err = .eLen ∧ (complete (runHufAll s)).hufStage = s.hufStage) ∨
    ((complete (runHufAll s)).err = .ok ∧ (complete (runHufAll s)).hufStage = .enc) := by
  rcases Nat.lt_or_ge 256 s.inputLength with h | h
  · rw [runHufAll_long h]
    exact .inl ⟨rfl, rfl⟩
  · obtain ⟨hcode, hstage, -⟩ := encoded_hufAll h
    exact .inr ⟨hcode, hstage⟩

/-- The commands of the other engines, and `NOP`, leave the stage. -/
theorem stage_of_other {i : Instr} {s t : State} (h : exec i s = .next t)
    (hi : i ∉ [Instr.sreset, .hufFreq, .hufBuild, .hufCodes, .hufEnc, .hufAll]) : t.hufStage = s.hufStage := by
  have hi' : i ∈ [Instr.nop, .rleEnc] ∨ i ∈ [Instr.arcInit, .arcStep, .arcRun, .arcFinal, .arcAll] := by
    revert hi
    cases i <;> decide
  rcases hi' with hrle | harith
  · exact (rleFrame_exec hrle h).huffman.stage
  · exact (arithFrame_exec harith h).huffman.stage

/-- A due word that is not well formed does not decode, so its completion leaves the stage (R114). -/
theorem stage_of_illegal_word {s t : State} (hdue : s.completionDue = true) (hw : wordWellFormed s.cmd = false)
    (h : step s = .next t) : t.hufStage = s.hufStage := by
  rcases step_cases h with ⟨-, i, hi, -⟩ | ⟨-, -, -, rfl⟩ | ⟨hnot, -⟩
  · have hwell : wordWellFormed (encode i) = true := by cases i <;> rfl
    rw [eq_encode_of_decode hi, hwell] at hw
    cases hw
  · rfl
  · cases hdue.symm.trans hnot

/-- Settles O31: command by command, then the completion of an illegal word, then the change of `RST`. -/
theorem huffmanStageTransitions : Obligations.HuffmanStageTransitions := by
  refine ⟨fun i s t hexec => ?_, fun s t => stage_of_illegal_word, fun s l hl => by rw [setRst_change hl]; rfl⟩
  obtain rfl := exec_next_iff.1 hexec
  refine ⟨?_, ?_, ?_, ?_, ?_, ?_, stage_of_other hexec⟩
  · rintro rfl
    exact stage_hufFreq s
  · rintro rfl
    exact stage_hufBuild s
  · rintro rfl
    exact stage_hufCodes s
  · rintro rfl
    exact stage_hufEnc s
  · rintro rfl
    obtain ⟨herr, hstage⟩ | ⟨herr, hstage⟩ := stage_hufAll s <;> exact hstage.trans (by rw [runOf, herr])
  · rintro rfl
    rfl

end Sys2Proof.Machine
end

section
/-! SUPPORT. The arithmetic coder: what each of its commands does, and the interval that `ARC_ALL` leaves on a legal input
(43_arith.md, R172 to R180). -/
namespace Sys2Proof.Machine

/-! ## The numbers of R48 -/

theorem eq_wideOf {v : Wide} {n : Nat} (h : v.toNat = n) : v = wideOf n := by
  rw [← h, wideOf, BitVec.ofNat_toNat, BitVec.setWidth_eq]

/-- An interval as wide as its scale is [0,1) (R48). -/
theorem State.ArithLive.full_interval {s : State} (h : s.ArithLive)
    (hw : s.arcHigh.toNat - s.arcLow.toNat = s.arcScale.toNat) :
    s.arcLow.toNat = 0 ∧ s.arcHigh.toNat = s.arcScale.toNat := by
  have hlh := h.lowHigh
  have hhs := h.highScale
  omega

/-- Before the first narrowing the interval is [0,1) over the scale 1, because it lies in [0,1) and is not empty (R48). -/
theorem State.ArithLive.unit_interval {s : State} (h : s.ArithLive) (hpos : s.arcPos = 0) :
    s.arcLow.toNat = 0 ∧ s.arcHigh.toNat = 1 ∧ s.arcScale.toNat = 1 := by
  have hscale : s.arcScale.toNat = 1 := by rw [h.scale, hpos]; exact Nat.pow_zero _
  have hlh := h.lowHigh
  have hhs := h.highScale
  omega

theorem State.ArithLive.arcPos_eq_zero {s : State} (h : s.ArithLive) (hn : s.arcN = 0) : s.arcPos = 0 := by
  have hpos := h.posBound
  rw [hn] at hpos
  exact BitVec.eq_of_toNat_eq (Nat.le_zero.1 hpos)

/-- R48 speaks of nothing that the completion writes (R111). -/
theorem State.ArithLive.completedWith {s : State} (h : s.ArithLive) (code : ErrCode) : (s.completedWith code).ArithLive :=
  ArithLive_congr (t := s.completedWith code) h (by constructor <;> rfl) rfl rfl rfl

/-! ## What no command of the coder writes -/

theorem arith_unchanged {i : Instr} {s t : State} (hi : i ∈ [Instr.arcInit, .arcStep, .arcRun, .arcFinal, .arcAll])
    (h : exec i s = .next t) : t.outLen = s.outLen ∧ InterfaceUnchanged s t ∧ HuffmanRegistersUnchanged s t := by
  obtain ⟨hout, hhuf, -⟩ := arithFrame_exec hi h
  exact ⟨hout, exec_next_iff.1 h ▸ interface_complete (interface_runOf i s), hhuf⟩

/-- Only the interval, `ARC_POS` and the completion's bits changed: what narrowing leaves (R174, R175). -/
structure OnlyIntervalChanged (s t : State) : Prop where
  state : t.arcState = s.arcState
  n : t.arcN = s.arcN
  mid : t.arcMid = s.arcMid
  outLen : t.outLen = s.outLen
  interface : InterfaceUnchanged s t
  huffman : HuffmanRegistersUnchanged s t
  banks : SameBanks s t

theorem OnlyIntervalChanged.arcFreqAt {s t : State} (h : OnlyIntervalChanged s t) (c : Nat) :
    t.arcFreqAt c = s.arcFreqAt c :=
  arcFreqAt_congr (h.banks.2 .arcFreq) h.banks.1 c

theorem onlyIntervalChanged_foldl_narrow (cs : List Byte) (s : State) :
    OnlyIntervalChanged s ((cs.foldl State.narrow s).completedWith .ok) := by
  rw [foldl_narrow_frame]
  exact ⟨rfl, rfl, rfl, rfl, by constructor <;> rfl, by constructor <;> rfl, rfl, fun b => by cases b <;> rfl⟩

/-! ## The model of the input (R172, R173) -/

/-- The coder's tables in `t` hold the model of the input of `s`, and R48 holds. -/
structure Modelled (s t : State) : Prop where
  interface : InterfaceUnchanged s t
  live : t.ArithLive
  n : t.arcN = s.inLen
  counts : ∀ c : Byte, (t.arcFreqAt c.toNat).toNat = s.input.count c

section Modelled
variable {s t : State} (h : Modelled s t)
include h

theorem Modelled.arcN_toNat : t.arcN.toNat = s.inputLength := congrArg BitVec.toNat h.n

theorem Modelled.total : t.arcFreqSum 256 = s.inputLength := h.live.freqTotal.trans h.arcN_toNat

theorem Modelled.freq_ne_zero {c : Byte} (hc : c ∈ s.input) : t.arcFreqAt c.toNat ≠ 0 := fun h0 => by
  have hcount := h.counts c
  rw [h0] at hcount
  exact (List.count_pos_iff.2 hc).ne hcount

/-- Before the first narrowing the whole input remains (R175). -/
theorem Modelled.remaining (hpos : t.arcPos = 0) : t.remaining = s.input := by
  have hzero : t.arcPos.toNat = 0 := by rw [hpos]; rfl
  rw [State.remaining, hzero, Nat.sub_zero, h.arcN_toNat, ← List.range_eq_range', State.input]
  exact List.map_congr_left fun i _ => inByte_congr h.interface.inbuf h.interface.resets i

/-- A symbol whose count is the whole total has no symbol of the input before it (R173). -/
theorem Modelled.cum_eq_zero {c : Byte} (hall : s.input.count c = s.inputLength) : t.arcCumAt c.toNat = 0 := by
  have hle := arcFreqSum_mono t (c := c.toNat + 1) (d := 256) c.isLt
  rw [arcFreqSum_succ, h.counts, hall, h.total] at hle
  have hsum : t.arcFreqSum c.toNat = 0 := by omega
  exact BitVec.eq_of_toNat_eq ((h.live.cumTable _ c.isLt).trans hsum)

theorem Modelled.tables_of_empty (hn : s.inLen = 0) {c : Nat} (hc : c < 256) : t.arcFreqAt c = 0 ∧ t.arcCumAt c = 0 := by
  have hlen : s.inputLength = 0 := congrArg BitVec.toNat hn
  have hcount : s.input.count (BitVec.ofNat 8 c) = 0 := by rw [State.input, hlen]; rfl
  have hsym : (BitVec.ofNat 8 c).toNat = c := Nat.mod_eq_of_lt hc
  have hfreq := h.counts (BitVec.ofNat 8 c)
  have hcum := h.cum_eq_zero (hcount.trans hlen.symm)
  rw [hsym] at hfreq hcum
  exact ⟨BitVec.eq_of_toNat_eq (hfreq.trans hcount), hcum⟩

end Modelled

/-! ## `ARC_INIT` (R172) -/

/-- On a legal input `ARC_INIT` tabulates the model and stands before the first symbol. -/
theorem exec_arcInit_legal {s : State} (hn : s.inputLength ≤ 256) : ∃ t, exec .arcInit s = .next t ∧
    CompletedWith .ok t ∧ Modelled s t ∧ t.arcPos = 0 ∧ t.arcState = .active := by
  have hlive := arcInit_live hn
  have hinterface := interface_complete (interface_arcInit s)
  have hrun := runArcInit_ok hn
  refine ⟨_, exec_eq_complete .arcInit s, ⟨rfl, rfl, congrArg Result.code hrun⟩, ⟨hinterface, hlive, ?_, fun c => ?_⟩,
    ?_, ?_⟩ <;> rw [runOf, hrun]
  · rfl
  · refine Eq.trans ?_ ((fill_counts_arcFreqAt s s hn c.isLt).trans (congrArg s.input.count (ofNat_toNat_byte c)))
    exact congrArg BitVec.toNat (arcFreqAt_congr rfl (fill_resets _ _ _) _)
  · rfl
  · rfl

/-- Settles O33: the tables hold the model, and R48 before the first symbol says that the interval is [0,1). -/
theorem arcInitOpensTheUnitInterval : Obligations.ArcInitOpensTheUnitInterval := by
  refine ⟨decode_encode .arcInit, fun s => ⟨fun h => exec_of_run_fail (runArcInit_long h), fun h => ?_⟩⟩
  obtain ⟨t, hexec, hok, hmodel, hpos, hstate⟩ := exec_arcInit_legal h
  obtain ⟨hlow, hhigh, hscale⟩ := hmodel.live.unit_interval hpos
  obtain ⟨hout, hinterface, hhuf⟩ := arith_unchanged (by decide) hexec
  exact ⟨t, hexec, hok, hmodel.counts, hmodel.live.cumTable, hmodel.total, hmodel.n, hpos, hlow, hhigh, hscale,
    hmodel.live.midActive hstate, hstate, hout, hinterface, hhuf, (arithFrame_exec (by decide) hexec).bytes⟩

/-! ## `ARC_STEP` (R174) -/

theorem runArcStep_early {s : State} (h : s.arcState = .idle ∨ s.arcN.toNat ≤ s.arcPos.toNat) :
    runArcStep s = fail .eSeq s := by
  rcases runArcStep_cases s with ⟨-, hrun⟩ | ⟨hstate, hpos, -⟩
  · exact hrun
  · exact absurd h (not_or.2 ⟨hstate, Nat.not_le.2 hpos⟩)

section Step
variable {s : State} (hstate : s.arcState ≠ .idle) (hpos : s.arcPos.toNat < s.arcN.toNat)
include hstate hpos

theorem runArcStep_unmodelled (h : s.arcFreqAt (s.inByte s.arcPos.toNat).toNat = 0) :
    runArcStep s = fail .eAlphabet s :=
  (if_neg hstate).trans ((if_neg (Nat.not_le.2 hpos)).trans (if_pos h))

theorem runArcStep_ok (h : s.arcFreqAt (s.inByte s.arcPos.toNat).toNat ≠ 0) :
    runArcStep s = succeed (s.narrow (s.inByte s.arcPos.toNat)) :=
  (if_neg hstate).trans ((if_neg (Nat.not_le.2 hpos)).trans (if_neg h))

end Step

/-- Settles O34: a step is one narrowing, whose numbers are exact while R48 holds. -/
theorem arcStepNarrowsByOneSymbol : Obligations.ArcStepNarrowsByOneSymbol := by
  refine ⟨decode_encode .arcStep, fun s => ⟨fun h => exec_of_run_fail (runArcStep_early h),
    fun hstate hpos h => exec_of_run_fail (runArcStep_unmodelled hstate hpos h), fun hstate hpos h => ?_⟩⟩
  obtain ⟨harcState, hn, hmid, hout, hinterface, hhuf, hbanks⟩ :=
    onlyIntervalChanged_foldl_narrow [s.inByte s.arcPos.toNat] s
  have hnext : (s.narrow (s.inByte s.arcPos.toNat)).arcPos.toNat = s.arcPos.toNat + 1 :=
    foldl_narrow_arcPos [s.inByte s.arcPos.toNat] s (Nat.lt_of_le_of_lt hpos s.arcN.isLt)
  refine ⟨_, exec_of_run_succeed (runArcStep_ok hstate hpos h), ⟨rfl, rfl, rfl⟩, hnext, harcState, hn, hmid, hout,
    hinterface, hhuf, bytesUnchanged_of_sameBanks hbanks, ⟨rfl, rfl, rfl⟩, fun hlive => ?_⟩
  obtain ⟨-, hscale, hlow, hhigh⟩ := narrow_exact hlive hpos (s.inByte s.arcPos.toNat)
  exact ⟨hlow, hhigh, hscale⟩

/-- A narrowing of `[low, high)` over `scale` by the range `[cum, cum + freq)` of `n` stays within it, as fractions over
the two scales (R178). -/
theorem narrowed_within {low high scale n cum freq : Nat} (hlh : low ≤ high) (h : cum + freq ≤ n) :
    low * (scale * n) ≤ (low * n + (high - low) * cum) * scale ∧
    (low * n + (high - low) * (cum + freq)) * scale ≤ high * (scale * n) := by
  have hle : (high - low) * (cum + freq) ≤ (high - low) * n := Nat.mul_le_mul_left _ h
  have hsplit : low * n + (high - low) * n = high * n := by rw [← Nat.add_mul, Nat.add_sub_cancel' hlh]
  have hassoc : ∀ x, x * (scale * n) = x * n * scale := fun x => by rw [Nat.mul_comm scale, Nat.mul_assoc]
  rw [hassoc, hassoc]
  exact ⟨Nat.mul_le_mul_right _ (Nat.le_add_right _ _), Nat.mul_le_mul_right _ (by omega)⟩

/-- Settles O35: a step that reports `OK` has narrowed, within the old bounds because a symbol's range lies within
`ARC_N`. -/
theorem arcStepNarrowsMonotonically : Obligations.ArcStepNarrowsMonotonically := by
  intro s t hlive hexec hok
  obtain rfl := exec_next_iff.1 hexec
  rcases runArcStep_cases s with ⟨-, hrun⟩ | ⟨-, hpos, ⟨-, hrun⟩ | ⟨hfreq, hrun⟩⟩ <;> rw [runOf, hrun] at hok ⊢
  · cases hok
  · cases hok
  · obtain ⟨-, hscale, hlow, hhigh⟩ := narrow_exact hlive hpos (s.inByte s.arcPos.toNat)
    obtain ⟨-, hwidth⟩ := narrow_live hlive hpos hfreq
    have hrange := ArithLive_cum_add_freq hlive (s.inByte s.arcPos.toNat).isLt
    obtain ⟨hge, hle⟩ := narrowed_within (scale := s.arcScale.toNat) hlive.lowHigh.le hrange
    rw [← hscale, ← hlow] at hge
    rw [← hscale, ← hhigh] at hle
    exact ⟨hge, hle, hwidth, hscale⟩

/-! ## `ARC_RUN` (R175) -/

theorem mem_remaining {s : State} {c : Byte} :
    c ∈ s.remaining ↔ ∃ i, s.arcPos.toNat ≤ i ∧ i < s.arcN.toNat ∧ s.inByte i = c := by
  simp only [State.remaining, List.mem_map, List.mem_range'_1, and_assoc]
  exact exists_congr fun i => and_congr_right fun hi => and_congr_left' (by omega)

theorem remaining_eq_nil {s : State} (h : s.arcN.toNat ≤ s.arcPos.toNat) : s.remaining = [] :=
  List.length_eq_zero_iff.1 (by rw [length_remaining]; omega)

section Run
variable {s : State} (hstate : s.arcState ≠ .idle)
include hstate

theorem runArcRun_unmodelled (h : ∃ c ∈ s.remaining, s.arcFreqAt c.toNat = 0) : runArcRun s = fail .eAlphabet s :=
  (if_neg hstate).trans (if_pos (by simpa using h))

theorem runArcRun_ok (h : ∀ c ∈ s.remaining, s.arcFreqAt c.toNat ≠ 0) :
    runArcRun s = succeed (s.remaining.foldl State.narrow s) :=
  (if_neg hstate).trans (if_neg (by simpa using h))

theorem exec_arcRun_done (h : s.arcN.toNat ≤ s.arcPos.toNat) : exec .arcRun s = .next (s.completedWith .ok) := by
  have hnil := remaining_eq_nil h
  have hrun := runArcRun_ok hstate (by rw [hnil]; exact List.forall_mem_nil _)
  rw [hnil] at hrun
  exact exec_of_run_succeed hrun

/-- With something left, `ARC_RUN` is one narrowing and then `ARC_RUN` again. -/
theorem exec_arcRun_cons (hpos : s.arcPos.toNat < s.arcN.toNat) (h : ∀ c ∈ s.remaining, s.arcFreqAt c.toNat ≠ 0) :
    exec .arcRun s = exec .arcRun ((s.narrow (s.inByte s.arcPos.toNat)).completedWith .ok) := by
  have hcons := remaining_cons hpos (s.inByte s.arcPos.toNat)
  have hrest : ∀ c ∈ (s.narrow (s.inByte s.arcPos.toNat)).remaining, s.arcFreqAt c.toNat ≠ 0 := fun c hc =>
    h c (by rw [hcons]; exact List.mem_cons_of_mem _ hc)
  have hnarrow := runArcRun_ok (s := s.narrow (s.inByte s.arcPos.toNat)) hstate hrest
  obtain ⟨-, hblind⟩ := statusBlind_arcRun.complete (succeed (s.narrow (s.inByte s.arcPos.toNat)))
  rw [exec_eq_complete, exec_eq_complete, runOf, runArcRun_ok hstate h, hcons, List.foldl_cons]
  exact congrArg _ ((congrArg complete hnarrow).symm.trans hblind.symm)

/-- With every remaining symbol in the model, `ARC_RUN` keeps R48, ends at `ARC_N`, and multiplies the width by the
frequencies of the remaining symbols. -/
theorem exec_arcRun_live (hlive : s.ArithLive) (h : ∀ c ∈ s.remaining, s.arcFreqAt c.toNat ≠ 0) :
    ∃ t, exec .arcRun s = .next t ∧ CompletedWith .ok t ∧ OnlyIntervalChanged s t ∧ t.ArithLive ∧ t.arcPos = s.arcN ∧
      t.arcHigh.toNat - t.arcLow.toNat =
        (s.arcHigh.toNat - s.arcLow.toNat) * (s.remaining.map fun c => (s.arcFreqAt c.toNat).toNat).prod := by
  have hend : s.arcPos.toNat + s.remaining.length = s.arcN.toNat := by
    rw [length_remaining]
    exact Nat.add_sub_cancel' hlive.posBound
  obtain ⟨hkept, hpos, hwidth⟩ := foldl_narrow_live s.remaining hlive hend.le h
  exact ⟨_, exec_of_run_succeed (runArcRun_ok hstate h), ⟨rfl, rfl, rfl⟩, onlyIntervalChanged_foldl_narrow _ s,
    hkept.completedWith .ok, BitVec.eq_of_toNat_eq (hpos.trans hend), hwidth⟩

end Run

/-- Settles O36: the checks come before the first narrowing, and a run is one step and then a run. -/
theorem arcRunIsRepeatedSteps : Obligations.ArcRunIsRepeatedSteps := by
  refine fun s => ⟨fun h => exec_of_run_fail (runArcRun_idle h), ?_, fun hstate => exec_arcRun_done hstate, ?_⟩
  · rintro hstate ⟨i, hle, hlt, hfreq⟩
    exact exec_of_run_fail (runArcRun_unmodelled hstate ⟨_, mem_remaining.2 ⟨i, hle, hlt, rfl⟩, hfreq⟩)
  · intro hstate h
    have hremaining : ∀ c ∈ s.remaining, s.arcFreqAt c.toNat ≠ 0 := fun c hc => by
      obtain ⟨i, hle, hlt, rfl⟩ := mem_remaining.1 hc
      exact h i hle hlt
    refine ⟨⟨_, exec_of_run_succeed (runArcRun_ok hstate hremaining), rfl,
      (onlyIntervalChanged_foldl_narrow _ s).state⟩, fun hpos => ?_⟩
    exact ⟨_, exec_of_run_succeed (runArcStep_ok hstate hpos (h _ le_rfl hpos)), rfl,
      exec_arcRun_cons hstate hpos hremaining⟩

/-- Settles O37: R48 at `ARC_POS = ARC_N` says that the scale is `N^N`. -/
theorem arcRunNarrowsByEverySymbolLeft : Obligations.ArcRunNarrowsByEverySymbolLeft := by
  intro s hstate hlive h
  obtain ⟨t, hexec, hok, hframe, hkept, hpos, hwidth⟩ := exec_arcRun_live hstate hlive h
  have hscale : t.arcScale.toNat = s.arcN.toNat ^ s.arcN.toNat := by rw [hkept.scale, hframe.n, hpos]
  exact ⟨t, hexec, hok, hkept, hpos, hframe.n, hframe.state, hframe.mid, hscale, hwidth, hframe.outLen, hframe.interface,
    hframe.huffman, bytesUnchanged_of_sameBanks hframe.banks⟩

/-! ## `ARC_FINAL` (R176) -/

theorem exec_arcFinal_early {s : State} (h : s.arcState = .idle ∨ s.arcPos ≠ s.arcN) :
    exec .arcFinal s = .next (s.completedWith .eSeq) :=
  exec_of_run_fail (if_pos h)

theorem exec_arcFinal_ok {s : State} (hstate : s.arcState ≠ .idle) (hpos : s.arcPos = s.arcN) :
    exec .arcFinal s = .next { s.completedWith .ok with
      arcMid := wideOf (s.arcLow.toNat + s.arcHigh.toNat), arcState := .final } :=
  exec_of_run_succeed (i := .arcFinal) (if_neg (not_or.2 ⟨hstate, not_not.2 hpos⟩))

/-- In state 2 the midpoint is there already, so `ARC_FINAL` changes nothing. -/
theorem exec_arcFinal_again {s : State} (hlive : s.ArithLive) (hfinal : s.arcState = .final) :
    exec .arcFinal s = .next (s.completedWith .ok) := by
  rw [exec_arcFinal_ok (by rw [hfinal]; nofun) (hlive.posFinal hfinal), ← eq_wideOf (hlive.midFinal hfinal), ← hfinal]
  rfl

/-- Settles O38: the midpoint lies strictly inside because the interval is not empty. -/
theorem arcFinalWritesTheMidpoint : Obligations.ArcFinalWritesTheMidpoint := by
  refine ⟨decode_encode .arcFinal, fun s => ⟨exec_arcFinal_early, exec_arcFinal_ok, fun hlive => ?_⟩⟩
  have hlh := hlive.lowHigh
  refine ⟨ArithLive_mid_fits hlive, by omega, by omega, exec_arcFinal_again hlive, fun hn => ?_⟩
  obtain ⟨hlow, hhigh, hscale⟩ := hlive.unit_interval (hlive.arcPos_eq_zero hn)
  omega

/-! ## `ARC_ALL` (R177) -/

/-- `t` holds the arithmetic code of the input of `s`: every symbol narrowed, the width the product of their counts, and
the midpoint written (R176 to R178). -/
structure ArithEncoded (s t : State) : Prop extends Modelled s t where
  state : t.arcState = .final
  pos : t.arcPos = s.inLen
  width : t.arcHigh.toNat - t.arcLow.toNat = (s.input.map fun c => s.input.count c).prod

theorem ArithEncoded.scale {s t : State} (h : ArithEncoded s t) :
    t.arcScale.toNat = s.inputLength ^ s.inputLength := by
  rw [h.live.scale, h.n, h.pos, State.inputLength]

theorem ArithEncoded.mid {s t : State} (h : ArithEncoded s t) : t.arcMid.toNat = t.arcLow.toNat + t.arcHigh.toNat :=
  h.live.midFinal h.state

/-- `ARC_FINAL` completes the code that `ARC_RUN` has narrowed. -/
theorem exec_arcFinal_encoded {s b : State} (hmodel : Modelled s b) (hstate : b.arcState ≠ .idle)
    (hpos : b.arcPos = b.arcN)
    (hwidth : b.arcHigh.toNat - b.arcLow.toNat = (s.input.map fun c => s.input.count c).prod) :
    ∃ t, exec .arcFinal b = .next t ∧ CompletedWith .ok t ∧ ArithEncoded s t := by
  have hexec := exec_arcFinal_ok hstate hpos
  obtain ⟨-, hinterface, -⟩ := arith_unchanged (by decide) hexec
  exact ⟨_, hexec, ⟨rfl, rfl, rfl⟩, ⟨hmodel.interface.trans hinterface,
    exec_next_iff.1 hexec ▸ arcFinal_live hmodel.live, hmodel.n, hmodel.counts⟩, rfl, hpos.trans hmodel.n, hwidth⟩

/-- `ARC_ALL` succeeds on every legal input, and leaves its code: `ARC_INIT` puts every symbol of the input in the model,
so `ARC_RUN` narrows by all of them, and `ARC_FINAL` finds none left. -/
theorem exec_arcAll_legal {s : State} (hn : s.inputLength ≤ 256) :
    ∃ t, exec .arcAll s = .next t ∧ CompletedWith .ok t ∧ ArithEncoded s t := by
  obtain ⟨a, hinit, ⟨-, -, hok⟩, hmodel, hpos, hactive⟩ := exec_arcInit_legal hn
  have hstate : a.arcState ≠ .idle := by rw [hactive]; nofun
  have hremaining := hmodel.remaining hpos
  obtain ⟨b, hrun, ⟨-, -, hok'⟩, hframe, hlive, hend, hwidth⟩ := exec_arcRun_live hstate hmodel.live
    (by rw [hremaining]; exact fun c => hmodel.freq_ne_zero)
  obtain ⟨hlow, hhigh, -⟩ := hmodel.live.unit_interval hpos
  simp only [hlow, hhigh, hremaining, hmodel.counts, Nat.sub_zero, Nat.one_mul] at hwidth
  have hmodel' : Modelled s b := ⟨hmodel.interface.trans hframe.interface, hlive, hframe.n.trans hmodel.n,
    fun c => by rw [hframe.arcFreqAt, hmodel.counts]⟩
  obtain ⟨t, hfinal, hdone, hencoded⟩ := exec_arcFinal_encoded hmodel' (by rw [hframe.state]; exact hstate)
    (hend.trans hframe.n.symm) hwidth
  obtain ⟨-, -, hall, -, -⟩ := compoundCommandsRunTheirPrimitives
  exact ⟨t, hall s a b t hinit hok hrun hok' hfinal, hdone, hencoded⟩

theorem exec_arcAll_long {s : State} (h : 256 < s.inputLength) : exec .arcAll s = .next (s.completedWith .eLen) :=
  exec_of_first_error (i := .arcInit) (ps := [runArcRun, runArcFinal]) rfl (exec_of_run_fail (runArcInit_long h)) nofun

/-- Settles O39: what the code of a legal input says of the registers. -/
theorem arcAllEncodesTheInput : Obligations.ArcAllEncodesTheInput := by
  refine fun s => ⟨exec_arcAll_long, fun hn => ?_⟩
  obtain ⟨t, hexec, hok, henc⟩ := exec_arcAll_legal hn
  exact ⟨t, hexec, hok, henc.state, henc.n, henc.pos, henc.total, henc.scale, henc.live.lowHigh, henc.live.highScale,
    henc.width, henc.mid⟩

/-! ## The empty input, and a single distinct symbol (R179, R180) -/

/-- Settles O40: with no symbol to narrow by, the interval of `ARC_INIT` stays. -/
theorem emptyInputGivesTheNeutralInterval : Obligations.EmptyInputGivesTheNeutralInterval := by
  intro s hn
  have hlegal : s.inputLength ≤ 256 := by rw [State.inputLength, hn]; exact Nat.zero_le _
  constructor
  · obtain ⟨a, hinit, ⟨-, -, hok⟩, hmodel, hpos, hactive⟩ := exec_arcInit_legal hlegal
    have hstate : a.arcState ≠ .idle := by rw [hactive]; nofun
    have hend : a.arcPos = a.arcN := by rw [hpos, hmodel.n, hn]
    obtain ⟨hlow, hhigh, hscale⟩ := hmodel.live.unit_interval hpos
    refine ⟨a, a.completedWith .ok, _, hinit, hok, eq_wideOf hlow, eq_wideOf hhigh, eq_wideOf hscale,
      exec_arcRun_done hstate (by rw [hend]), rfl, exec_arcFinal_ok (s := a.completedWith .ok) hstate hend, rfl, rfl, ?_,
      eq_wideOf hlow, eq_wideOf hhigh, eq_wideOf hscale⟩
    show wideOf (a.arcLow.toNat + a.arcHigh.toNat) = wideOf 1
    rw [hlow, hhigh]
  · obtain ⟨t, hexec, ⟨-, -, hok⟩, henc⟩ := exec_arcAll_legal hlegal
    obtain ⟨hlow, hhigh, hscale⟩ := henc.live.unit_interval (henc.pos.trans hn)
    exact ⟨t, hexec, hok, henc.state, eq_wideOf hlow, eq_wideOf hhigh, eq_wideOf hscale,
      eq_wideOf (henc.mid.trans (by rw [hlow, hhigh])), fun c hc => henc.tables_of_empty hn hc⟩

/-- Settles O41: the one symbol's count is `n`, so the width is `n^n`, the whole scale. -/
theorem singleSymbolKeepsTheUnitInterval : Obligations.SingleSymbolKeepsTheUnitInterval := by
  intro s c _ hn hall
  obtain ⟨t, hexec, hok, henc⟩ := exec_arcAll_legal hn
  have hinput : s.input = List.replicate s.inputLength c := by
    rw [← length_input]
    exact List.eq_replicate_of_mem hall
  have hcount : s.input.count c = s.inputLength := by rw [hinput, List.count_replicate_self]
  have hwidth : t.arcHigh.toNat - t.arcLow.toNat = t.arcScale.toNat := by
    rw [henc.width, henc.scale, List.map_congr_left fun d hd => congrArg s.input.count (hall d hd), List.map_const',
      List.prod_replicate, hcount, length_input]
  obtain ⟨hlow, hhigh⟩ := henc.live.full_interval hwidth
  exact ⟨t, hexec, hok, (henc.counts c).trans hcount, henc.cum_eq_zero hcount, hlow, hhigh.trans henc.scale, henc.scale,
    by rw [henc.mid, hlow, hhigh, Nat.zero_add]⟩

end Sys2Proof.Machine
end

section
/-! SUPPORT. What a failing primitive leaves unchanged, and where a step stops (60_exceptions.md R203, R218;
70_reset_and_hazards.md R230). -/
namespace Sys2Proof.Machine

/-! ## A primitive fails without an effect, or succeeds (R203) -/

/-- Everything a primitive command can do: report an error with the state unchanged, or succeed. -/
theorem runOf_fail_or_succeed {i : Instr} (hh : i ≠ .hufAll) (ha : i ≠ .arcAll) (s : State) :
    (∃ code, runOf i s = fail code s) ∨ ∃ u, runOf i s = succeed u := by
  cases i with
  | nop => exact .inr ⟨s, rfl⟩
  | sreset => exact .inr ⟨s.clearEngines, rfl⟩
  | rleEnc =>
    rcases Nat.lt_or_ge 256 s.inputLength with h | h
    · exact .inl ⟨_, runRleEnc_long h⟩
    · exact .inr ⟨_, runRleEnc_ok h⟩
  | hufFreq =>
    rcases Nat.lt_or_ge 256 s.inputLength with h | h
    · exact .inl ⟨_, runHufFreq_long h⟩
    · exact .inr ⟨_, runHufFreq_ok h⟩
  | hufBuild =>
    by_cases h : s.hufStage = .none
    · exact .inl ⟨_, runHufBuild_early h⟩
    · exact .inr ⟨_, runHufBuild_ok h⟩
  | hufCodes =>
    rcases runHufCodes_cases s with ⟨-, h⟩ | ⟨-, -, h⟩ | ⟨-, -, h⟩
    · exact .inl ⟨_, h⟩
    · exact .inl ⟨_, h⟩
    · exact .inr ⟨_, h⟩
  | hufEnc =>
    rcases runHufEnc_cases s with ⟨-, h⟩ | ⟨-, -, h⟩ | ⟨-, -, -, h⟩ | ⟨-, -, -, -, h⟩ | ⟨-, -, -, -, h⟩
    · exact .inl ⟨_, h⟩
    · exact .inl ⟨_, h⟩
    · exact .inl ⟨_, h⟩
    · exact .inl ⟨_, h⟩
    · exact .inr ⟨_, h⟩
  | hufAll => exact absurd rfl hh
  | arcInit =>
    rcases Nat.lt_or_ge 256 s.inputLength with h | h
    · exact .inl ⟨_, runArcInit_long h⟩
    · exact .inr ⟨_, runArcInit_ok h⟩
  | arcStep =>
    rcases runArcStep_cases s with ⟨-, h⟩ | ⟨-, -, ⟨-, h⟩ | ⟨-, h⟩⟩
    · exact .inl ⟨_, h⟩
    · exact .inl ⟨_, h⟩
    · exact .inr ⟨_, h⟩
  | arcRun =>
    rcases runArcRun_cases s with ⟨-, h⟩ | ⟨-, -, h⟩ | ⟨-, -, h⟩
    · exact .inl ⟨_, h⟩
    · exact .inl ⟨_, h⟩
    · exact .inr ⟨_, h⟩
  | arcFinal =>
    rcases runArcFinal_cases s with ⟨-, h⟩ | ⟨-, -, h⟩
    · exact .inl ⟨_, h⟩
    · exact .inr ⟨_, h⟩
  | arcAll => exact absurd rfl ha

/-- Settles O11: a primitive that does not succeed has left the state to the completion write alone. -/
theorem primitiveErrorsArePrecise : Obligations.PrimitiveErrorsArePrecise := by
  intro i s t hh ha hexec herror
  obtain rfl := exec_next_iff.1 hexec
  rcases runOf_fail_or_succeed hh ha s with ⟨code, hfail⟩ | ⟨u, hsucceed⟩
  · rw [hfail, complete_fail]
    rfl
  · rw [hsucceed] at herror
    exact absurd rfl herror

/-! ## Where a step stops (R218, R230) -/

/-- The host's next operation is a bus access, and `RST` is asserted: what R230 forbids. -/
def State.AccessForbidden (s : State) : Prop :=
  s.inReset = true ∧ ∃ op, s.host[s.hostPc]? = some op ∧ ∀ l, op ≠ .rst l

/-- Each bus access stops while `RST` is asserted (log entry 7). -/
theorem hostOp_in_reset {s : State} {op : HostOp} (hr : s.inReset = true) (hop : ∀ l, op ≠ .rst l) :
    hostOp op s = .fault .accessInReset := by
  cases op with
  | rst l => exact absurd rfl (hop l)
  | write off size v => exact if_pos hr
  | read off size => exact if_pos hr
  | bnz off mask target => exact if_pos hr

theorem hostTurn_forbidden {s : State} (h : s.AccessForbidden) : hostTurn s = .fault .accessInReset := by
  obtain ⟨hr, op, hop, haccess⟩ := h
  rw [hostTurn_of_op hop, hostOp_in_reset hr haccess]

theorem hostTurn_allowed {s : State} (h : ¬s.AccessForbidden) : ∃ t, hostTurn s = .next t := by
  refine hostTurn_next ?_
  cases hr : s.inReset with
  | false => exact .inl rfl
  | true =>
    refine .inr fun op hop => ?_
    by_contra hrst
    exact h ⟨hr, op, hop, not_exists.1 hrst⟩

/-- A completion never stops: a word that decodes is executed, and any other completes with `E_ILLEGAL` (R111, R114). -/
theorem completionStep_next (s : State) : ∃ t, completionStep s = .next t := by
  cases hd : decode s.cmd with
  | ok i => exact ⟨_, (completionStep_of_ok hd).trans (exec_eq_complete i s)⟩
  | error e => exact ⟨_, completionStep_of_error hd⟩

/-- The tick before the host's turn changes only the latency, so the turn finds the same access. -/
theorem step_forbidden {s : State} (hdue : s.completionDue = false) (h : s.AccessForbidden) :
    step s = .fault .accessInReset :=
  (step_of_not_due hdue).trans (hostTurn_forbidden (s := s.tick) h)

theorem step_allowed {s : State} (h : ¬(s.completionDue = false ∧ s.AccessForbidden)) : ∃ t, step s = .next t := by
  cases hdue : s.completionDue with
  | true =>
    rw [step, if_pos hdue]
    exact completionStep_next s
  | false =>
    rw [step_of_not_due hdue]
    exact hostTurn_allowed (s := s.tick) fun hforbidden => h ⟨hdue, hforbidden⟩

/-- Settles O44: a step stops at a forbidden access, and every other step answers a next state. -/
theorem stepStopsOnlyAtAForbiddenHostAccess : Obligations.StepStopsOnlyAtAForbiddenHostAccess := by
  intro s
  by_cases h : s.completionDue = false ∧ s.AccessForbidden
  · obtain ⟨hdue, hforbidden⟩ := h
    have hstep := step_forbidden hdue hforbidden
    refine ⟨fun r hr => ?_, fun f => ⟨fun hf => ?_, ?_⟩⟩
    · rw [hstep] at hr
      cases hr
    · rw [hstep] at hf
      cases hf
      exact ⟨hdue, rfl, hforbidden⟩
    · rintro ⟨-, rfl, -⟩
      exact hstep
  · obtain ⟨t, hstep⟩ := step_allowed h
    rw [hstep]
    exact ⟨nofun, fun f => ⟨nofun, fun ⟨hdue, _, hforbidden⟩ => absurd ⟨hdue, hforbidden⟩ h⟩⟩

end Sys2Proof.Machine
end

section
/-! SUPPORT. Reset and the completion of a pending command (70_reset_and_hazards.md): what a change of `RST` leaves, and the
steps from a pending command to its completion. -/
namespace Sys2Proof.Machine

/-! ## The run to the completion of a pending command (R240) -/

/-- The host asserts `RST` no more: it has no operation left, or its program holds no assertion. -/
def State.HostAssertsNoReset (s : State) : Prop := s.host[s.hostPc]? = none ∨ HostOp.rst true ∉ s.host

theorem State.HostAssertsNoReset.next_ne {s : State} (h : s.HostAssertsNoReset) :
    s.host[s.hostPc]? ≠ some (.rst true) := by
  intro hop
  rcases h with hnone | hnot
  · rw [hnone] at hop
    cases hop
  · exact hnot (List.mem_of_getElem? hop)

/-- A command is pending outside reset, and the host leaves it so (R233). -/
structure State.Completing (s : State) : Prop where
  released : s.inReset = false
  busy : s.busy = true
  host : s.HostAssertsNoReset

theorem State.Completing.hostTurn_keeps {s : State} (hs : s.Completing) :
    ∃ t, hostTurn s = .next t ∧ t.Completing ∧ t.latency = s.latency ∧ t.cmd = s.cmd := by
  obtain ⟨t, hturn⟩ := hostTurn_next (.inl hs.released)
  refine ⟨t, hturn, ?_⟩
  rcases hs.host with hnone | hnot
  · obtain rfl : s = t := Host.Outcome.next.inj ((hostTurn_of_none hnone).symm.trans hturn)
    exact ⟨hs, rfl, rfl⟩
  · obtain ⟨_, _, _, _, _, _, -, rfl⟩ := hostTurn_while_busy hs.busy hs.released hs.host.next_ne hturn
    exact ⟨⟨hs.released, hs.busy, .inr hnot⟩, rfl, rfl⟩

/-- While its latency runs, a step brings the completion of the pending command one step nearer (log entry 3). -/
theorem State.Completing.step_next {s : State} (hs : s.Completing) {n : Nat} (hn : s.latency = n + 1) :
    ∃ t, step s = .next t ∧ t.Completing ∧ t.latency = n ∧ t.cmd = s.cmd := by
  have hdue : s.completionDue = false := by
    rw [State.completionDue, hn]
    exact Bool.and_false _
  have htick : s.tick.Completing := ⟨hs.released, hs.busy, hs.host⟩
  obtain ⟨t, hturn, ht, hlat, hcmd⟩ := htick.hostTurn_keeps
  exact ⟨t, (step_of_not_due hdue).trans hturn, ht, by rw [hlat, tick_latency, hn, Nat.add_sub_cancel], hcmd⟩

/-- The completion step clears `BUSY`, sets `DONE` and keeps `CMD`, whatever the word (R111, R114). -/
theorem completionStep_completes (s : State) :
    ∃ t, completionStep s = .next t ∧ t.busy = false ∧ t.done = true ∧ t.cmd = s.cmd := by
  cases hd : decode s.cmd with
  | ok i =>
    obtain ⟨t, hexec, hbusy, hdone, -, hkept⟩ := everyCommandCompletesAndKeepsTheInterface i s
    exact ⟨t, (completionStep_of_ok hd).trans hexec, hbusy, hdone, hkept.cmd⟩
  | error e => exact ⟨_, completionStep_of_error hd, rfl, rfl, rfl⟩

theorem run_succ_of_step {M : Host.Core} {s t : M.State} (h : M.step s = .next t) (n : Nat) :
    M.run (n + 1) s = M.run n t := by
  rw [Host.Core.run, h]

theorem State.Completing.run_completes {s : State} {n : Nat} (hs : s.Completing) (hlat : s.latency = n) :
    ∃ t : State, Host.Core.run core (n + 1) s = .next t ∧ t.busy = false ∧ t.done = true ∧ t.cmd = s.cmd := by
  induction n generalizing s with
  | zero =>
    obtain ⟨t, hcompletion, hafter⟩ := completionStep_completes s
    exact ⟨t, run_succ_of_step (M := core) ((step_of_due hs.released hs.busy hlat).trans hcompletion) 0, hafter⟩
  | succ n ih =>
    obtain ⟨u, hstep, hu, hulat, hcmd⟩ := hs.step_next hlat
    obtain ⟨t, hrun, hbusy, hdone, htcmd⟩ := ih hu hulat
    exact ⟨t, (run_succ_of_step (M := core) hstep (n + 1)).trans hrun, hbusy, hdone, htcmd.trans hcmd⟩

/-- Settles O8, by induction on the remaining latency: a step of the host leaves the command pending and takes one from the
latency, and at 0 the step is the completion. -/
theorem pendingCommandCompletes : Obligations.PendingCommandCompletes :=
  fun _ hr hb hhost => State.Completing.run_completes ⟨hr, hb, hhost⟩ rfl

/-! ## A change of `RST` (R230 to R234) -/

/-- A bank that nothing has written since reset reads the draws of that reset in its stored bits (R232). -/
theorem bankByte_of_unwritten {s : State} {b : Bank} (h : s.bank b = []) (a : Nat) :
    s.bankByte b a = Config.powerOnByte s.resets a &&& byteMask b a := by
  unfold State.bankByte
  split
  · rename_i hmask
    rw [hmask]
    exact BitVec.and_zero.symm
  · rw [h]
    rfl

theorem bank_changeRst (l : Bool) (s : State) (b : Bank) : (s.changeRst l).bank b = [] := by cases b <;> rfl

theorem ctrlWord_reset : State.reset.ctrlWord = 0 := by decide

theorem statusWord_reset : State.reset.statusWord = 0 := by decide

theorem step_rst {s : State} {l : Bool} (hdue : s.completionDue = false) (hop : s.host[s.hostPc]? = some (.rst l)) :
    step s = .next { s.tick.setRst l with hostPc := s.hostPc + 1 } := step_hostOp hdue hop

/-- Settles O55: the step sets the level of `RST`, and only a level that differs is a change. -/
theorem hardwareResetAbandonsAndRedraws : Obligations.HardwareResetAbandonsAndRedraws := by
  intro s l hdue hop
  rw [step_rst hdue hop]
  refine ⟨fun hsame => ?_, fun hchange => ?_⟩
  · rw [show s.tick.setRst l = s.tick from if_pos hsame]
    rfl
  · rw [setRst_change (s := s.tick) hchange]
    exact ⟨_, rfl, rfl, rfl, ctrlWord_reset, statusWord_reset, rfl, rfl, rfl, rfl, rfl, rfl, rfl, rfl, rfl, rfl, rfl, rfl,
      rfl, rfl, rfl, rfl, rfl, fun b a => bankByte_of_unwritten (bank_changeRst l s.tick b) a, rfl, rfl, rfl⟩

/-! ## The registers after reset (R231) -/

theorem wideWord_zero (w : Nat) : wideWord 0 w = 0 := by
  unfold wideWord
  split
  · exact BitVec.extractLsb'_zero
  · rfl

theorem wideReg_reset (r : WideReg) : State.reset.wideReg r = 0 := by cases r <;> rfl

/-- After `ID` and `PARAM` every register of the page is 0 after reset. -/
theorem regWord_reset : ∀ k < 13, ∀ r ∈ regPage[k + 2]?, State.reset.regWord r = 0 := by decide

/-- Settles O54: with no command pending, a read shows the register, and the state after reset lists the values. -/
theorem resetRegisterValues : Obligations.ResetRegisterValues := by
  refine ⟨busRead_reg_idle (r := .id) rfl rfl rfl, busRead_reg_idle (r := .param) rfl rfl rfl,
    fun k hk => ?_, fun r w hw => ?_, rfl, rfl, rfl⟩
  · obtain ⟨r, hpage, hloc⟩ := locate_reg (off := 0x008 + 4 * k) (by omega)
    have hindex : (0x008 + 4 * k) / 4 = k + 2 := by omega
    rw [busRead_reg_idle rfl (by omega) hloc, regWord_reset k hk r (hindex ▸ hpage)]
  · rw [busRead_wide rfl r hw, wideReg_reset, wideWord_zero]

/-! ## The invariants after reset (R231, R232) -/

/-- The invariants hold with no command pending, the engine registers clear and no memory byte written. -/
theorem invariants_of_cleared {s : State} (hidle : s.busy = false) (hactive : s.active = []) (hbank : ∀ b, s.bank b = [])
    (hclear : s.clearEngines = s) : s.ControlInv ∧ s.RangeInv ∧ s.ArithInv ∧ s.HuffmanInv := by
  refine ⟨State.StorageInv.control_of_idle ⟨hactive, fun b => ?_⟩ hidle, ?_⟩
  · rw [hbank b]
    rfl
  · rw [← hclear]
    exact ⟨rangeInv_clearEngines s, fun hlive => absurd rfl hlive, huffmanInv_of_stage_none rfl⟩

/-- Settles O56: the state after reset and the state after a change of `RST` are cleared states. -/
theorem invariantsHoldAtReset : Obligations.InvariantsHoldAtReset := by
  refine ⟨invariants_of_cleared rfl rfl (fun b => by cases b <;> rfl) rfl, fun s l hchange => ?_⟩
  rw [setRst_change hchange]
  exact invariants_of_cleared rfl rfl (bank_changeRst l s) rfl

end Sys2Proof.Machine
end
